-- ==== Sys2Proof/Word.lean ====
section
/-! DEFINITION. The two widths of the machine: a word is 16 bits, a byte 8 (R5 `XLEN`, R51, R58). -/

namespace Sys2Proof

/-- A 16-bit word: a register, an address, an instruction word (R5, R10, R50). -/
abbrev Word := BitVec 16

/-- An 8-bit byte: the unit every address names (R50). -/
abbrev Byte := BitVec 8

end Sys2Proof
end

