-- ==== Sys2Proof/Syntax.lean ====
section
/-! DEFINITION. The instructions: one constructor per row of `spec/opcode_table.json` (R78), with the
operand forms of rules R74 to R76. -/

namespace Sys2Proof

/-- A register number, R0 to R15 (R10). R0 is PC, R1 SP, R2 SR; R3 is not a storage register (R13). -/
abbrev Reg := Fin 16

/-- The B/W bit (R73). -/
inductive Width where
  | word | byte
deriving DecidableEq, Repr

/-- The six constants of the constant generator (R76). -/
inductive Const where
  | zero | one | two | four | eight | minusOne
deriving DecidableEq, Repr

/-- A source operand (R74). `indexed`, `symbolic`, `absolute` and `imm` carry their extension word. -/
inductive Src where
  /-- `Rn`. -/
  | reg (r : Reg)
  /-- `X(Rn)`. -/
  | indexed (r : Reg) (x : Word)
  /-- `ADDR`: the word is the distance from the place the extension word was fetched from. -/
  | symbolic (x : Word)
  /-- `&ADDR`. -/
  | absolute (a : Word)
  /-- `@Rn`. -/
  | indirect (r : Reg)
  /-- `@Rn+`. -/
  | indirectInc (r : Reg)
  /-- `#N` with an extension word. -/
  | imm (n : Word)
  /-- `#0`, `#1`, `#2`, `#4`, `#8`, `#-1` from the constant generator. -/
  | const (c : Const)
deriving DecidableEq, Repr

/-- A destination operand (R75). -/
inductive Dst where
  /-- `Rn`; a result written to R3 is discarded. -/
  | reg (r : Reg)
  /-- `X(Rn)`. -/
  | indexed (r : Reg) (x : Word)
  /-- `ADDR`. -/
  | symbolic (x : Word)
  /-- `&ADDR`. -/
  | absolute (a : Word)
deriving DecidableEq, Repr

/-- The seven instructions in scope (R78). `pop` and `eint` are the emulated rows (R79): the words of
`MOV @SP+,Rn` and of `BIS #8,SR` with the constant generator. -/
inductive Instr where
  | mov (w : Width) (src : Src) (dst : Dst)
  | bic (w : Width) (src : Src) (dst : Dst)
  | bis (w : Width) (src : Src) (dst : Dst)
  | push (src : Src)
  | reti
  | pop (d : Reg)
  | eint
deriving DecidableEq, Repr

end Sys2Proof
end

