-- ==== Sys2Proof/WellFormed.lean ====
section
/-! DEFINITION. Which terms of `Instr` stand for an instruction of the machine: the operand forms that
exist (R74 to R76), less those rule R105 refuses (`admitted`), and spelled as the decoder spells
them (`wellFormed`). -/

namespace Sys2Proof

/-- The registers that the indexed and autoincrement modes take: with R0, R2 and R3 the same bits mean
another mode or a constant (R74, R75). -/
def Reg.isBase (r : Reg) : Bool := r != 0 && r != 2 && r != 3

/-- The source forms of rule R74. R3 in register mode is the constant 0, R2 and R3 in the indirect modes are
constants (R76). `@PC` is a form of the table; rule R105 item 4 refuses it. -/
def Src.exists : Src → Bool
  | .reg r => r != 3
  | .indexed r _ => r.isBase
  | .indirect r => r != 2 && r != 3
  | .indirectInc r => r.isBase
  | .symbolic _ | .absolute _ | .imm _ | .const _ => true

/-- The destination forms of rule R75; indexed mode with R3 is refused there and by rule R105 item 6. -/
def Dst.exists : Dst → Bool
  | .reg _ => true
  | .indexed r _ => r.isBase
  | .symbolic _ | .absolute _ => true

/-- Rule R105 item 4: a source `@PC`. -/
def Src.isIndirectPc : Src → Bool
  | .indirect r => r == 0
  | .reg _ | .indexed _ _ | .symbolic _ | .absolute _ | .indirectInc _ | .imm _ | .const _ => false

/-- The register an operand names as its operand register, if it names one. -/
def Src.register? : Src → Option Reg
  | .reg r | .indexed r _ | .indirect r | .indirectInc r => some r
  | .symbolic _ | .absolute _ | .imm _ | .const _ => none

/-- The register that a source operand increments (R74). -/
def Src.increments? : Src → Option Reg
  | .indirectInc r => some r
  | .reg _ | .indexed _ _ | .symbolic _ | .absolute _ | .indirect _ | .imm _ | .const _ => none

/-- The register that a destination operand names. -/
def Dst.register? : Dst → Option Reg
  | .reg r | .indexed r _ => some r
  | .symbolic _ | .absolute _ => none

/-- Rule R105 item 3: the register is both autoincremented by the source and used by the destination. -/
def incrementsDestination (src : Src) (dst : Dst) : Bool :=
  match src.increments? with
  | some r => dst.register? == some r
  | none => false

/-- Rule R105 item 5: a byte form with destination register PC. -/
def byteToPc (w : Width) (dst : Dst) : Bool := w == .byte && dst == .reg 0

/-- A double-operand form that exists and that rule R105 does not refuse. -/
def formatIAdmitted (w : Width) (src : Src) (dst : Dst) : Bool :=
  src.exists && dst.exists && !src.isIndirectPc && !incrementsDestination src dst && !byteToPc w dst

/-- A PUSH form that exists and that rule R105 (items 2 and 4) does not refuse. -/
def pushAdmitted (src : Src) : Bool :=
  src.exists && !src.isIndirectPc && src.register? != some 1

/-- The operand forms the spec gives an effect to. -/
def Instr.admitted : Instr → Bool
  | .mov w src dst | .bic w src dst | .bis w src dst => formatIAdmitted w src dst
  | .push src => pushAdmitted src
  | .pop d => d != 1
  | .reti | .eint => true

/-- The spelling the decoder gives: the words of the two emulated rows are `pop` and `eint` (R79). -/
def Instr.canonical : Instr → Bool
  | .mov w src dst => !(w == .word && src == .indirectInc 1 && match dst with | .reg _ => true | _ => false)
  | .bis w src dst => !(w == .word && src == .const .eight && dst == .reg 2)
  | .bic _ _ _ | .push _ | .reti | .pop _ | .eint => true

/-- An instruction that the decoder answers with. -/
def Instr.wellFormed (i : Instr) : Bool := i.admitted && i.canonical

end Sys2Proof
end

