-- ==== Sys2Proof/Decode.lean ====
section
/-! DEFINITION. From instruction words to instructions and back (R70 to R84). The decoder reads a list of
16-bit words, the instruction word first, and answers the instruction with the words that follow it; it is
total and refuses by name. The encoder is written from the same tables. -/

namespace Sys2Proof

/-! ### Byte order (R56) -/

/-- Bits 7:0, the byte at the even address. -/
def loByte (w : Word) : Byte := w.setWidth 8

/-- Bits 15:8, the byte at the odd address. -/
def hiByte (w : Word) : Byte := (w >>> 8).setWidth 8

/-- The word whose byte at the even address is `lo`. -/
def wordOfBytes (lo hi : Byte) : Word := hi ++ lo

/-! ### Bit fields -/

/-- Bits `lo + width - 1` to `lo` of a word, as a number (R6). -/
def bitField (w : Word) (lo width : Nat) : Nat := w.toNat / 2 ^ lo % 2 ^ width

/-- A four-bit register field. -/
def regField (w : Word) (lo : Nat) : Reg := Fin.ofNat 16 (bitField w lo 4)

/-! ### The opcode map (R78) -/

/-- The rows of rule R78. -/
inductive Opcode where
  | mov | bic | bis | push | reti | pop | eint
deriving DecidableEq, Repr

/-- A row: bits 15 down to `lo` of the instruction word are `value`. -/
structure OpcodeRow where
  op    : Opcode
  lo    : Nat
  value : Nat
deriving DecidableEq, Repr

/-- Rule R78. The two emulated rows stand before the rows they are aliases of (R79). -/
def opcodeTable : List OpcodeRow :=
  [ ⟨.eint, 0, 0xD232⟩, ⟨.pop, 4, 0x413⟩,
    ⟨.reti, 0, 0x1300⟩, ⟨.push, 6, 0x48⟩,
    ⟨.mov, 12, 0x4⟩, ⟨.bic, 12, 0xC⟩, ⟨.bis, 12, 0xD⟩ ]

/-- The row a word matches. -/
def OpcodeRow.hit (row : OpcodeRow) (w : Word) : Bool := w.toNat / 2 ^ row.lo == row.value

/-- The first row a word matches, if any. -/
def lookupOpcode (w : Word) : Option Opcode := (opcodeTable.find? fun row => row.hit w).map (·.op)

/-! ### Length (R84) -/

/-- The source needs an extension word: `X(Rn)`, `ADDR`, `&ADDR`, `#N`. -/
def sourceExtends (as n : Nat) : Bool := (as == 1 && n != 3) || (as == 3 && n == 0)

/-- The number of extension words of the source operand, from the instruction word alone (R84). A word outside the
opcode map has none: it is refused on its own. -/
def sourceExtensionWords (w : Word) : Nat :=
  match lookupOpcode w with
  | some .mov | some .bic | some .bis => if sourceExtends (bitField w 4 2) (bitField w 8 4) then 1 else 0
  | some .push => if sourceExtends (bitField w 4 2) (bitField w 0 4) then 1 else 0
  | some .reti | some .pop | some .eint | none => 0

/-- The number of extension words of the destination operand, from the instruction word alone (R84). -/
def destExtensionWords (w : Word) : Nat :=
  match lookupOpcode w with
  | some .mov | some .bic | some .bis => bitField w 7 1
  | some .push | some .reti | some .pop | some .eint | none => 0

/-! ### The decoder -/

/-- Why a list of words is not an instruction. -/
inductive DecodeError where
  /-- The list ends before the instruction does. -/
  | truncated
  /-- No row of the opcode map (R80). -/
  | instructionNotInScope
  /-- An operand combination of rule R105. -/
  | operandFormNotAdmitted
deriving DecidableEq, Repr

/-- What the decoder answers. -/
abbrev Decoded (α : Type) := Except DecodeError (α × List Word)

/-- Take one extension word. -/
def withExtension {α : Type} (mk : Word → α) : List Word → Decoded α
  | [] => .error .truncated
  | x :: rest => .ok (mk x, rest)

/-- The source operand from `As` and the register number (R74, R76). -/
def decodeSource (as : Nat) (r : Reg) (ws : List Word) : Decoded Src :=
  match as with
  | 0 => if r = 3 then .ok (.const .zero, ws) else .ok (.reg r, ws)
  | 1 =>
      if r = 0 then withExtension .symbolic ws
      else if r = 2 then withExtension .absolute ws
      else if r = 3 then .ok (.const .one, ws)
      else withExtension (.indexed r) ws
  | 2 =>
      if r = 2 then .ok (.const .four, ws)
      else if r = 3 then .ok (.const .two, ws)
      else .ok (.indirect r, ws)
  | _ =>
      if r = 0 then withExtension .imm ws
      else if r = 2 then .ok (.const .eight, ws)
      else if r = 3 then .ok (.const .minusOne, ws)
      else .ok (.indirectInc r, ws)

/-- The destination operand from `Ad` and the register number (R75). -/
def decodeDest (ad : Nat) (r : Reg) (ws : List Word) : Decoded Dst :=
  match ad with
  | 0 => .ok (.reg r, ws)
  | _ =>
      if r = 0 then withExtension .symbolic ws
      else if r = 2 then withExtension .absolute ws
      else if r = 3 then .error .operandFormNotAdmitted
      else withExtension (.indexed r) ws

/-- The B/W bit (R73). -/
def decodeWidth (bw : Nat) : Width := if bw = 0 then .word else .byte

/-- Answer an instruction unless rule R105 refuses its operands. -/
def ifAdmitted (i : Instr) (rest : List Word) : Decoded Instr :=
  if i.admitted then .ok (i, rest) else .error .operandFormNotAdmitted

/-- A Format I word (R71): the source is complete before the destination (R77). -/
def decodeFormatI (mk : Width → Src → Dst → Instr) (w : Word) (ws : List Word) : Decoded Instr :=
  match decodeSource (bitField w 4 2) (regField w 8) ws with
  | .error e => .error e
  | .ok (src, ws1) =>
      match decodeDest (bitField w 7 1) (regField w 0) ws1 with
      | .error e => .error e
      | .ok (dst, ws2) => ifAdmitted (mk (decodeWidth (bitField w 6 1)) src dst) ws2

/-- PUSH, a Format II word (R72). -/
def decodePush (w : Word) (ws : List Word) : Decoded Instr :=
  match decodeSource (bitField w 4 2) (regField w 0) ws with
  | .error e => .error e
  | .ok (src, ws1) => ifAdmitted (.push src) ws1

/-- The instruction at the head of a list of words, and the words after it. -/
def decode : List Word → Decoded Instr
  | [] => .error .truncated
  | w :: ws =>
      match lookupOpcode w with
      | some .mov => decodeFormatI .mov w ws
      | some .bic => decodeFormatI .bic w ws
      | some .bis => decodeFormatI .bis w ws
      | some .push => decodePush w ws
      | some .reti => .ok (.reti, ws)
      | some .pop => ifAdmitted (.pop (regField w 0)) ws
      | some .eint => .ok (.eint, ws)
      -- PUSH.B is a named operand form of rule R105 item 1; every other word is out of scope (R80)
      | none => if w.toNat / 64 = 0x49 then .error .operandFormNotAdmitted else .error .instructionNotInScope

/-! ### The encoder -/

/-- A Format I instruction word (R71). -/
def formatIWord (opcode sreg ad bw as dreg : Nat) : Word :=
  BitVec.ofNat 16 (opcode * 4096 + sreg * 256 + ad * 128 + bw * 64 + as * 16 + dreg)

/-- `As`, the register number and the extension word of a source operand (R74, R76). -/
def Src.fields : Src → Nat × Nat × List Word
  | .reg r => (0, r.val, [])
  | .indexed r x => (1, r.val, [x])
  | .symbolic x => (1, 0, [x])
  | .absolute a => (1, 2, [a])
  | .indirect r => (2, r.val, [])
  | .indirectInc r => (3, r.val, [])
  | .imm n => (3, 0, [n])
  | .const .zero => (0, 3, [])
  | .const .one => (1, 3, [])
  | .const .two => (2, 3, [])
  | .const .minusOne => (3, 3, [])
  | .const .four => (2, 2, [])
  | .const .eight => (3, 2, [])

/-- `Ad`, the register number and the extension word of a destination operand (R75). -/
def Dst.fields : Dst → Nat × Nat × List Word
  | .reg r => (0, r.val, [])
  | .indexed r x => (1, r.val, [x])
  | .symbolic x => (1, 0, [x])
  | .absolute a => (1, 2, [a])

/-- The B/W bit (R73). -/
def Width.bit : Width → Nat
  | .word => 0
  | .byte => 1

/-- The words of a Format I instruction: the instruction word, the source's extension, the destination's. -/
def encodeFormatI (opcode : Nat) (w : Width) (src : Src) (dst : Dst) : List Word :=
  formatIWord opcode src.fields.2.1 dst.fields.1 w.bit src.fields.1 dst.fields.2.1
    :: (src.fields.2.2 ++ dst.fields.2.2)

/-- The words of an instruction. -/
def encode : Instr → List Word
  | .mov w src dst => encodeFormatI 0x4 w src dst
  | .bic w src dst => encodeFormatI 0xC w src dst
  | .bis w src dst => encodeFormatI 0xD w src dst
  | .push src => BitVec.ofNat 16 (0x48 * 64 + src.fields.1 * 16 + src.fields.2.1) :: src.fields.2.2
  | .reti => [0x1300]
  | .pop d => [BitVec.ofNat 16 (0x413 * 16 + d.val)]
  | .eint => [0xD232]

/-! ### Bytes -/

/-- The words of a string of bytes, each word with its low byte first (R56). An odd last byte is dropped. -/
def wordsOfBytes : List Byte → List Word
  | lo :: hi :: rest => wordOfBytes lo hi :: wordsOfBytes rest
  | _ => []

/-- The instruction at the head of a string of bytes, and the words after it. -/
def decodeBytes (bs : List Byte) : Decoded Instr := decode (wordsOfBytes bs)

/-- The six bytes, in memory order, of an instruction whose bits are `w`, numbered from the least significant
bit of its first word; the bits from `nbits` up are 0. Six bytes is the longest instruction (R70). -/
def tableBytes (nbits w : Nat) : List Byte :=
  (List.range 6).map fun k => BitVec.ofNat 8 (w % 2 ^ nbits / 256 ^ k)

/-- The instruction the decoder reads from a word of the opcode table. -/
def decodeTableWord (nbits w : Nat) : Option Instr :=
  match decodeBytes (tableBytes nbits w) with
  | .ok (i, _) => some i
  | .error _ => none

end Sys2Proof
end

