-- ==== Sys2Proof/Config.lean ====
section
/-! DEFINITION. What an implementation fixes (the parameters of rule R5), and the free values:
constants without a body, for every place where the spec says `draw(T)` (R8) or gives an effect and
no value. -/

namespace Sys2Proof

/-- `draw(bit)` of rule R8: nothing is known of it. It is applied to the draw counter of the state. -/
opaque Config.freeBit : Nat → Bool

/-- `draw(byte)` of rule R8, applied to the draw counter of the state. -/
opaque Config.freeByte : Nat → Byte

/-- A word about which nothing is known: what a register holds after a reset that the spec says leaves it
without a value (R177), applied to the draw counter of the state. -/
opaque Config.freeWord : Nat → Word

/-- The parameter `CONFIG` of rule R5: the three device configurations the source names. -/
inductive Device where
  | d310 | d320 | d330
deriving DecidableEq, Repr

/-- The kinds of address that `MEM_MAP` distinguishes (R55). -/
inductive Kind where
  | sfr | peripheral8 | peripheral16 | ram | rom | unmapped
deriving DecidableEq, Repr

/-- One stretch of the address space, `first` to `last` inclusive, and what it is. -/
structure Region where
  first : Nat
  last  : Nat
  kind  : Kind
deriving DecidableEq, Repr

end Sys2Proof

namespace Sys2Proof.Machine

/-! ### Names that the parameters use -/

/-- The three ports (R140). -/
inductive PortId where
  | p0 | p1 | p2
deriving DecidableEq, Repr

/-- The registers that all three ports have (R39, R40). -/
inductive PortField where
  | input | output | direction | flags | edgeSelect | enable
deriving DecidableEq, Repr

/-- The byte registers: the six special function registers (R26) and the port registers (R39, R40). -/
inductive ByteRegister where
  | ie1 | ie2 | ifg1 | ifg2 | me1 | me2
  | port (p : PortId) (f : PortField)
  | p1sel | p2sel
deriving DecidableEq, Repr

/-- The four causes of a reset (R170, R177). -/
inductive ResetCause where
  | powerUp | rstPin | wdtOverflow | keyViolation
deriving DecidableEq, Repr

/-- The flags of the special function registers that a peripheral module sets (R114, R125). -/
inductive ModuleFlag where
  /-- P0IFG.1, IFG1.3, set by the 8-bit Timer/Counter. -/
  | timerCounter
  /-- URXIFG, IFG2.0. -/
  | usartReceive
  /-- UTXIFG, IFG2.1. -/
  | usartTransmit
  /-- ADIFG, IFG2.2. -/
  | adc
  /-- BTIFG, IFG2.7. -/
  | basicTimer
deriving DecidableEq, Repr

/-- The six operating modes (R157). -/
inductive Mode where
  | active | lpm0 | lpm1 | lpm2 | lpm3 | lpm4
deriving DecidableEq, Repr

/-- A row of the vector table below the NMI, by its priority: 13 down to 0 (R123). -/
abbrev Row := Fin 14

/-- An interrupt flag (R125): a bit of IFG1 or IFG2, of a port's flag register, or the abstract flag of a row whose
flag is in its module. -/
inductive FlagBit where
  | ifg1 (n : Fin 8)
  | ifg2 (n : Fin 8)
  | port (p : PortId) (n : Fin 8)
  | module (row : Row)
deriving DecidableEq, Repr

/-- An interrupt enable (R125): a bit of IE1 or IE2, of a port's enable register, or the abstract enable of a row whose
flag is in its module. -/
inductive EnableBit where
  | ie1 (n : Fin 8)
  | ie2 (n : Fin 8)
  | port (p : PortId) (n : Fin 8)
  | module (row : Row)
deriving DecidableEq, Repr

/-- What service does to a flag (R126): a single source flag is reset, a multiple source flag stays; `unstated` where
the spec does not say which it is (R125, row 4). -/
inductive FlagKind where
  | single | multiple | unstated
deriving DecidableEq, Repr

/-- The sources that Table 3.1 names (R125), the NMI vector among them; `vacant` where it names none. -/
inductive SourceName where
  | nmi | p00 | p01 | watchdog | timerA0 | timerA1 | usartReceive | usartTransmit | adc | timerPort
  | portP2 | portP1 | basicTimer | portP0 | vacant
deriving DecidableEq, Repr

/-! ### The parameters (R5) -/

/-- A flag with the enables that must all be set for it to request service. -/
structure GatedFlag where
  flag    : FlagBit
  enables : List EnableBit
deriving DecidableEq, Repr

/-- A row of `VECTOR_TABLE`: the source's name, its flags with their enables, and the kind of the flags. -/
structure VectorRow where
  name  : SourceName
  flags : List GatedFlag
  kind  : FlagKind
deriving DecidableEq, Repr

/-- The addresses of the six registers that every port has (R39, R40). -/
structure PortLayout where
  input      : Nat
  output     : Nat
  direction  : Nat
  flags      : Nat
  edgeSelect : Nat
  enable     : Nat
deriving DecidableEq, Repr

/-- `PORT_ADDR`: the addresses of the twenty port registers (R39, R40). -/
structure PortAddresses where
  p0    : PortLayout
  p1    : PortLayout
  p2    : PortLayout
  p1sel : Nat
  p2sel : Nat
deriving DecidableEq, Repr

/-- A bit of the state that the spec gives the machine (R10 to R47). -/
inductive StateBit where
  /-- Bit n of a CPU register, PC, SP and SR among them. -/
  | cpu (r : Reg) (n : Fin 16)
  /-- Bit n of a byte register. -/
  | io (r : ByteRegister) (n : Fin 8)
  /-- Bit n of WDTCTL. -/
  | wdtctl (n : Fin 8)
  /-- The abstract flag of a row. -/
  | moduleFlag (row : Row)
  /-- The abstract enable of a row. -/
  | moduleEnable (row : Row)
  /-- RAM or ROM holds a value at an address. -/
  | written (a : Nat)
  /-- Bit n of the byte that RAM or ROM holds at an address; 0 where it holds none. -/
  | mem (a : Nat) (n : Fin 8)
  /-- The RST/NMI pin is high. -/
  | pinHigh
  /-- `in_reset` (R41). -/
  | inReset
  /-- The CPU is held in reset, and the release applies this cause (R174). -/
  | heldFor (cause : ResetCause)
  /-- The last instruction changed GIE from 0 to 1 (R128). -/
  | gieFresh
deriving DecidableEq, Repr

/-- A predicate on the state, as data: every Boolean combination of its bits. The spec gives the machine finitely many
bits, so every predicate on them is one of these. -/
inductive StatePredicate where
  | const (b : Bool)
  | bit (b : StateBit)
  | not (p : StatePredicate)
  | and (p q : StatePredicate)
  | or (p q : StatePredicate)
deriving DecidableEq, Repr

/-- The sources that can set an interrupt flag (R114, R119, R122, R144, R152): two sources of one flag, such as pin P0.1 and
the 8-bit Timer/Counter, are apart. -/
inductive FlagSource where
  /-- The RST/NMI pin. -/
  | nmiPin
  /-- The oscillator-fault detector. -/
  | oscillator
  /-- The watchdog counter. -/
  | watchdog
  /-- Pin n of a port. -/
  | pin (p : PortId) (n : Fin 8)
  /-- The module that sets a flag of IFG1 or IFG2. -/
  | moduleFlag (f : ModuleFlag)
  /-- The module that holds the abstract flag of a row. -/
  | row (n : Row)
deriving DecidableEq, Repr

/-- The seven parameters of rule R5, which the spec leaves to the device. They are plain data held in the state, so
that a statement about every state is a statement about every device; no step changes them. -/
structure Platform where
  /-- `CONFIG`. -/
  device       : Device
  /-- `MEM_MAP`, less what rule R55 fixes for every device; the first region that covers an address counts. -/
  regions      : List Region
  /-- `VECTOR_TABLE`, less its rows 15 and 14, reset and NMI, which are fixed (R125; entry 3). -/
  vectors      : Vector VectorRow 14
  /-- `PORT_ADDR`. -/
  ports        : PortAddresses
  /-- `WDT_PASSWORD`: what bits 15:8 of a word written to WDTCTL must be (R35). -/
  wdtKey       : Byte
  /-- `WDT_PASSWORD`: what a read of WDTCTL returns in bits 15:8 (R35). -/
  wdtReadHigh  : Byte
  /-- `WDT_MAY_EXPIRE`: the states in which the watchdog may overflow (R152). -/
  wdtMayExpire : StatePredicate
  /-- `WAKE_FILTER`: the sources that cannot set their flag, each with the low power mode in which it cannot (R161). -/
  wakeFilter   : List (Mode × FlagSource)
deriving DecidableEq, Repr

end Sys2Proof.Machine
end

