-- ==== Sys2Proof/Machine/Platform.lean ====
section
/-! DEFINITION. The address map (R50 to R55), the registers behind it (R26, R34, R39, R40) with their
defined bits, and the values of the parameters of rule R5 that the model takes at reset. -/

namespace Sys2Proof.Machine

/-- The special function register at an address (R26); 0006h to 000Fh hold none (R33). -/
def sfrRegister? (a : Nat) : Option ByteRegister :=
  match a with
  | 0 => some .ie1
  | 1 => some .ie2
  | 2 => some .ifg1
  | 3 => some .ifg2
  | 4 => some .me1
  | 5 => some .me2
  | _ => none

/-- The place of a register in a port's layout. -/
def PortField.address (f : PortField) (l : PortLayout) : Nat :=
  match f with
  | .input => l.input
  | .output => l.output
  | .direction => l.direction
  | .flags => l.flags
  | .edgeSelect => l.edgeSelect
  | .enable => l.enable

/-- A port's layout. -/
def PortAddresses.layout (p : PortId) (t : PortAddresses) : PortLayout :=
  match p with
  | .p0 => t.p0
  | .p1 => t.p1
  | .p2 => t.p2

/-- The address that `PORT_ADDR` gives a port register (R39, R40). -/
def PortAddresses.address? (r : ByteRegister) (t : PortAddresses) : Option Nat :=
  match r with
  | .port p f => some (f.address (t.layout p))
  | .p1sel => some t.p1sel
  | .p2sel => some t.p2sel
  | .ie1 | .ie2 | .ifg1 | .ifg2 | .me1 | .me2 => none

/-- The registers of one port. -/
def portRegistersOf (p : PortId) : List ByteRegister :=
  [.port p .input, .port p .output, .port p .direction, .port p .flags, .port p .edgeSelect, .port p .enable]

/-- The twenty port registers (R39, R40). -/
def portRegisters : List ByteRegister :=
  portRegistersOf .p0 ++ portRegistersOf .p1 ++ [.p1sel] ++ portRegistersOf .p2 ++ [.p2sel]

/-- The port register at an address, by `PORT_ADDR`. -/
def portRegister? (p : Platform) (a : Nat) : Option ByteRegister :=
  portRegisters.find? fun r => p.ports.address? r == some a

/-- The bits of a byte register that are not "reserved, not defined yet" (R27 to R32, R39, R40). IE2.3 is
defined in the '320 and '330 only (R28). DESIGN CHOICE (entry 22): the spec does not say which device lacks which module
(N21), so every other bit it names is defined in every device, ADIFG (IFG2.2) in the '310 too. -/
def definedBits (d : Device) (r : ByteRegister) : Byte :=
  match r with
  | .ie1 => 0x0F
  | .ie2 => match d with
    | .d310 => 0x87
    | .d320 | .d330 => 0x8F
  | .ifg1 => 0x1F
  | .ifg2 => 0x87
  | .me1 => 0x00
  | .me2 => 0x03
  | .port .p0 .flags | .port .p0 .enable => 0xFC
  | .port _ _ | .p1sel | .p2sel => 0xFF

/-- The address of WDTCTL (R53). -/
def wdtctlAddress : Word := 0x0120

/-- The word that holds the reset vector (R54). -/
def resetVector : Word := 0xFFFE

/-- A region covers an address. -/
def regionCovers (r : Region) (a : Nat) : Bool := r.first ≤ a && a ≤ r.last

/-- `MEM_MAP` (R55): what that rule fixes for every device stands first, the platform's regions decide the rest, address
by address. -/
def kindOf (p : Platform) (a : Nat) : Kind :=
  if a < 0x10 then .sfr
  else if a = 0x120 ∨ a = 0x121 then .peripheral16
  else if 0x10000 ≤ a then .unmapped
  else if 0xFFE0 ≤ a then .rom
  else match p.regions.find? fun r => regionCovers r a with
    | some r => r.kind
    | none => .unmapped

/-- Both bytes of the word at `a` are in RAM. -/
def wordInRam (p : Platform) (a : Nat) : Bool := kindOf p a == .ram && kindOf p (a + 1) == .ram

/-! ### The defaults of rule R5 -/

/-- The default of `PORT_ADDR` (R39, R40, D23). -/
def defaultPorts : PortAddresses where
  p0 := ⟨0x10, 0x11, 0x12, 0x13, 0x14, 0x15⟩
  p1 := ⟨0x20, 0x21, 0x22, 0x23, 0x24, 0x25⟩
  p2 := ⟨0x28, 0x29, 0x2A, 0x2B, 0x2C, 0x2D⟩
  p1sel := 0x26
  p2sel := 0x2E

/-- A row without a source. -/
def vacantRow : VectorRow := ⟨.vacant, [], .multiple⟩

/-- A row with one flag and one enable. -/
def plainRow (name : SourceName) (flag : FlagBit) (enable : EnableBit) (kind : FlagKind) : VectorRow :=
  ⟨name, [⟨flag, [enable]⟩], kind⟩

/-- A row for pins of a port. -/
def portRow (name : SourceName) (p : PortId) (pins : List (Fin 8)) : VectorRow :=
  ⟨name, pins.map fun n => ⟨.port p n, [.port p n]⟩, .multiple⟩

/-- The Timer/Port row: its flag and one enable are in the module, the other is TPIE in IE2 (R125; entry 11). -/
def timerPortRow (row : Row) (tpie : Fin 8) : VectorRow :=
  ⟨.timerPort, [⟨.module row, [.ie2 tpie, .module row]⟩], .unstated⟩

/-- The default of `VECTOR_TABLE` (R125, D14), row 0 first. In the '310 row 5 is the Timer/Port and row 4 has no source;
in the '320 and '330 row 5 is the ADC and row 4 the Timer/Port. -/
def defaultVectors (d : Device) : Vector VectorRow 14 := #v[
  portRow .portP0 .p0 [2, 3, 4, 5, 6, 7],
  plainRow .basicTimer (.ifg2 7) (.ie2 7) .single,
  portRow .portP1 .p1 [0, 1, 2, 3, 4, 5, 6, 7],
  portRow .portP2 .p2 [0, 1, 2, 3, 4, 5, 6, 7],
  match d with
    | .d310 => vacantRow
    | .d320 | .d330 => timerPortRow 4 3,
  match d with
    | .d310 => timerPortRow 5 2
    | .d320 | .d330 => plainRow .adc (.ifg2 2) (.ie2 2) .single,
  plainRow .usartTransmit (.ifg2 1) (.ie2 1) .single,
  plainRow .usartReceive (.ifg2 0) (.ie2 0) .single,
  plainRow .timerA1 (.module 8) (.module 8) .multiple,
  plainRow .timerA0 (.module 9) (.module 9) .single,
  plainRow .watchdog (.ifg1 0) (.ie1 0) .single,
  vacantRow,
  plainRow .p01 (.ifg1 3) (.ie1 3) .single,
  plainRow .p00 (.ifg1 2) (.ie1 2) .single]

/-- The default of `WDT_MAY_EXPIRE` (R152, D16): HOLD is 0. -/
def defaultWdtMayExpire : StatePredicate := .not (.bit (.wdtctl 7))

/-- The parameters at reset. DESIGN CHOICE (entry 3): the '320 with the map of 95_test_vectors.md; the rest is the default
of rule R5. -/
def defaultPlatform : Platform where
  device := .d320
  regions :=
    [ ⟨0x0010, 0x002F, .peripheral8⟩, ⟨0x0200, 0x02FF, .ram⟩, ⟨0xF000, 0xFFFF, .rom⟩ ]
  vectors := defaultVectors .d320
  ports := defaultPorts
  wdtKey := 0x5A
  wdtReadHigh := 0x69
  wdtMayExpire := defaultWdtMayExpire
  wakeFilter := []

/-- DESIGN CHOICE (entry 5): the PC at reset, where reset memory lists no reset vector: the first address of
the default map's ROM. -/
def defaultEntry : Word := 0xF000

end Sys2Proof.Machine
end

