-- ==== Sys2Proof/Machine/State.lean ====
section
/-! DEFINITION. The state of the machine, the events of its environment, and why a step can stop. -/

namespace Sys2Proof.Machine

/-- The level of a pin (R41). -/
inductive Level where
  | low | high
deriving DecidableEq, Repr

/-- The flags and enables that are inside modules the spec does not describe: one abstract flag and one abstract enable
for each row of the vector table (R125, last paragraph). -/
structure Modules where
  flags   : Vector Bool 14
  enables : Vector Bool 14
deriving DecidableEq, Repr

/-- The registers of a port (R39, R40). Bit n of `pins` is the level of pin n, 1 for high. -/
structure Port where
  pins : Byte
  out  : Byte
  dir  : Byte
  ifg  : Byte
  ies  : Byte
  ie   : Byte
deriving DecidableEq, Repr

/-- What the environment can do between two CPU steps (D11). -/
inductive EnvEvent where
  /-- VCC is applied (R171). -/
  | powerUp
  /-- The RST/NMI pin takes a level (R119). -/
  | rstNmiPin (level : Level)
  /-- Pin n of a port takes a level (R144). -/
  | portPin (p : PortId) (n : Fin 8) (level : Level)
  /-- Flag n of a port is set (R144, last paragraph). -/
  | portFlag (p : PortId) (n : Fin 8)
  /-- An oscillator fault (R122). -/
  | oscillatorFault
  /-- The watchdog counter overflows (R152). -/
  | watchdogOverflow
  /-- A module sets its flag (R114). -/
  | moduleFlag (f : ModuleFlag)
  /-- The modules set and clear the bits inside them (R125). -/
  | modules (m : Modules)
deriving DecidableEq, Repr

/-- Whose move it is. -/
inductive Turn where
  | cpu
  | env (e : EnvEvent)
deriving DecidableEq, Repr

/-- RAM and ROM: address and byte, addresses strictly rising; an address that is not listed holds no value. -/
abbrev Memory := List Host.Cell

/-- The state of the machine. -/
structure State where
  /-- The parameters of rule R5; no step changes them. -/
  platform : Platform
  /-- R0, the program counter (R11, R14). -/
  pc       : Word
  /-- R1, the stack pointer (R12). -/
  sp       : Word
  /-- R2, the status register (R17). -/
  sr       : Word
  /-- R4 to R15 (R13). -/
  gpr      : Vector Word 12
  /-- Interrupt enable 1 (R27). -/
  ie1      : Byte
  /-- Interrupt enable 2 (R28). -/
  ie2      : Byte
  /-- Interrupt flag register 1 (R29). -/
  ifg1     : Byte
  /-- Interrupt flag register 2 (R30). -/
  ifg2     : Byte
  /-- Module enable 1 (R31). -/
  me1      : Byte
  /-- Module enable 2 (R32). -/
  me2      : Byte
  /-- Bits 7:0 of WDTCTL (R34). -/
  wdtctl   : Byte
  /-- Port P0 (R39). -/
  p0       : Port
  /-- Port P1 (R40). -/
  p1       : Port
  /-- Port P2 (R40). -/
  p2       : Port
  /-- The Function Select register of P1 (R40). -/
  p1sel    : Byte
  /-- The Function Select register of P2 (R40). -/
  p2sel    : Byte
  /-- Flags and enables inside modules (R125). -/
  modules  : Modules
  /-- RAM and ROM (R47, R54). -/
  mem      : Memory
  /-- The level of the RST/NMI pin (R41). -/
  pin      : Level
  /-- The CPU is held in the reset state (R41, R174), with the cause that the release applies again. -/
  hold     : Option ResetCause
  /-- The last instruction changed GIE from 0 to 1 (R128, D10). -/
  gieFresh : Bool
  /-- The model's own: how many free values have been drawn. -/
  draws    : Nat
  /-- The model's own: whose moves come next; the CPU moves when nothing is listed. -/
  schedule : List Turn
deriving DecidableEq, Repr

/-- Why the machine stops with a fault. All three are the spec's own model stops, and safe: nothing is provable
past them. -/
inductive Fault where
  /-- A word access at an odd address (R57): word reads and writes. -/
  | misalignedWordAccess
  /-- An instruction fetch at an odd PC (R16): the fetch. -/
  | misalignedFetch
  /-- A read of a RAM or ROM byte that holds no value (R47): byte and word reads, the fetch, the vector reads. -/
  | unwrittenMemory
deriving DecidableEq, Repr

/-- Why the machine has no meaning for its input. All are the spec's own refusals but `notModelled`, and safe. -/
inductive Refusal where
  /-- An instruction without a meaning in this model; raised by `exec` alone. -/
  | notModelled (mnemonic : String)
  /-- A word that no row of the opcode map matches (R80): the fetch. -/
  | instructionNotInScope
  /-- An operand combination of rule R105, or a term that is no instruction: the fetch and the meanings. -/
  | operandFormNotAdmitted
  /-- A write of SR with one of bits 15:9 set (R25): register writes and RETI. -/
  | reservedSrBit
  /-- A write that sets IE1.OFIE (R117): byte writes. -/
  | ofieNotAdmitted
  /-- A word access to 0000h to 000Fh (R59): word reads and writes. -/
  | wordAccessToSfr
  /-- A word access to a byte peripheral (R59): word reads and writes. -/
  | wordAccessToBytePeripheral
  /-- An access to 0006h to 000Fh (R33): byte reads and writes. -/
  | undefinedSfr
  /-- An access to a peripheral address for which the spec has no register (R69): reads and writes. -/
  | unmodelledPeripheral
  /-- A byte write to 0120h or 0121h (R35): byte writes. -/
  | byteWriteToWdtctl
  /-- An access to an address the map calls unmapped (R69): reads and writes. -/
  | unmappedAddress
  /-- A write to ROM (R60): writes. -/
  | writeToRom
deriving DecidableEq, Repr

/-- A port after power-up (R39, R40): input, no flag; DESIGN CHOICE (entries 6, 7) 00h for the rest. -/
def Port.reset : Port where
  pins := 0
  out := 0
  dir := 0
  ifg := 0
  ies := 0
  ie := 0

/-- The machine right after power-up (R177, R180). DESIGN CHOICE where the spec gives no value: entries 3 to 8. -/
def State.reset : State where
  platform := defaultPlatform
  pc := defaultEntry
  sp := 0
  sr := 0
  gpr := Vector.replicate 12 0
  ie1 := 0
  ie2 := 0
  ifg1 := 0x02
  ifg2 := 0
  me1 := 0
  me2 := 0
  wdtctl := 0
  p0 := Port.reset
  p1 := Port.reset
  p2 := Port.reset
  p1sel := 0
  p2sel := 0
  modules := ⟨Vector.replicate 14 false, Vector.replicate 14 false⟩
  mem := []
  pin := .high
  hold := none
  gieFresh := false
  draws := 0
  schedule := []

/-- A port by its name. -/
def State.port (id : PortId) (s : State) : Port :=
  match id with
  | .p0 => s.p0
  | .p1 => s.p1
  | .p2 => s.p2

/-! ### Updates of one field -/

def State.setPort (id : PortId) (p : Port) (s : State) : State :=
  match id with
  | .p0 => { s with p0 := p }
  | .p1 => { s with p1 := p }
  | .p2 => { s with p2 := p }

def State.setPc (v : Word) (s : State) : State := { s with pc := v }
def State.setSp (v : Word) (s : State) : State := { s with sp := v }
def State.setSr (v : Word) (s : State) : State := { s with sr := v }
def State.setGpr (v : Vector Word 12) (s : State) : State := { s with gpr := v }
def State.setIfg1 (v : Byte) (s : State) : State := { s with ifg1 := v }
def State.setIfg2 (v : Byte) (s : State) : State := { s with ifg2 := v }
def State.setModules (m : Modules) (s : State) : State := { s with modules := m }
def State.setWdtctl (v : Byte) (s : State) : State := { s with wdtctl := v }
def State.setMem (m : Memory) (s : State) : State := { s with mem := m }
def State.setDraws (n : Nat) (s : State) : State := { s with draws := n }
def State.setGieFresh (b : Bool) (s : State) : State := { s with gieFresh := b }
def State.setSchedule (l : List Turn) (s : State) : State := { s with schedule := l }

end Sys2Proof.Machine
end

