-- ==== Sys2Proof/Machine/Flags.lean ====
section
/-! DEFINITION. The bits of the status register, of WDTCTL and of the operating mode. No instruction in scope
computes a status bit (R95): the bits change only with SR as a whole. -/

namespace Sys2Proof.Machine

/-! ### The status register (R17) -/

def carryBit (sr : Word) : Bool := sr.getLsbD 0
def zeroBit (sr : Word) : Bool := sr.getLsbD 1
def negativeBit (sr : Word) : Bool := sr.getLsbD 2
def gieBit (sr : Word) : Bool := sr.getLsbD 3
def cpuOffBit (sr : Word) : Bool := sr.getLsbD 4
def oscOffBit (sr : Word) : Bool := sr.getLsbD 5
def scg0Bit (sr : Word) : Bool := sr.getLsbD 6
def scg1Bit (sr : Word) : Bool := sr.getLsbD 7
def overflowBit (sr : Word) : Bool := sr.getLsbD 8

/-- Bits 15:9, "reserved for future enhancements" (R25). -/
def reservedSrBits : Word := 0xFE00

/-- One of bits 15:9 is set (R25). -/
def hasReservedSrBit (v : Word) : Bool := v &&& reservedSrBits != 0

/-- SR after interrupt entry: only SCG0 survives (R130). -/
def entrySr (sr : Word) : Word := sr &&& 0x0040

/-- SR with GIE set (R101). -/
def enableInterrupts (sr : Word) : Word := sr ||| 0x0008

/-! ### Operating modes (R157, R158) -/

/-- The mode that SR selects (R158); a pattern with CPUOff = 0 and another of the four bits set has no name. -/
def modeOf (sr : Word) : Option Mode :=
  match scg1Bit sr, scg0Bit sr, oscOffBit sr, cpuOffBit sr with
  | false, false, false, false => some .active
  | false, false, false, true => some .lpm0
  | false, true, false, true => some .lpm1
  | true, false, false, true => some .lpm2
  | true, true, false, true => some .lpm3
  | _, _, true, true => some .lpm4
  | _, _, _, false => none

/-! ### WDTCTL (R34) -/

def holdBit (v : Byte) : Bool := v.getLsbD 7
def nmiesBit (v : Byte) : Bool := v.getLsbD 6
def nmiBit (v : Byte) : Bool := v.getLsbD 5
def tmselBit (v : Byte) : Bool := v.getLsbD 4

/-- The bits of WDTCTL that are stored: all but CNTCL (R34, R112). -/
def wdtctlStored : Byte := 0xF7

/-! ### Interrupt flags and enables (R29, R30, R39, R125) -/

/-- The byte with bit n set. -/
def bitMask (n : Fin 8) : Byte := BitVec.twoPow 8 n.val

/-- A byte with bit n set or cleared. -/
def putBit (v : Byte) (n : Fin 8) (b : Bool) : Byte := if b then v ||| bitMask n else v &&& ~~~bitMask n

/-- The value of a flag. -/
def FlagBit.get (f : FlagBit) (s : State) : Bool :=
  match f with
  | .ifg1 n => s.ifg1.getLsbD n.val
  | .ifg2 n => s.ifg2.getLsbD n.val
  | .port p n => (s.port p).ifg.getLsbD n.val
  | .module row => s.modules.flags[row]

/-- Set or clear a flag. -/
def FlagBit.put (f : FlagBit) (b : Bool) (s : State) : State :=
  match f with
  | .ifg1 n => s.setIfg1 (putBit s.ifg1 n b)
  | .ifg2 n => s.setIfg2 (putBit s.ifg2 n b)
  | .port p n => s.setPort p { s.port p with ifg := putBit (s.port p).ifg n b }
  | .module row => s.setModules { s.modules with flags := s.modules.flags.set row b }

/-- The value of an enable. -/
def EnableBit.get (e : EnableBit) (s : State) : Bool :=
  match e with
  | .ie1 n => s.ie1.getLsbD n.val
  | .ie2 n => s.ie2.getLsbD n.val
  | .port p n => (s.port p).ie.getLsbD n.val
  | .module row => s.modules.enables[row]

/-- WDTIFG (R29). -/
def wdtifg : FlagBit := .ifg1 0

/-- OFIFG (R29). -/
def ofifg : FlagBit := .ifg1 1

/-- NMIIFG (R29). -/
def nmiifg : FlagBit := .ifg1 4

/-- The flag of pin n of a port: those of P0.0 and P0.1 are IFG1.2 and IFG1.3 (R39, R144). -/
def pinFlag (id : PortId) (n : Fin 8) : FlagBit :=
  if id = .p0 ∧ n = 0 then .ifg1 2
  else if id = .p0 ∧ n = 1 then .ifg1 3
  else .port id n

end Sys2Proof.Machine
end

