-- ==== Sys2Proof/Machine/Interrupts.lean ====
section
/-! DEFINITION. The interrupt sources, when they request service, their priority and vectors, and what service
does to their flags (R113 to R127, R153). Interrupt entry itself is in Ops.lean. -/

namespace Sys2Proof.Machine

/-- The sources of Table 3.1 below the reset, one per vector that a request can select: the NMI vector, and the rows
below it by their priority (R123, R125). -/
inductive Source where
  | nmi
  | row (n : Row)
deriving DecidableEq, Repr

/-- Every source, in decreasing priority. -/
def sources : List Source :=
  [.nmi, .row 13, .row 12, .row 11, .row 10, .row 9, .row 8, .row 7, .row 6, .row 5, .row 4, .row 3, .row 2, .row 1,
   .row 0]

/-- The priority of a source (R123, R125). -/
def priority : Source → Nat
  | .nmi => 14
  | .row n => n.val

/-- The address of a source's vector (R123, R125). -/
def vectorAddress (src : Source) : Word := 0xFFE0 + BitVec.ofNat 16 (2 * priority src)

/-- The name a vector table gives a source (R125). -/
def Source.nameIn (t : Vector VectorRow 14) : Source → SourceName
  | .nmi => .nmi
  | .row n => t[n].name

/-- Only the sources of the NMI vector are not gated by GIE (R115 to R117). -/
def Source.isMaskable (src : Source) : Bool := src != .nmi

/-- A flag is set, and if it is WDTIFG, the watchdog is in timer mode (R153). -/
def flagActive (f : FlagBit) (s : State) : Bool := f.get s && (f != wdtifg || tmselBit s.wdtctl)

/-- A flag is set with all its enables (R115). -/
def GatedFlag.requests (g : GatedFlag) (s : State) : Bool :=
  flagActive g.flag s && g.enables.all fun e => e.get s

/-- Some flag of a source is set whose enables are set (R115 to R117, R125, R153), GIE aside. NMIIFG has no enable. -/
def flagAndEnable (src : Source) (s : State) : Bool :=
  match src with
  | .nmi => nmiifg.get s || (ofifg.get s && s.ie1.getLsbD 1)
  | .row n => s.platform.vectors[n].flags.any fun g => g.requests s

/-- A source requests service (R115 to R117). -/
def requests (src : Source) (s : State) : Bool :=
  flagAndEnable src s && (!src.isMaskable || gieBit s.sr)

/-- The source that an acceptance point serves (R127, R128): the requesting source of highest priority. With
`deferred`, a maskable request waits for the next boundary (D10). -/
def acceptedSource (deferred : Bool) (s : State) : Option Source :=
  sources.find? fun src => requests src s && !(deferred && src.isMaskable)

/-- Each flag of a row stays as it is if `keep`, and is reset otherwise. -/
def serveFlags (keep : Bool) (flags : List GatedFlag) (s : State) : State :=
  flags.foldl (fun s g => g.flag.put (keep && g.flag.get s) s) s

/-- What service does to the flags (R116, R126): NMIIFG and single source flags are reset, OFIFG and multiple source flags
stay. Where the kind is not stated a free bit says which it is (R125; entry 11). -/
def acknowledge (src : Source) (s : State) : State :=
  match src with
  | .nmi => nmiifg.put false s
  | .row n =>
    let row := s.platform.vectors[n]
    match row.kind with
    | .single => serveFlags false row.flags s
    | .multiple => s
    | .unstated => serveFlags (Config.freeBit s.draws) row.flags (s.setDraws (s.draws + 1))

end Sys2Proof.Machine
end

