-- ==== Sys2Proof/Machine/Ops.lean ====
section
/-! DEFINITION. The named operations: sequencing of outcomes, RAM and ROM, the byte registers, the CPU registers,
the memory primitives of rule R68, the reset transition (R177), the stack, interrupt entry (R129) and the return
from an interrupt (R90). -/

namespace Sys2Proof.Machine

/-! ### Sequencing -/

/-- What an operation answers: a value, a fault or a refusal. -/
abbrev Result (α : Type) := Host.Outcome α Fault Refusal

/-- Go on with the value, or stop with the stop. -/
def Result.bind {α β : Type} (x : Result α) (f : α → Result β) : Result β :=
  match x with
  | .next a => f a
  | .fault r => .fault r
  | .refused r => .refused r

/-! ### RAM and ROM as data -/

/-- The byte listed at an address. -/
def Memory.read : Memory → Nat → Option Byte
  | [], _ => none
  | (k, b) :: rest, a => if a = k then some b else Memory.read rest a

/-- List a byte at an address, in place. -/
def Memory.write : Memory → Nat → Byte → Memory
  | [], a, b => [(a, b)]
  | (k, c) :: rest, a, b =>
      if a < k then (a, b) :: (k, c) :: rest
      else if a = k then (a, b) :: rest
      else (k, c) :: Memory.write rest a b

/-- Addresses strictly rise: the canonical form. An unlisted address holds no value, so no entry can equal it. -/
def Memory.wf (m : Memory) : Bool := decide (m.Pairwise fun x y => x.1 < y.1)

/-- Keep the bytes of ROM and forget the others (R177: RAM holds no value after a reset). -/
def Memory.keepRom (p : Platform) (m : Memory) : Memory := m.filter fun c => kindOf p c.1 == .rom

/-! ### Byte registers (R26 to R33, R39, R40) -/

def Port.get (f : PortField) (p : Port) : Byte :=
  match f with
  | .input => p.pins
  | .output => p.out
  | .direction => p.dir
  | .flags => p.ifg
  | .edgeSelect => p.ies
  | .enable => p.ie

/-- The input register holds the pin levels; a write leaves them alone (entry 10). -/
def Port.set (f : PortField) (v : Byte) (p : Port) : Port :=
  match f with
  | .input => p
  | .output => { p with out := v }
  | .direction => { p with dir := v }
  | .flags => { p with ifg := v }
  | .edgeSelect => { p with ies := v }
  | .enable => { p with ie := v }

/-- What a byte register stores. -/
def ByteRegister.get (r : ByteRegister) (s : State) : Byte :=
  match r with
  | .ie1 => s.ie1
  | .ie2 => s.ie2
  | .ifg1 => s.ifg1
  | .ifg2 => s.ifg2
  | .me1 => s.me1
  | .me2 => s.me2
  | .port id f => (s.port id).get f
  | .p1sel => s.p1sel
  | .p2sel => s.p2sel

/-- Store a byte in a byte register. -/
def ByteRegister.set (r : ByteRegister) (v : Byte) (s : State) : State :=
  match r with
  | .ie1 => { s with ie1 := v }
  | .ie2 => { s with ie2 := v }
  | .ifg1 => { s with ifg1 := v }
  | .ifg2 => { s with ifg2 := v }
  | .me1 => { s with me1 := v }
  | .me2 => { s with me2 := v }
  | .port id f => s.setPort id ((s.port id).set f v)
  | .p1sel => { s with p1sel := v }
  | .p2sel => { s with p2sel := v }

/-- Read a byte register: a reserved bit reads as a draw (R26, D24). -/
def readIoRegister (r : ByteRegister) (s : State) : Byte × State :=
  let known := definedBits s.platform.device r
  if known = 0xFF then (r.get s, s)
  else ((r.get s &&& known) ||| (Config.freeByte s.draws &&& ~~~known), s.setDraws (s.draws + 1))

/-- Write a byte register: reserved bits ignore the write (R26); each flag bit takes the written value (R143, D30);
setting OFIE is refused (R117). -/
def writeIoRegister (r : ByteRegister) (v : Byte) (s : State) : Result State :=
  if r = .ie1 ∧ v.getLsbD 1 = true then .refused .ofieNotAdmitted
  else .next (r.set (v &&& definedBits s.platform.device r) s)

/-! ### Reading memory (R68) -/

/-- The byte listed at an address of RAM or ROM; without one, R47. -/
def readCell (a : Nat) (s : State) : Result Byte :=
  match s.mem.read a with
  | some b => .next b
  | none => .fault .unwrittenMemory

/-- `MemRead(addr, 1)`. The state changes only in the count of draws. -/
def readByte (a : Word) (s : State) : Result (Byte × State) :=
  match kindOf s.platform a.toNat with
  | .unmapped => .refused .unmappedAddress
  | .sfr => match sfrRegister? a.toNat with
    | some r => .next (readIoRegister r s)
    | none => .refused .undefinedSfr
  | .peripheral8 => match portRegister? s.platform a.toNat with
    | some r => .next (readIoRegister r s)
    | none => .refused .unmodelledPeripheral
  | .peripheral16 => .refused .unmodelledPeripheral
  | .ram | .rom => (readCell a.toNat s).bind fun b => .next (b, s)

/-- Why the word at `a`, whose first byte is in RAM or ROM, has no meaning: its second byte is somewhere else (R69;
entry 14). -/
def secondByteRefusal? (p : Platform) (a : Nat) : Option Refusal :=
  match kindOf p (a + 1) with
  | .ram | .rom => none
  | .unmapped => some .unmappedAddress
  | .sfr => some .wordAccessToSfr
  | .peripheral8 => some .wordAccessToBytePeripheral
  | .peripheral16 => some .unmodelledPeripheral

/-- `MemRead(addr, 2)`. -/
def readWord (a : Word) (s : State) : Result Word :=
  if a.getLsbD 0 then .fault .misalignedWordAccess
  else match kindOf s.platform a.toNat with
  | .unmapped => .refused .unmappedAddress
  | .sfr => .refused .wordAccessToSfr
  | .peripheral8 => .refused .wordAccessToBytePeripheral
  | .peripheral16 =>
      if a = wdtctlAddress then .next (wordOfBytes s.wdtctl s.platform.wdtReadHigh)
      else .refused .unmodelledPeripheral
  | .ram | .rom =>
      match secondByteRefusal? s.platform a.toNat with
      | some r => .refused r
      | none =>
        (readCell a.toNat s).bind fun lo => (readCell (a.toNat + 1) s).bind fun hi => .next (wordOfBytes lo hi)

/-! ### The reset transition (R177) -/

/-- Which causes raise POR besides PUC (R171). -/
def ResetCause.isPor : ResetCause → Bool
  | .powerUp | .rstPin => true
  | .wdtOverflow | .keyViolation => false

/-- The registers of a port after a reset (R177): after power-up the pins are inputs and no flag is set; everything
else is a draw, of the defined bits. The pins keep their levels. -/
def Port.afterReset (cause : ResetCause) (known : Byte) (n : Nat) (p : Port) : Port where
  pins := p.pins
  out := Config.freeByte n
  dir := if cause = .powerUp then 0 else Config.freeByte (n + 1)
  ifg := if cause = .powerUp then 0 else Config.freeByte (n + 2) &&& known
  ies := Config.freeByte (n + 3)
  ie := Config.freeByte (n + 4) &&& known

/-- IFG1 after a reset (R29, R177): OFIFG set, WDTIFG by the cause, the other flags clear. -/
def resetIfg1 (cause : ResetCause) : Byte := if cause.isPor then 0x02 else 0x03

/-- IFG2 after a reset (R30, R177): ADIFG clear, URXIFG and UTXIFG draws, BTIFG a draw at power-up and unchanged
otherwise. -/
def resetIfg2 (cause : ResetCause) (n : Nat) (old : Byte) : Byte :=
  (Config.freeByte n &&& 0x03) ||| ((if cause = .powerUp then Config.freeByte n else old) &&& 0x80)

/-- The bits inside modules after a reset: draws (R177). -/
def resetModules (n : Nat) : Modules where
  flags := Vector.ofFn fun i => Config.freeBit (n + i.val)
  enables := Vector.ofFn fun i => Config.freeBit (n + 14 + i.val)

/-- Whether the reset condition still holds after the transition, and the cause that the release applies again
(R174, R177; entry 12). -/
def resetHold (cause : ResetCause) (s : State) : Option ResetCause :=
  match s.pin with
  | .high => none
  | .low => if cause = .powerUp ∨ s.hold = some .powerUp then some .powerUp else some .rstPin

/-- Everything the reset transition does but loading PC. SP and R4 to R15 become free values, RAM is forgotten
(entries 4, 8). -/
def resetState (cause : ResetCause) (s : State) : State where
  platform := s.platform
  pc := s.pc
  sp := Config.freeWord s.draws
  sr := 0
  gpr := Vector.ofFn fun i => Config.freeWord (s.draws + 1 + i.val)
  ie1 := 0
  ie2 := 0
  ifg1 := resetIfg1 cause
  ifg2 := resetIfg2 cause s.draws s.ifg2
  me1 := 0
  me2 := Config.freeByte (s.draws + 1) &&& 0x03
  wdtctl := 0
  p0 := s.p0.afterReset cause 0xFC (s.draws + 2)
  p1 := s.p1.afterReset cause 0xFF (s.draws + 7)
  p2 := s.p2.afterReset cause 0xFF (s.draws + 12)
  p1sel := Config.freeByte (s.draws + 17)
  p2sel := Config.freeByte (s.draws + 18)
  modules := resetModules s.draws
  mem := s.mem.keepRom s.platform
  pin := s.pin
  hold := resetHold cause s
  gieFresh := false
  draws := s.draws + 28
  schedule := s.schedule

/-- `ResetTransition(cause)`: PC is loaded from the reset vector last (R11, R177). -/
def resetTransition (cause : ResetCause) (s : State) : Result State :=
  (readWord resetVector (resetState cause s)).bind fun v => .next ((resetState cause s).setPc v)

/-! ### Writing memory (R68, R112) -/

/-- A word written to WDTCTL carries a wrong password (R112). -/
def wrongKey (v : Word) (s : State) : Bool := hiByte v != s.platform.wdtKey

/-- A word written to WDTCTL makes the pin a reset input while it is low (R112, R118). -/
def selectsLowResetPin (v : Word) (s : State) : Bool := !nmiBit (loByte v) && s.pin == .low

/-- A write of WDTCTL that changes NMIES with NMI set before or after (R120). -/
def changesEdgeInNmiMode (old new : Byte) : Bool :=
  nmiesBit new != nmiesBit old && (nmiBit old || nmiBit new)

/-- WDTCTL after a write with the right password; NMIIFG may be set by a change of NMIES in NMI mode (R112, R120). -/
def storeWdtctl (v : Byte) (s : State) : State :=
  if changesEdgeInNmiMode s.wdtctl v then
    { s with
      wdtctl := v &&& wdtctlStored
      ifg1 := s.ifg1 ||| (Config.freeByte s.draws &&& 0x10)
      draws := s.draws + 1 }
  else s.setWdtctl (v &&& wdtctlStored)

/-- `WriteWDTCTL(v)` (R112). -/
def writeWdtctl (v : Word) (s : State) : Result State :=
  if wrongKey v s then resetTransition .keyViolation s
  else if selectsLowResetPin v s then resetTransition .rstPin (storeWdtctl (loByte v) s)
  else .next (storeWdtctl (loByte v) s)

/-- A word write ends in the reset transition, so that the rule that made it is abandoned (R8 `raise`, R112). -/
def writeCausesReset (a v : Word) (s : State) : Bool :=
  a == wdtctlAddress && (wrongKey v s || selectsLowResetPin v s)

/-- `MemWrite(addr, 1, v)`. -/
def writeByte (a : Word) (v : Byte) (s : State) : Result State :=
  match kindOf s.platform a.toNat with
  | .unmapped => .refused .unmappedAddress
  | .rom => .refused .writeToRom
  | .sfr => match sfrRegister? a.toNat with
    | some r => writeIoRegister r v s
    | none => .refused .undefinedSfr
  | .peripheral8 => match portRegister? s.platform a.toNat with
    | some r => writeIoRegister r v s
    | none => .refused .unmodelledPeripheral
  | .peripheral16 =>
      if a = wdtctlAddress ∨ a = wdtctlAddress + 1 then .refused .byteWriteToWdtctl
      else .refused .unmodelledPeripheral
  | .ram => .next (s.setMem (s.mem.write a.toNat v))

/-- `MemWrite(addr, 2, v)`. -/
def writeWord (a : Word) (v : Word) (s : State) : Result State :=
  if a.getLsbD 0 then .fault .misalignedWordAccess
  else match kindOf s.platform a.toNat with
  | .unmapped => .refused .unmappedAddress
  | .rom => .refused .writeToRom
  | .sfr => .refused .wordAccessToSfr
  | .peripheral8 => .refused .wordAccessToBytePeripheral
  | .peripheral16 => if a = wdtctlAddress then writeWdtctl v s else .refused .unmodelledPeripheral
  | .ram =>
      match secondByteRefusal? s.platform a.toNat with
      | some r => .refused r
      | none =>
        if kindOf s.platform (a.toNat + 1) = .rom then .refused .writeToRom
        else .next (s.setMem ((s.mem.write a.toNat (loByte v)).write (a.toNat + 1) (hiByte v)))

/-! ### CPU registers (R10 to R13) -/

/-- Read a register. R3 is no storage register; its reads as an operand are constants (R13, R76). -/
def readReg (r : Reg) (s : State) : Word :=
  if r = 0 then s.pc
  else if r = 1 then s.sp
  else if r = 2 then s.sr
  else if h : 4 ≤ r.val then s.gpr[r.val - 4]'(by omega)
  else 0

/-- Store in a register; a value for R3 is discarded (R13). -/
def setReg (r : Reg) (v : Word) (s : State) : State :=
  if r = 0 then s.setPc v
  else if r = 1 then s.setSp v
  else if r = 2 then s.setSr v
  else if h : 4 ≤ r.val then s.setGpr (s.gpr.set (r.val - 4) v (by omega))
  else s

/-- Write a register as an instruction's destination: a value for SR may not have a reserved bit (R25, R102). -/
def writeReg (r : Reg) (v : Word) (s : State) : Result State :=
  if r = 2 ∧ hasReservedSrBit v = true then .refused .reservedSrBit
  else .next (setReg r v s)

/-- PC moves past one word of the instruction (R15). -/
def State.advance (s : State) : State := s.setPc (s.pc + 2)

/-! ### The stack (R131, D19) -/

/-- Push a word, and go on unless the write ended in a reset. -/
def pushThen (v : Word) (s : State) (k : State → Result State) : Result State :=
  let s1 := s.setSp (s.sp - 2)
  if writeCausesReset s1.sp v s1 then writeWord s1.sp v s1 else (writeWord s1.sp v s1).bind k

/-- Push a word (R99). -/
def pushWord (v : Word) (s : State) : Result State := pushThen v s .next

/-- Pop a word: read at SP, then add 2 (R90, R100). -/
def popWord (s : State) : Result (Word × State) :=
  (readWord s.sp s).bind fun v => .next (v, s.setSp (s.sp + 2))

/-! ### Interrupt entry and return -/

/-- The end of the interrupt sequence, after the two pushes: the flag, SR, and PC from the vector (R124, R126,
R129, R130). -/
def enterHandler (src : Source) (s : State) : Result State :=
  let s1 := ((acknowledge src s).setSr (entrySr s.sr)).setGieFresh false
  (readWord (vectorAddress src) s1).bind fun v => .next (s1.setPc v)

/-- The interrupt sequence (R129): push PC, push SR, then `enterHandler`. A push that ends in a reset abandons it. -/
def interruptSequence (src : Source) (s : State) : Result State :=
  pushThen s.pc s fun s1 => pushThen s1.sr s1 fun s2 => enterHandler src s2

/-- Return from an interrupt (R90): SR is popped, then PC. -/
def returnFromInterrupt (s : State) : Result State :=
  (popWord s).bind fun (sr, s1) =>
    (writeReg 2 sr s1).bind fun s2 =>
      (popWord s2).bind fun (pc, s3) => .next (s3.setPc pc)

end Sys2Proof.Machine
end

