-- ==== Sys2Proof/Machine/Operands.lean ====
section
/-! DEFINITION. Resolving operands (R73 to R77): every source form and every destination form. The state that an
operand is resolved in has PC after the words fetched so far; each extension word advances it. -/

namespace Sys2Proof.Machine

/-- Bytes moved by an operation (R58). -/
def widthBytes : Width → Word
  | .word => 2
  | .byte => 1

/-- A value at the width of the operation, extended with zeros (R73). -/
def narrow (w : Width) (v : Word) : Word :=
  match w with
  | .word => v
  | .byte => v &&& 0x00FF

/-- The constants of the constant generator (R76). -/
def constValue (w : Width) (c : Const) : Word :=
  match c with
  | .zero => 0
  | .one => 1
  | .two => 2
  | .four => 4
  | .eight => 8
  | .minusOne => narrow w 0xFFFF

/-- `rd(a)` of rule R74: memory at the width of the operation, zero-extended. -/
def readMem (w : Width) (a : Word) (s : State) : Result (Word × State) :=
  match w with
  | .word => (readWord a s).bind fun v => .next (v, s)
  | .byte => (readByte a s).bind fun (b, s1) => .next (b.setWidth 16, s1)

/-- Write memory at the width of the operation. -/
def writeMem (w : Width) (a v : Word) (s : State) : Result State :=
  match w with
  | .word => writeWord a v s
  | .byte => writeByte a (loByte v) s

/-- What autoincrement adds: the width, and always 2 for SP (R74). -/
def incrementOf (w : Width) (r : Reg) : Word := if r = 1 then 2 else widthBytes w

/-- The value of a source operand (R74, R76), and the state after it: PC past its extension word, the
autoincrement done. -/
def resolveSource (w : Width) (src : Src) (s : State) : Result (Word × State) :=
  match src with
  | .reg r => .next (narrow w (readReg r s), s)
  | .indexed r x => readMem w (readReg r s + x) s.advance
  | .symbolic x => readMem w (s.pc + x) s.advance
  | .absolute a => readMem w a s.advance
  | .indirect r => readMem w (readReg r s) s
  | .indirectInc r =>
      (readMem w (readReg r s) s).bind fun (v, s1) =>
        .next (v, setReg r (readReg r s1 + incrementOf w r) s1)
  | .imm n => .next (narrow w n, s.advance)
  | .const c => .next (constValue w c, s)

/-- Where a destination is: a register or a place in memory. -/
inductive Loc where
  | reg (r : Reg)
  | mem (a : Word)
deriving DecidableEq, Repr

/-- The place a destination operand names (R75), and the state after its extension word. It is formed in the state
after the source operand is resolved (R77). -/
def resolveDest (dst : Dst) (s : State) : Loc × State :=
  match dst with
  | .reg r => (.reg r, s)
  | .indexed r x => (.mem (readReg r s + x), s.advance)
  | .symbolic x => (.mem (s.pc + x), s.advance)
  | .absolute a => (.mem a, s.advance)

/-- The old value of a destination. -/
def readLoc (w : Width) (l : Loc) (s : State) : Result (Word × State) :=
  match l with
  | .reg r => .next (narrow w (readReg r s), s)
  | .mem a => readMem w a s

/-- Write a destination; a byte written to a register clears its bits 15:8 (R73). -/
def writeLoc (w : Width) (l : Loc) (v : Word) (s : State) : Result State :=
  match l with
  | .reg r => writeReg r (narrow w v) s
  | .mem a => writeMem w a v s

end Sys2Proof.Machine
end

