-- ==== Sys2Proof/Machine/DoubleOperand.lean ====
section
/-! DEFINITION. MOV, BIC, BIS and the two emulated instructions made of them, POP and EINT (R95 to R98, R100, R101).
A meaning starts in the state whose PC is the address of the instruction word. -/

namespace Sys2Proof.Machine

/-- Store a value: the destination is resolved and not read (R96). -/
def storeTo (w : Width) (dst : Dst) (v : Word) (s : State) : Result State :=
  writeLoc w (resolveDest dst s).1 v (resolveDest dst s).2

/-- Read a destination, combine it with the source value, and write it back (R97, R98). -/
def modify (w : Width) (dst : Dst) (f : Word → Word) (s : State) : Result State :=
  (readLoc w (resolveDest dst s).1 (resolveDest dst s).2).bind fun (d, s1) =>
    writeLoc w (resolveDest dst s).1 (f d) s1

/-- MOV, MOV.B: copy (R96). -/
def execMov (w : Width) (src : Src) (dst : Dst) (s : State) : Result State :=
  if formatIAdmitted w src dst then
    (resolveSource w src s.advance).bind fun (v, s1) => storeTo w dst v s1
  else .refused .operandFormNotAdmitted

/-- BIC, BIC.B: clear in the destination the bits set in the source (R97). -/
def execBic (w : Width) (src : Src) (dst : Dst) (s : State) : Result State :=
  if formatIAdmitted w src dst then
    (resolveSource w src s.advance).bind fun (v, s1) => modify w dst (fun d => d &&& ~~~v) s1
  else .refused .operandFormNotAdmitted

/-- BIS, BIS.B: set in the destination the bits set in the source (R98). -/
def execBis (w : Width) (src : Src) (dst : Dst) (s : State) : Result State :=
  if formatIAdmitted w src dst then
    (resolveSource w src s.advance).bind fun (v, s1) => modify w dst (fun d => d ||| v) s1
  else .refused .operandFormNotAdmitted

/-- POP: pop a word into a register (R100). -/
def execPop (d : Reg) (s : State) : Result State :=
  if d = 1 then .refused .operandFormNotAdmitted
  else (popWord s.advance).bind fun (v, s1) => writeReg d v s1

/-- EINT: set GIE (R101). -/
def execEint (s : State) : Result State := writeReg 2 (enableInterrupts s.sr) s.advance

end Sys2Proof.Machine
end

