-- ==== Sys2Proof/Machine/SingleOperand.lean ====
section
/-! DEFINITION. The Format II instructions: PUSH (R99) and RETI (R90). -/

namespace Sys2Proof.Machine

/-- PUSH: the operand is resolved first, then pushed (R99). -/
def execPush (src : Src) (s : State) : Result State :=
  if pushAdmitted src then (resolveSource .word src s.advance).bind fun (v, s1) => pushWord v s1
  else .refused .operandFormNotAdmitted

/-- RETI: return from an interrupt (R90). -/
def execReti (s : State) : Result State := returnFromInterrupt s

end Sys2Proof.Machine
end

