-- ==== Sys2Proof/Machine/Dispatch.lean ====
section
/-! DEFINITION. The meaning of every instruction, one arm each. -/

namespace Sys2Proof.Machine

def exec (i : Instr) (s : State) : Host.Outcome State Fault Refusal :=
  match i with
  | .mov w src dst => Sys2Proof.Machine.execMov w src dst s
  | .bic w src dst => Sys2Proof.Machine.execBic w src dst s
  | .bis w src dst => Sys2Proof.Machine.execBis w src dst s
  | .push src => Sys2Proof.Machine.execPush src s
  | .reti => Sys2Proof.Machine.execReti s
  | .pop d => Sys2Proof.Machine.execPop d s
  | .eint => Sys2Proof.Machine.execEint s

end Sys2Proof.Machine
end

