-- ==== Sys2Proof/Machine/Environment.lean ====
section
/-! DEFINITION. What the environment does between CPU steps (R114, R119, R122, R144, R152, R161, R174, R175; D11). -/

namespace Sys2Proof.Machine

/-! ### Who can set a flag (R161) -/

/-- The flag that a module sets (R29, R30, R125). -/
def ModuleFlag.flag : ModuleFlag → FlagBit
  | .timerCounter => .ifg1 3
  | .usartReceive => .ifg2 0
  | .usartTransmit => .ifg2 1
  | .adc => .ifg2 2
  | .basicTimer => .ifg2 7

/-- The flag that a source sets. -/
def FlagSource.flag : FlagSource → FlagBit
  | .nmiPin => nmiifg
  | .oscillator => ofifg
  | .watchdog => wdtifg
  | .pin p n => pinFlag p n
  | .moduleFlag f => f.flag
  | .row n => .module n

/-- `WAKE_FILTER` keeps a source from setting its flag in the present low power mode (R161, D21). In active mode, and in a
state that no mode names, it keeps none. -/
def sourceBlocked (src : FlagSource) (s : State) : Bool :=
  match modeOf s.sr with
  | none | some .active => false
  | some m => s.platform.wakeFilter.any fun x => x == (m, src)

/-- A source sets its flag, unless `WAKE_FILTER` blocks it. -/
def raiseFlag (src : FlagSource) (s : State) : State := if sourceBlocked src s then s else src.flag.put true s

/-! ### When the watchdog may overflow (R152, R173) -/

/-- The value of a bit of the state. -/
def StateBit.get (b : StateBit) (s : State) : Bool :=
  match b with
  | .cpu r n => (readReg r s).getLsbD n.val
  | .io r n => (r.get s).getLsbD n.val
  | .wdtctl n => s.wdtctl.getLsbD n.val
  | .moduleFlag row => s.modules.flags[row]
  | .moduleEnable row => s.modules.enables[row]
  | .written a => (s.mem.read a).isSome
  | .mem a n => match s.mem.read a with
    | some v => v.getLsbD n.val
    | none => false
  | .pinHigh => s.pin == .high
  | .inReset => s.hold.isSome
  | .heldFor cause => s.hold == some cause
  | .gieFresh => s.gieFresh

/-- The predicate holds in the state. -/
def StatePredicate.holds (p : StatePredicate) (s : State) : Bool :=
  match p with
  | .const b => b
  | .bit b => b.get s
  | .not p => !p.holds s
  | .and p q => p.holds s && q.holds s
  | .or p q => p.holds s || q.holds s

/-- The watchdog may overflow now: `WDT_MAY_EXPIRE`. -/
def watchdogMayExpire (s : State) : Bool := s.platform.wdtMayExpire.holds s

/-! ### The events -/

/-- The edge that a select bit names: 0 a rising edge, 1 a falling edge (R37, R39). -/
def selectedEdge (select : Bool) (old new : Level) : Bool :=
  match select, old, new with
  | false, .low, .high => true
  | true, .high, .low => true
  | _, _, _ => false

/-- `PinChange(new_level)` of rule R119, with the release of rule R174. -/
def pinChange (level : Level) (s : State) : Result State :=
  let s1 := { s with pin := level }
  if nmiBit s.wdtctl then
    .next (if selectedEdge (nmiesBit s.wdtctl) s.pin level then raiseFlag .nmiPin s1 else s1)
  else match level with
  | .low => resetTransition .rstPin s1
  | .high => match s.hold with
    | some cause => resetTransition cause s1
    | none => .next s1

/-- The level of pin n of a port. -/
def pinLevel (id : PortId) (n : Fin 8) (s : State) : Level :=
  if (s.port id).pins.getLsbD n.val then .high else .low

/-- Pin n of a port takes a level. -/
def setPinLevel (id : PortId) (n : Fin 8) (level : Level) (s : State) : State :=
  let p := s.port id
  s.setPort id { p with pins := match level with
    | .high => p.pins ||| bitMask n
    | .low => p.pins &&& ~~~bitMask n }

/-- `PortPinChange(x, n, new_level)` of rule R144. -/
def portPinChange (id : PortId) (n : Fin 8) (level : Level) (s : State) : State :=
  let s1 := setPinLevel id n level s
  if selectedEdge ((s.port id).ies.getLsbD n.val) (pinLevel id n s) level then raiseFlag (.pin id n) s1 else s1

/-- `WatchdogOverflow` of rule R152: in timer mode a flag, in watchdog mode a reset with the flag set. -/
def watchdogOverflow (s : State) : Result State :=
  if watchdogMayExpire s then
    if tmselBit s.wdtctl then .next (raiseFlag .watchdog s) else resetTransition .wdtOverflow (wdtifg.put true s)
  else .next s

/-- The modules take new internal bits (R125): a flag whose source `WAKE_FILTER` blocks cannot go from 0 to 1. -/
def takeModules (m : Modules) (s : State) : State :=
  s.setModules
    { m with flags := Vector.ofFn fun i => m.flags[i] && (s.modules.flags[i] || !sourceBlocked (.row i) s) }

/-- One event of the environment. -/
def envStep (e : EnvEvent) (s : State) : Result State :=
  match e with
  | .powerUp => resetTransition .powerUp s
  | .rstNmiPin level => pinChange level s
  | .portPin id n level => .next (portPinChange id n level s)
  | .portFlag id n => .next (raiseFlag (.pin id n) s)
  | .oscillatorFault => .next (raiseFlag .oscillator s)
  | .watchdogOverflow => watchdogOverflow s
  | .moduleFlag f => .next (raiseFlag (.moduleFlag f) s)
  | .modules m => .next (takeModules m s)

end Sys2Proof.Machine
end

