-- ==== Sys2Proof/Machine/Cycle.lean ====
section
/-! DEFINITION. One move of the CPU: the acceptance check, the interrupt sequence, or the fetch and the execution of
one instruction (R77, R128, R129, R159, R174). -/

namespace Sys2Proof.Machine

/-! ### Fetch (R16, R65, R70, R77, R84) -/

/-- The next `n` words from an address on. -/
def fetchWords (a : Word) (s : State) : Nat → Result (List Word)
  | 0 => .next []
  | n + 1 => (readWord a s).bind fun w => (fetchWords (a + 2) s n).bind fun ws => .next (w :: ws)

/-- The refusal that a decoding error is. A fetched word list is never too short for its instruction word. -/
def decodeRefusal : DecodeError → Refusal
  | .truncated | .instructionNotInScope => .instructionNotInScope
  | .operandFormNotAdmitted => .operandFormNotAdmitted

/-- The instruction that a list of words is. -/
def decodeFetched (ws : List Word) : Result Instr :=
  match decode ws with
  | .ok (i, _) => .next i
  | .error e => .refused (decodeRefusal e)

/-- The source operand of a double-operand instruction resolves. The state is not kept: `exec` resolves it again in the
same state. -/
def sourceResolves (i : Instr) (s : State) : Result Unit :=
  match i with
  | .mov w src _ | .bic w src _ | .bis w src _ => (resolveSource w src s.advance).bind fun _ => .next ()
  | .push _ | .reti | .pop _ | .eint => .next ()

/-- The instruction at PC. The instruction word alone decides what rules R80 and R105 refuse; the source operand is
complete before the destination's extension word is fetched (R77). A zero stands for an extension word not yet fetched:
its value decides nothing before it is there. -/
def fetchInstr (s : State) : Result Instr :=
  if s.pc.getLsbD 0 then .fault .misalignedFetch
  else (readWord s.pc s).bind fun w =>
    (decodeFetched [w, 0, 0]).bind fun _ =>
    (fetchWords (s.pc + 2) s (sourceExtensionWords w)).bind fun xs =>
    (decodeFetched (w :: xs ++ [0])).bind fun i =>
    (sourceResolves i s).bind fun _ =>
    (fetchWords (s.pc + 2 + 2 * BitVec.ofNat 16 xs.length) s (destExtensionWords w)).bind fun ys =>
    decodeFetched (w :: xs ++ ys)

/-! ### The boundary after an instruction (R128) -/

/-- Remember whether the instruction changed GIE from 0 to 1. -/
def markGie (before after : State) : State :=
  after.setGieFresh (!gieBit before.sr && gieBit after.sr)

/-- Run one instruction. -/
def executeNext (s : State) : Result State :=
  (fetchInstr s).bind fun i => Result.bind (exec i s) fun t => .next (markGie s t)

/-! ### Acceptance (R128, D10) -/

/-- A maskable request is left for the next boundary: only right after GIE was set, and then by a free choice. -/
def defersMaskable (s : State) : Bool := s.gieFresh && Config.freeBit s.draws

/-- The boundary is past: the latitude of D10 is used up. -/
def passBoundary (s : State) : State :=
  if s.gieFresh then (s.setDraws (s.draws + 1)).setGieFresh false else s

/-- One move of the CPU. Held in reset it has no step, and stopped without a request it has none (R159, R174): the state
stays as it is. -/
def cpuStep (s : State) : Result State :=
  match s.hold with
  | some _ => .next s
  | none =>
      match acceptedSource (defersMaskable s) s with
      | some src => interruptSequence src (passBoundary s)
      | none => if cpuOffBit s.sr then .next (passBoundary s) else executeNext (passBoundary s)

/-- One step of the machine: the next turn of the schedule, the CPU's when nothing is listed. -/
def nextTurn (s : State) : Result State :=
  match s.schedule with
  | [] => cpuStep s
  | .cpu :: rest => cpuStep (s.setSchedule rest)
  | .env e :: rest => envStep e (s.setSchedule rest)

end Sys2Proof.Machine
end

