-- ==== Sys2Proof/Machine/Step.lean ====
section
/-! DEFINITION. The step, and how the host places one instruction where it fetches. -/

namespace Sys2Proof.Machine

/-- One step of the machine. -/
def step (s : State) : Host.Outcome State Fault Refusal := nextTurn s

/-- List bytes in memory from an address on; addresses wrap (R50). -/
def placeBytes (a : Word) : List Byte → Memory → Memory
  | [], m => m
  | b :: bs, m => placeBytes (a + 1) bs (m.write a.toNat b)

/-- The state with the instruction whose bits are `w` at PC, its bits from `nbits` up being 0. Placing a byte is the
load of the program image, not a write of the machine: ROM takes it. -/
def State.withFetchWord (s : State) (nbits w : Nat) : State :=
  s.setMem (placeBytes s.pc (tableBytes nbits w) s.mem)

end Sys2Proof.Machine
end

