-- ==== Sys2Proof/Safety.lean ====
section
/-! DEFINITION. The terms that statements about the machine use: when an access completes, what a byte address
holds, when the CPU runs its next instruction, and the invariant of every step. -/

namespace Sys2Proof.Machine

/-! ### What a byte address holds -/

/-- What is stored at a byte address, free values aside: the byte of RAM or ROM, the stored byte of a register
(R26, R34, R39, R40); none where the spec gives the address no content. -/
def storedByte (a : Nat) (s : State) : Option Byte :=
  match kindOf s.platform a with
  | .sfr => (sfrRegister? a).map (·.get s)
  | .peripheral8 => (portRegister? s.platform a).map (·.get s)
  | .peripheral16 =>
      if a = 0x120 then some s.wdtctl else if a = 0x121 then some s.platform.wdtReadHigh else none
  | .ram | .rom => s.mem.read a
  | .unmapped => none

/-! ### When an access completes (R47, R57, R59, R60, R68, R69) -/

/-- A byte read at `a` completes. -/
def byteReadable (a : Word) (s : State) : Bool :=
  match kindOf s.platform a.toNat with
  | .sfr => (sfrRegister? a.toNat).isSome
  | .peripheral8 => (portRegister? s.platform a.toNat).isSome
  | .ram | .rom => (s.mem.read a.toNat).isSome
  | .peripheral16 | .unmapped => false

/-- A word read at `a` completes. -/
def wordReadable (a : Word) (s : State) : Bool :=
  !a.getLsbD 0 && match kindOf s.platform a.toNat with
  | .ram | .rom => (secondByteRefusal? s.platform a.toNat).isNone && (s.mem.read a.toNat).isSome &&
      (s.mem.read (a.toNat + 1)).isSome
  | .peripheral16 => a == wdtctlAddress
  | .sfr | .peripheral8 | .unmapped => false

/-- A read at the width of an operation completes. -/
def memReadable (w : Width) (a : Word) (s : State) : Bool :=
  match w with
  | .word => wordReadable a s
  | .byte => byteReadable a s

/-- A write of byte `v` at `a` completes. -/
def byteWritable (a : Word) (v : Byte) (s : State) : Bool :=
  match kindOf s.platform a.toNat with
  | .ram => true
  | .sfr => match sfrRegister? a.toNat with
    | some r => !(r == .ie1 && v.getLsbD 1)
    | none => false
  | .peripheral8 => (portRegister? s.platform a.toNat).isSome
  | .rom | .peripheral16 | .unmapped => false

/-- A write of word `v` at `a` completes: in RAM, or in WDTCTL, where a write that resets needs a reset vector. -/
def wordWritable (a v : Word) (s : State) : Bool :=
  !a.getLsbD 0 && match kindOf s.platform a.toNat with
  | .ram => wordInRam s.platform a.toNat
  | .peripheral16 => a == wdtctlAddress && (!writeCausesReset a v s || wordReadable resetVector s)
  | .sfr | .peripheral8 | .rom | .unmapped => false

/-- A write at the width of an operation completes. -/
def memWritable (w : Width) (a v : Word) (s : State) : Bool :=
  match w with
  | .word => wordWritable a v s
  | .byte => byteWritable a (loByte v) s

/-- The address a source operand reads, if it reads memory, in the state the operand is resolved in (R74). -/
def sourceAddress? (src : Src) (s : State) : Option Word :=
  match src with
  | .indexed r x => some (readReg r s + x)
  | .symbolic x => some (s.pc + x)
  | .absolute a => some a
  | .indirect r | .indirectInc r => some (readReg r s)
  | .reg _ | .imm _ | .const _ => none

/-- A source operand can be read. -/
def sourceReadable (w : Width) (src : Src) (s : State) : Bool :=
  match sourceAddress? src s with
  | some a => memReadable w a s
  | none => true

/-- A destination can be read. -/
def locReadable (w : Width) (l : Loc) (s : State) : Bool :=
  match l with
  | .reg _ => true
  | .mem a => memReadable w a s

/-- A destination takes the value `v`: SR takes no reserved bit (R102), memory as above. -/
def locWritable (w : Width) (l : Loc) (v : Word) (s : State) : Bool :=
  match l with
  | .reg r => !(r == 2 && hasReservedSrBit (narrow w v))
  | .mem a => memWritable w a v s

/-- The vector table is the default of the device (R125). -/
def usesDefaultVectors (s : State) : Prop := s.platform.vectors = defaultVectors s.platform.device

/-- The flags that service of a source may reset: NMIIFG for the NMI vector (R116), the flags of the row otherwise (R126). -/
def Source.flagsIn (t : Vector VectorRow 14) : Source → List FlagBit
  | .nmi => [nmiifg]
  | .row n => t[n].flags.map (·.flag)

/-- The bytes a store of width `w` at `a` covers. -/
def covers (w : Width) (a : Word) (b : Nat) : Bool :=
  match w with
  | .word => b == a.toNat || b == a.toNat + 1
  | .byte => b == a.toNat

/-- The byte register at an address (R26, R39, R40). -/
def registerAt (a : Word) (s : State) : Option ByteRegister :=
  match kindOf s.platform a.toNat with
  | .sfr => sfrRegister? a.toNat
  | .peripheral8 => portRegister? s.platform a.toNat
  | .peripheral16 | .ram | .rom | .unmapped => none

/-- An input register: what is written to it is not stored (R39). -/
def ByteRegister.isInput : ByteRegister → Bool
  | .port _ .input => true
  | .ie1 | .ie2 | .ifg1 | .ifg2 | .me1 | .me2 | .p1sel | .p2sel => false
  | .port _ .output | .port _ .direction | .port _ .flags | .port _ .edgeSelect | .port _ .enable => false

/-- A register of interrupt flags (R29, R30, R39, R40). -/
def ByteRegister.isFlags : ByteRegister → Bool
  | .ifg1 | .ifg2 | .port _ .flags => true
  | .ie1 | .ie2 | .me1 | .me2 | .p1sel | .p2sel => false
  | .port _ .input | .port _ .output | .port _ .direction | .port _ .edgeSelect | .port _ .enable => false

/-- What has become of a store of `v` with width `w` to the place `l`, made in the state `s` and ending in `t`: a register
holds it (R3 discards it), RAM reads it back, a byte register stores its defined bits, WDTCTL stores it or the machine is
reset (R68, R75, R112). -/
def placed (w : Width) (l : Loc) (v : Word) (s t : State) : Prop :=
  match l with
  | .reg r => r ≠ 3 → readReg r t = narrow w v
  | .mem a =>
      match kindOf s.platform a.toNat with
      | .ram => readMem w a t = .next (narrow w v, t)
      | .sfr | .peripheral8 =>
          ∃ r, registerAt a s = some r ∧
            (r.isInput = false → r.get t = loByte v &&& definedBits s.platform.device r)
      | .peripheral16 =>
          if writeCausesReset a v s then
            t.wdtctl = 0 ∧ t.sr = 0 ∧ readWord resetVector s = .next t.pc
          else t.wdtctl = loByte v &&& wdtctlStored
      | .rom | .unmapped => False

/-- The state outside the CPU registers and the address space is the same, the count of draws aside. -/
def sameHidden (s t : State) : Prop :=
  t.platform = s.platform ∧ t.modules = s.modules ∧ t.pin = s.pin ∧ t.hold = s.hold ∧
    t.gieFresh = s.gieFresh ∧ t.schedule = s.schedule

/-! ### Whose move it is -/

/-- The next turn is the CPU's, and it leaves the schedule `rest`. -/
def cpuMoves (s : State) (rest : List Turn) : Prop :=
  (s.schedule = [] ∧ rest = []) ∨ s.schedule = .cpu :: rest

/-- The CPU runs its next instruction: not held in reset, no request served, not stopped (R128, R159). Right after GIE was
set a maskable request may be waiting (D10). -/
def runsNext (s : State) : Bool :=
  s.hold.isNone && (acceptedSource (defersMaskable s) s).isNone && !cpuOffBit s.sr

/-- The boundary is past and the turn is taken: the schedule is `rest`, and the latitude of D10 is used up. -/
def atBoundary (rest : List Turn) (s : State) : State := passBoundary (s.setSchedule rest)

/-- The words stored from an even address on are `ws`. -/
def wordsAt (a : Word) (ws : List Word) (s : State) : Prop :=
  match ws with
  | [] => True
  | w :: rest => readWord a s = .next w ∧ wordsAt (a + 2) rest s

/-! ### The invariant -/

/-- What every step keeps. -/
structure State.Inv (s : State) : Prop where
  /-- Memory is in its canonical form. -/
  memWf : s.mem.wf = true
  /-- Memory lists only addresses that are RAM or ROM (R55). -/
  memBacked : ∀ c ∈ s.mem, kindOf s.platform c.1 = .ram ∨ kindOf s.platform c.1 = .rom
  /-- Bits 15:9 of SR are 0 (R25). -/
  srReserved : hasReservedSrBit s.sr = false
  /-- OFIE is 0 (R117). -/
  ofieClear : s.ie1.getLsbD 1 = false
  /-- The reserved bits of every byte register are stored as 0. -/
  reservedClear : ∀ r : ByteRegister, r.get s &&& ~~~definedBits s.platform.device r = 0
  /-- CNTCL is not stored (R34). -/
  cntclClear : s.wdtctl.getLsbD 3 = false
  /-- The CPU is held in reset exactly while the pin is a reset input and low (R174). -/
  heldIffPinLow : s.hold.isSome = (s.pin == .low && !nmiBit s.wdtctl)
  /-- The release of a hold is a POR (R174). -/
  holdIsPor : ∀ cause, s.hold = some cause → cause.isPor = true
  /-- The latitude of D10 exists only while GIE is set. -/
  freshMeansGie : s.gieFresh = true → gieBit s.sr = true

end Sys2Proof.Machine
end

