-- ==== Sys2Proof/Certificates/Slice0/Obligations.lean ====
section
/-! DEFINITION. The statements about the machine, each with the rules of spec/ it rests on. -/

open Sys2Proof Sys2Proof.Machine

/-! ## Encoding -/

/-- Words of 95_test_vectors.md 2.1, written out there from the formats of rules R71 and R72, decode as it says. -/
def Obligations.SpecWordsDecode : Prop :=
  decode [0x1300] = .ok (.reti, []) ∧
  decode [0x1205] = .ok (.push (.reg 5), []) ∧
  decode [0x4135] = .ok (.pop 5, []) ∧
  decode [0xD232] = .ok (.eint, []) ∧
  decode [0xD032, 0x0018] = .ok (.bis .word (.imm 0x18) (.reg 2), []) ∧
  decode [0xC5C2, 0x0013] = .ok (.bic .byte (.reg 5) (.absolute 0x13), []) ∧
  decode [0x4255, 0x0013] = .ok (.mov .byte (.absolute 0x13) (.reg 5), [])

/-- Decoding the words of a well-formed instruction, with any words after them, gives the instruction back and leaves
those words (R71 to R79, R84). -/
def Obligations.DecodeOfEncodeGivesTheInstruction : Prop :=
  ∀ (i : Instr) (rest : List Word), i.wellFormed = true → decode (encode i ++ rest) = .ok (i, rest)

/-- Every decoded instruction is well formed, and encoding it gives back exactly the words that were read: each word has
one meaning (R70 to R79). -/
def Obligations.EncodeOfDecodeGivesTheWords : Prop :=
  ∀ (ws rest : List Word) (i : Instr), decode ws = .ok (i, rest) → i.wellFormed = true ∧ encode i ++ rest = ws

/-- A word at PC that no row of rule R78 matches stops the machine by name, and PUSH.B by the name of rule R105 (R80). -/
def Obligations.WordsOutOfScopeAreRefused : Prop :=
  ∀ (s : State) (rest : List Turn) (w : Word),
    cpuMoves s rest → runsNext s = true → s.pc.getLsbD 0 = false → readWord s.pc s = .next w →
    (w.toNat / 0x1000 ≠ 0x4 → w.toNat / 0x1000 ≠ 0xC → w.toNat / 0x1000 ≠ 0xD →
      w.toNat / 0x40 ≠ 0x48 → w.toNat / 0x40 ≠ 0x49 → w ≠ 0x1300 →
        step s = .refused .instructionNotInScope) ∧
    (w.toNat / 0x40 = 0x49 → step s = .refused .operandFormNotAdmitted)

/-- The six operand combinations of rule R105 are refused, in every state: the first and the sixth have no term of
`Instr` and are refused by the decoder, the others by `exec`. -/
def Obligations.OperandFormsNotAdmittedAreRefused : Prop :=
  (∀ (w : Word) (ws : List Word), w.toNat / 0x40 = 0x49 → decode (w :: ws) = .error .operandFormNotAdmitted) ∧
  (∀ (src : Src) (s : State), src.register? = some 1 → exec (.push src) s = .refused .operandFormNotAdmitted) ∧
  (∀ (w : Width) (r : Reg) (dst : Dst) (s : State), dst.register? = some r →
    exec (.mov w (.indirectInc r) dst) s = .refused .operandFormNotAdmitted ∧
    exec (.bic w (.indirectInc r) dst) s = .refused .operandFormNotAdmitted ∧
    exec (.bis w (.indirectInc r) dst) s = .refused .operandFormNotAdmitted) ∧
  (∀ s : State, exec (.pop 1) s = .refused .operandFormNotAdmitted) ∧
  (∀ (w : Width) (dst : Dst) (s : State),
    exec (.mov w (.indirect 0) dst) s = .refused .operandFormNotAdmitted ∧
    exec (.bic w (.indirect 0) dst) s = .refused .operandFormNotAdmitted ∧
    exec (.bis w (.indirect 0) dst) s = .refused .operandFormNotAdmitted ∧
    exec (.push (.indirect 0)) s = .refused .operandFormNotAdmitted) ∧
  (∀ (src : Src) (s : State),
    exec (.mov .byte src (.reg 0)) s = .refused .operandFormNotAdmitted ∧
    exec (.bic .byte src (.reg 0)) s = .refused .operandFormNotAdmitted ∧
    exec (.bis .byte src (.reg 0)) s = .refused .operandFormNotAdmitted) ∧
  (∀ (w x : Word) (ws : List Word),
    (w.toNat / 0x1000 = 0x4 ∨ w.toNat / 0x1000 = 0xC ∨ w.toNat / 0x1000 = 0xD) →
    w.getLsbD 7 = true → w.toNat % 0x10 = 3 → decode (w :: x :: ws) = .error .operandFormNotAdmitted)

/-! ## The step -/

/-- When the words at PC decode to an instruction and the CPU runs its next instruction, the step is `exec` of it; around
it the step only remembers whether GIE went from 0 to 1 (R15, R128), and right after a change of GIE the boundary is past
(D10, entry 18). `exec` itself moves PC past the words. -/
def Obligations.StepRunsTheDecodedInstruction : Prop :=
  ∀ (s : State) (rest : List Turn) (ws : List Word) (i : Instr),
    cpuMoves s rest → runsNext s = true → s.pc.getLsbD 0 = false → wordsAt s.pc ws s → decode ws = .ok (i, []) →
    step s = Result.bind (exec i (atBoundary rest s)) fun t =>
      .next (t.setGieFresh (!gieBit s.sr && gieBit t.sr))

/-- A double-operand instruction with a destination in memory: a source operand that stops gives its stop whatever stands
where the destination's extension word would be fetched, and only a source that resolves lets that fetch stop (R77). -/
def Obligations.SourceIsCompleteBeforeTheDestination : Prop :=
  ∀ (s : State) (rest : List Turn) (wd : Width) (src : Src) (dst : Dst) (i : Instr) (w x : Word) (xs : List Word),
    cpuMoves s rest → runsNext s = true → s.pc.getLsbD 0 = false → wordsAt s.pc (w :: xs) s →
    i = .mov wd src dst ∨ i = .bic wd src dst ∨ i = .bis wd src dst →
    dst.fields.2.2 = [x] → decode (w :: xs ++ [x]) = .ok (i, []) →
    (∀ r, resolveSource wd src (atBoundary rest s).advance = .fault r → step s = .fault r) ∧
    (∀ r, resolveSource wd src (atBoundary rest s).advance = .refused r → step s = .refused r) ∧
    (∀ v, resolveSource wd src (atBoundary rest s).advance = .next v →
      (∀ r, readWord (s.pc + 2 + 2 * BitVec.ofNat 16 xs.length) s = .fault r → step s = .fault r) ∧
      (∀ r, readWord (s.pc + 2 + 2 * BitVec.ofNat 16 xs.length) s = .refused r → step s = .refused r))

/-- Held in reset the CPU has no step (R174), and stopped without a request to serve it has none (R159): the turn passes and
nothing else changes, but that the latitude of D10 is used up. The idle step is the model's form of "no step" (entries 2
and 18). -/
def Obligations.CpuWithoutAStepStays : Prop :=
  ∀ (s : State) (rest : List Turn), cpuMoves s rest →
    (s.hold.isSome = true → step s = .next (s.setSchedule rest)) ∧
    (s.hold = none → cpuOffBit s.sr = true → acceptedSource (defersMaskable s) s = none →
      step s = .next { s with
        schedule := rest
        gieFresh := false
        draws := if s.gieFresh then s.draws + 1 else s.draws })

/-- At an acceptance point a request is served before the next instruction, whether the CPU runs or is stopped (R128); the
NMI vector is served so right after GIE was set, too (the latitude of D10 is for maskable requests, entry 18). -/
def Obligations.RequestIsServedAtTheBoundary : Prop :=
  ∀ (s : State) (rest : List Turn), cpuMoves s rest → s.hold = none →
    (∀ src, s.gieFresh = false → acceptedSource false s = some src →
      step s = interruptSequence src (s.setSchedule rest)) ∧
    (acceptedSource false s = some .nmi →
      step s = interruptSequence .nmi { s with
        schedule := rest
        gieFresh := false
        draws := if s.gieFresh then s.draws + 1 else s.draws })

/-- Right after GIE was set, a maskable request is served at once or at the next boundary, by a free choice; both runs are
there (R128, D10). Between the two boundaries stands exactly one instruction, or, where the instruction that set GIE also
stopped the CPU, none (entry 18). -/
def Obligations.NewGieMayTakeOneInstruction : Prop :=
  ∀ (s : State) (rest : List Turn) (src : Source), cpuMoves s rest → s.hold = none → s.gieFresh = true →
    acceptedSource false s = some src → src ≠ .nmi →
    ∃ s', s' = { s with schedule := rest, gieFresh := false, draws := s.draws + 1 } ∧
      (Config.freeBit s.draws = false → step s = interruptSequence src s') ∧
      (Config.freeBit s.draws = true → cpuOffBit s.sr = false → step s = executeNext s') ∧
      (∀ t, executeNext s' = .next t → gieBit s.sr = true → t.gieFresh = false) ∧
      (Config.freeBit s.draws = true → cpuOffBit s.sr = true → step s = .next s' ∧
        ∀ rest', cpuMoves s' rest' → step s' = interruptSequence src (s'.setSchedule rest'))

/-! ## Interrupts -/

/-- With GIE clear no maskable source is served (R115), and the pin NMI is served whatever GIE is and whatever else
requests (R116, R127). -/
def Obligations.GieGatesMaskableSourcesOnly : Prop :=
  (∀ (deferred : Bool) (s : State) (src : Source), gieBit s.sr = false → acceptedSource deferred s = some src →
    src = .nmi) ∧
  (∀ (deferred : Bool) (s : State), s.ifg1.getLsbD 4 = true → acceptedSource deferred s = some .nmi)

/-- The served source requests, and every other source that requests has a lower priority (R127). -/
def Obligations.HighestPriorityIsServed : Prop :=
  ∀ (s : State) (src : Source), acceptedSource false s = some src →
    requests src s = true ∧
    ∀ other, requests other s = true → other ≠ src → priority other < priority src

/-- A source is accepted exactly while some source requests: nothing that requests is passed over, and what is accepted
requests (R115 to R117, R128). -/
def Obligations.SomeRequestIsServed : Prop :=
  ∀ s : State,
    (∀ src, requests src s = true → ∃ served, acceptedSource false s = some served) ∧
    (∀ src, acceptedSource false s = some src → requests src s = true)

/-- Table 3.1 as rule R125 gives it: the name, the vector address and the kind of the flags of every source, and the
priorities (R123). The names and kinds of rows 13 to 1 are the default of `VECTOR_TABLE`, from general knowledge (D14,
entry 3); the kind of the Timer/Port flag is not stated (entry 11). A row without a source has no flag. -/
def Obligations.VectorsOfTheTable : Prop :=
  (∀ d : Device, (sources.map fun src => (src.nameIn (defaultVectors d), vectorAddress src)) =
    [(.nmi, 0xFFFC), (.p00, 0xFFFA), (.p01, 0xFFF8), (.vacant, 0xFFF6), (.watchdog, 0xFFF4), (.timerA0, 0xFFF2),
     (.timerA1, 0xFFF0), (.usartReceive, 0xFFEE), (.usartTransmit, 0xFFEC),
     (if d = .d310 then .timerPort else .adc, 0xFFEA), (if d = .d310 then .vacant else .timerPort, 0xFFE8),
     (.portP2, 0xFFE6), (.portP1, 0xFFE4), (.basicTimer, 0xFFE2), (.portP0, 0xFFE0)]) ∧
  sources.map priority = [14, 13, 12, 11, 10, 9, 8, 7, 6, 5, 4, 3, 2, 1, 0] ∧
  (∀ (d : Device) (n : Row), (defaultVectors d)[n].name ≠ .vacant →
    (defaultVectors d)[n].kind =
      if n = 8 ∨ n = 3 ∨ n = 2 ∨ n = 0 then .multiple
      else if (defaultVectors d)[n].name = .timerPort then .unstated else .single) ∧
  (∀ (d : Device) (n : Row), (defaultVectors d)[n].name = .vacant → (defaultVectors d)[n].flags = [])

/-- When each source requests service (R115 to R117). Rows 13 to 0 are those of the default of `VECTOR_TABLE` (R125, D14,
entry 3). OFIFG with OFIE clear requests nothing. The Timer/Port needs TPIE and the abstract enable of its module
(entry 11). -/
def Obligations.RequestConditions : Prop :=
  ∀ s : State,
    requests .nmi s = (s.ifg1.getLsbD 4 || (s.ifg1.getLsbD 1 && s.ie1.getLsbD 1)) ∧
    (s.ie1.getLsbD 1 = false → s.ifg1.getLsbD 4 = false → requests .nmi s = false) ∧
    (usesDefaultVectors s →
      requests (.row 13) s = (gieBit s.sr && s.ifg1.getLsbD 2 && s.ie1.getLsbD 2) ∧
      requests (.row 12) s = (gieBit s.sr && s.ifg1.getLsbD 3 && s.ie1.getLsbD 3) ∧
      requests (.row 11) s = false ∧
      requests (.row 10) s = (gieBit s.sr && s.ifg1.getLsbD 0 && s.ie1.getLsbD 0 && tmselBit s.wdtctl) ∧
      requests (.row 9) s = (gieBit s.sr && s.modules.flags[9] && s.modules.enables[9]) ∧
      requests (.row 8) s = (gieBit s.sr && s.modules.flags[8] && s.modules.enables[8]) ∧
      requests (.row 7) s = (gieBit s.sr && s.ifg2.getLsbD 0 && s.ie2.getLsbD 0) ∧
      requests (.row 6) s = (gieBit s.sr && s.ifg2.getLsbD 1 && s.ie2.getLsbD 1) ∧
      requests (.row 5) s = (gieBit s.sr && (if s.platform.device = .d310
        then s.modules.flags[5] && s.ie2.getLsbD 2 && s.modules.enables[5]
        else s.ifg2.getLsbD 2 && s.ie2.getLsbD 2)) ∧
      requests (.row 4) s = (gieBit s.sr && (if s.platform.device = .d310
        then false else s.modules.flags[4] && s.ie2.getLsbD 3 && s.modules.enables[4])) ∧
      (requests (.row 3) s = true ↔ gieBit s.sr = true ∧
        ∃ n : Fin 8, s.p2.ifg.getLsbD n.val = true ∧ s.p2.ie.getLsbD n.val = true) ∧
      (requests (.row 2) s = true ↔ gieBit s.sr = true ∧
        ∃ n : Fin 8, s.p1.ifg.getLsbD n.val = true ∧ s.p1.ie.getLsbD n.val = true) ∧
      requests (.row 1) s = (gieBit s.sr && s.ifg2.getLsbD 7 && s.ie2.getLsbD 7) ∧
      (requests (.row 0) s = true ↔ gieBit s.sr = true ∧
        ∃ n : Fin 8, 2 ≤ n.val ∧ s.p0.ifg.getLsbD n.val = true ∧ s.p0.ie.getLsbD n.val = true))

/-- WDTIFG requests an interrupt in timer mode only, in whatever row of whatever table it stands, and in timer mode row 10
of the default table requests with WDTIFG, WDTIE and GIE (R153). -/
def Obligations.WatchdogRequestsInTimerModeOnly : Prop :=
  ∀ s : State,
    (tmselBit s.wdtctl = false → ∀ n : Row, (∀ g ∈ s.platform.vectors[n].flags, g.flag = .ifg1 0) →
      requests (.row n) s = false) ∧
    (tmselBit s.wdtctl = true → usesDefaultVectors s →
      (requests (.row 10) s = true ↔
        s.ifg1.getLsbD 0 = true ∧ s.ie1.getLsbD 0 = true ∧ gieBit s.sr = true))

/-- The interrupt sequence, with an even SP, two words of RAM below it and a vector in memory: PC is pushed, then SR, SP is
down by 4, PC is the vector's word; the other CPU registers, every byte outside the two words and the flag registers, every
enable and the rest of the state stay (R129, R131, R132). SR is the subject of `InterruptEntryKeepsOnlyScg0`, the flags are
that of `ServiceResetsSingleSourceFlags`. -/
def Obligations.InterruptEntryPushesPcThenSr : Prop :=
  ∀ (src : Source) (s : State), s.sp.getLsbD 0 = false →
    wordInRam s.platform (s.sp - 2).toNat = true → wordInRam s.platform (s.sp - 4).toNat = true →
    wordReadable (vectorAddress src) s = true →
    ∃ t, interruptSequence src s = .next t ∧ t.sp = s.sp - 4 ∧
      readWord (s.sp - 2) t = .next s.pc ∧ readWord (s.sp - 4) t = .next s.sr ∧
      readWord (vectorAddress src) s = .next t.pc ∧
      (∀ r, r ≠ 0 → r ≠ 1 → r ≠ 2 → readReg r t = readReg r s) ∧
      (∀ r : ByteRegister, r.isFlags = false → r.get t = r.get s) ∧
      (∀ b : Word, covers .word (s.sp - 2) b.toNat = false → covers .word (s.sp - 4) b.toNat = false →
        (∀ r, registerAt b s = some r → r.isFlags = false) → storedByte b.toNat t = storedByte b.toNat s) ∧
      t.wdtctl = s.wdtctl ∧ t.modules.enables = s.modules.enables ∧ t.platform = s.platform ∧ t.pin = s.pin ∧
      t.hold = s.hold ∧ t.schedule = s.schedule ∧ t.gieFresh = false

/-- SR after interrupt entry: only SCG0 keeps its value (R130). The pushes are not to WDTCTL. -/
def Obligations.InterruptEntryKeepsOnlyScg0 : Prop :=
  ∀ (src : Source) (s t : State), s.sp - 2 ≠ wdtctlAddress → s.sp - 4 ≠ wdtctlAddress →
    interruptSequence src s = .next t →
    t.sr = s.sr &&& 0x0040 ∧ gieBit t.sr = false ∧ cpuOffBit t.sr = false ∧ oscOffBit t.sr = false ∧
      scg1Bit t.sr = false ∧ overflowBit t.sr = false ∧ negativeBit t.sr = false ∧ zeroBit t.sr = false ∧
      carryBit t.sr = false ∧ scg0Bit t.sr = scg0Bit s.sr ∧ hasReservedSrBit t.sr = false

/-- Service resets a single source flag and no other flag; multiple source flags stay (R116, R126). First for every vector
table, by the kind it gives; then the bits, for the default table (R125, D14, entry 3: that TAIFG is a multiple source flag
is general knowledge). Whether the Timer/Port flag stays is open when its own row is served (entry 11), and it stays when
another is. -/
def Obligations.ServiceResetsSingleSourceFlags : Prop :=
  ∀ (src : Source) (s t : State), enterHandler src s = .next t →
    (∀ f, f ∉ src.flagsIn s.platform.vectors → f.get t = f.get s) ∧
    (src = .nmi → t.ifg1 = s.ifg1 &&& 0xEF ∧ ofifg.get t = ofifg.get s) ∧
    (∀ n, src = .row n → ∀ f ∈ src.flagsIn s.platform.vectors,
      (s.platform.vectors[n].kind = .single → f.get t = false) ∧
      (s.platform.vectors[n].kind = .multiple → f.get t = f.get s)) ∧
    (usesDefaultVectors s →
      t.ifg1 = s.ifg1 &&& (if src = .nmi then 0xEF else if src = .row 13 then 0xFB else if src = .row 12 then 0xF7
        else if src = .row 10 then 0xFE else 0xFF) ∧
      t.ifg2 = s.ifg2 &&& (if src = .row 7 then 0xFE else if src = .row 6 then 0xFD
        else if src = .row 5 ∧ s.platform.device ≠ .d310 then 0xFB else if src = .row 1 then 0x7F else 0xFF) ∧
      (src = .row 9 → t.modules.flags[9] = false) ∧
      (∀ r : Row, src ≠ .row r ∨ r = 8 → t.modules.flags[r] = s.modules.flags[r]) ∧
      t.p0 = s.p0 ∧ t.p1 = s.p1 ∧ t.p2 = s.p2)

/-! ## Return from an interrupt -/

/-- RETI pops SR, then PC, and changes nothing else (R90). -/
def Obligations.RetiPopsSrThenPc : Prop :=
  ∀ s : State, wordReadable s.sp s = true → wordReadable (s.sp + 2) s = true →
    (∀ v, readWord s.sp s = .next v → hasReservedSrBit v = false) →
    ∃ sr pc, readWord s.sp s = .next sr ∧ readWord (s.sp + 2) s = .next pc ∧
      exec .reti s = .next { s with sr := sr, pc := pc, sp := s.sp + 4 }

/-- RETI stops on an odd SP (R57) and on a popped SR with a reserved bit (R25). -/
def Obligations.RetiStopsByName : Prop :=
  ∀ s : State,
    (s.sp.getLsbD 0 = true → exec .reti s = .fault .misalignedWordAccess) ∧
    (∀ v, readWord s.sp s = .next v → hasReservedSrBit v = true → exec .reti s = .refused .reservedSrBit)

/-- What an interrupt saves, RETI restores: the frame is on the stack after entry, and from any state that still has it
under SP, whatever else the handler changed, RETI gives back the PC, SR and SP of the state that was interrupted (R91,
R134), the low power mode with them (R92). -/
def Obligations.RetiUndoesInterruptEntry : Prop :=
  ∀ (src : Source) (s t : State), s.sp.getLsbD 0 = false →
    wordInRam s.platform (s.sp - 2).toNat = true → wordInRam s.platform (s.sp - 4).toNat = true →
    hasReservedSrBit s.sr = false → interruptSequence src s = .next t →
    readWord t.sp t = .next s.sr ∧ readWord (t.sp + 2) t = .next s.pc ∧
    ∀ u, u.sp = t.sp → readWord u.sp u = .next s.sr → readWord (u.sp + 2) u = .next s.pc →
      ∃ r, exec .reti u = .next r ∧ r.pc = s.pc ∧ r.sr = s.sr ∧ r.sp = s.sp ∧ modeOf r.sr = modeOf s.sr

/-! ## Reset -/

/-- The reset transition completes when the reset vector is in ROM, and leaves what rule R177 says: PC from the vector, SR,
the enables and WDTCTL 0, the flags by the cause, RAM forgotten, ROM kept. (SP and R4 to R15 become free values, entry 4;
nothing is said of them.) -/
def Obligations.ResetTransitionLeavesTheResetValues : Prop :=
  ∀ (cause : ResetCause) (s : State), wordReadable resetVector s = true →
    ∃ t, resetTransition cause s = .next t ∧ readWord resetVector s = .next t.pc ∧ t.sr = 0 ∧
      t.ie1 = 0 ∧ t.ie2 = 0 ∧ t.wdtctl = 0 ∧
      t.ifg1 = (if cause = .powerUp ∨ cause = .rstPin then 0x02 else 0x03) ∧
      t.ifg2.getLsbD 2 = false ∧ (cause ≠ .powerUp → t.ifg2.getLsbD 7 = s.ifg2.getLsbD 7) ∧
      (cause = .powerUp → t.p0.dir = 0 ∧ t.p1.dir = 0 ∧ t.p2.dir = 0 ∧ t.p0.ifg = 0 ∧ t.p1.ifg = 0 ∧ t.p2.ifg = 0) ∧
      (t.hold.isSome = true ↔ s.pin = .low) ∧ acceptedSource false t = none ∧
      (∀ a, kindOf s.platform a = .rom → t.mem.read a = s.mem.read a) ∧
      (∀ a, kindOf s.platform a ≠ .rom → t.mem.read a = none)

/-- After every PUC, SR is 0000h: active mode, interrupts disabled, status bits 0 (R18). -/
def Obligations.EveryResetClearsSr : Prop :=
  ∀ (cause : ResetCause) (s t : State), resetTransition cause s = .next t →
    t.sr = 0x0000 ∧ modeOf t.sr = some .active ∧ gieBit t.sr = false ∧
      carryBit t.sr = false ∧ zeroBit t.sr = false ∧ negativeBit t.sr = false ∧ overflowBit t.sr = false

/-- WDTIFG tells a reset by VCC or the pin from one by the watchdog or its key (R171, R179). -/
def Obligations.WdtifgTellsTheResetSource : Prop :=
  ∀ (s t : State) (rest : List Turn),
    (s.schedule = .env .powerUp :: rest → step s = .next t → t.ifg1.getLsbD 0 = false) ∧
    (s.schedule = .env (.rstNmiPin .low) :: rest → nmiBit s.wdtctl = false → step s = .next t →
      t.ifg1.getLsbD 0 = false) ∧
    (s.schedule = .env .watchdogOverflow :: rest → watchdogMayExpire s = true → tmselBit s.wdtctl = false →
      step s = .next t → t.ifg1.getLsbD 0 = true ∧ t.sr = 0 ∧ t.wdtctl = 0) ∧
    (∀ v, hiByte v ≠ s.platform.wdtKey → exec (.mov .word (.imm v) (.absolute wdtctlAddress)) s = .next t →
      t.ifg1.getLsbD 0 = true ∧ t.sr = 0 ∧ t.wdtctl = 0)

/-- A PUC while the RST/NMI pin is low holds the CPU, and raising the pin starts it from the reset vector (R121, R174). -/
def Obligations.LowPinHoldsUntilReleased : Prop :=
  ∀ (cause : ResetCause) (s t u : State), s.pin = .low → resetTransition cause s = .next t →
    t.hold.isSome = true ∧ t.wdtctl = 0 ∧
    (envStep (.rstNmiPin .high) t = .next u →
      u.hold = none ∧ u.sr = 0 ∧ readWord resetVector t = .next u.pc)

/-! ## WDTCTL -/

/-- A word written to WDTCTL (R112): a wrong password is a PUC with WDTIFG set; the right one stores all bits but CNTCL, and
sets NMIIFG by a draw exactly when NMIES changes in NMI mode (R120); and it is a POR when it makes the low pin the reset
input again. A read gives the stored bits under the constant of the platform (R35; password and constant are parameters,
D15, entry 3). -/
def Obligations.WdtctlWriteChecksThePassword : Prop :=
  ∀ (v : Word) (s : State),
    (hiByte v ≠ s.platform.wdtKey →
      writeWord wdtctlAddress v s = resetTransition .keyViolation s ∧
      ∀ t, writeWord wdtctlAddress v s = .next t → t.ifg1.getLsbD 0 = true ∧ t.wdtctl = 0) ∧
    (hiByte v = s.platform.wdtKey → v.getLsbD 5 = true ∨ s.pin = .high →
      ∃ edge : Bool,
        (edge = true ↔ v.getLsbD 6 ≠ nmiesBit s.wdtctl ∧ (nmiBit s.wdtctl = true ∨ v.getLsbD 5 = true)) ∧
        writeWord wdtctlAddress v s = .next { s with
          wdtctl := loByte v &&& 0xF7
          ifg1 := if edge then s.ifg1 ||| (Config.freeByte s.draws &&& 0x10) else s.ifg1
          draws := if edge then s.draws + 1 else s.draws }) ∧
    (hiByte v = s.platform.wdtKey → v.getLsbD 5 = false → s.pin = .low →
      ∀ t, writeWord wdtctlAddress v s = .next t →
        t.ifg1.getLsbD 0 = false ∧ t.wdtctl = 0 ∧ t.hold.isSome = true) ∧
    readWord wdtctlAddress s = .next (wordOfBytes s.wdtctl s.platform.wdtReadHigh)

/-- MOV of a word to WDTCTL by its address: stored with the right password (an exact next state when NMIES keeps its value
and the pin is high), a reset with a wrong one (R96, R112). -/
def Obligations.MovToWdtctlStoresOrResets : Prop :=
  ∀ (v : Word) (s : State),
    (hiByte v = s.platform.wdtKey → v.getLsbD 6 = nmiesBit s.wdtctl → s.pin = .high →
      exec (.mov .word (.imm v) (.absolute wdtctlAddress)) s =
        .next { s with pc := s.pc + 6, wdtctl := loByte v &&& 0xF7 }) ∧
    (hiByte v ≠ s.platform.wdtKey → wordReadable resetVector s = true →
      ∃ t, exec (.mov .word (.imm v) (.absolute wdtctlAddress)) s = .next t ∧
        readWord resetVector s = .next t.pc ∧ t.sr = 0 ∧ t.wdtctl = 0 ∧ t.ifg1 = 0x03)

/-! ## Memory -/

/-- A word in RAM has bits 7:0 at its even address and bits 15:8 at the odd one (R56). -/
def Obligations.WordsAreLittleEndian : Prop :=
  ∀ (a v : Word) (s t : State), kindOf s.platform a.toNat = .ram → writeWord a v s = .next t →
    readByte a t = .next (loByte v, t) ∧ readByte (a + 1) t = .next (hiByte v, t) ∧ readWord a t = .next v ∧
      loByte v = v.extractLsb' 0 8 ∧ hiByte v = v.extractLsb' 8 8

/-- A store leaves every other byte of the address space, every register of the CPU and the rest of the state as they were,
a store to WDTCTL aside (R62, R68). -/
def Obligations.StoreLeavesEveryOtherByte : Prop :=
  ∀ (w : Width) (a v : Word) (s t : State), a ≠ wdtctlAddress → writeMem w a v s = .next t →
    (∀ b, covers w a b = false → storedByte b t = storedByte b s) ∧ (∀ r, readReg r t = readReg r s) ∧
      sameHidden s t

/-- Exactly when an access completes (R47, R57, R59, R60, R68, R69; R33 and R117 for the registers, R35 and R112 for
WDTCTL). The model's choices in it: an unlisted byte of ROM cannot be read (entry 8), a byte write of 0120h does not complete
(entry 15), a word with its second byte outside RAM and ROM has no meaning (entry 14). -/
def Obligations.AccessesCompleteExactlyWhen : Prop :=
  ∀ (w : Width) (a v : Word) (s : State),
    ((∃ x, readMem w a s = .next x) ↔ memReadable w a s = true) ∧
    ((∃ t, writeMem w a v s = .next t) ↔ memWritable w a v s = true)

/-- Word accesses at odd addresses and fetches at an odd PC fault, the stack's accesses included, and no byte access faults so
(R57, R16; the source is silent, the spec's decision D2). -/
def Obligations.MisalignedAccessesFault : Prop :=
  ∀ s : State,
    (∀ a v : Word, a.getLsbD 0 = true →
      readWord a s = .fault .misalignedWordAccess ∧ writeWord a v s = .fault .misalignedWordAccess) ∧
    (∀ (a : Word) (b : Byte),
      readByte a s ≠ .fault .misalignedWordAccess ∧ writeByte a b s ≠ .fault .misalignedWordAccess) ∧
    (∀ rest, cpuMoves s rest → runsNext s = true → s.pc.getLsbD 0 = true → step s = .fault .misalignedFetch) ∧
    (s.sp.getLsbD 0 = true →
      (∀ src, interruptSequence src s = .fault .misalignedWordAccess) ∧
      exec .reti s = .fault .misalignedWordAccess ∧
      (∀ d, d ≠ 1 → exec (.pop d) s = .fault .misalignedWordAccess) ∧
      (∀ src v s1, pushAdmitted src = true → resolveSource .word src s.advance = .next (v, s1) →
        exec (.push src) s = .fault .misalignedWordAccess))

/-- The accesses that the memory rules refuse, each by its name (R26, R33, R59, R60, R68, R69, R117), the byte write of WDTCTL
(R35; entry 15), the word whose second byte is unmapped (entry 14), and the read of a RAM byte that holds no value (R47). The
stops are the spec's decisions D7, D8, D15, D18, D24 and D25. -/
def Obligations.AccessesStopByName : Prop :=
  ∀ (a v : Word) (b : Byte) (s : State),
    (kindOf s.platform a.toNat = .unmapped →
      readByte a s = .refused .unmappedAddress ∧ writeByte a b s = .refused .unmappedAddress) ∧
    (a.getLsbD 0 = false → kindOf s.platform a.toNat = .unmapped →
      readWord a s = .refused .unmappedAddress ∧ writeWord a v s = .refused .unmappedAddress) ∧
    (a.getLsbD 0 = false → kindOf s.platform a.toNat = .ram → kindOf s.platform (a.toNat + 1) = .unmapped →
      readWord a s = .refused .unmappedAddress ∧ writeWord a v s = .refused .unmappedAddress) ∧
    (kindOf s.platform a.toNat = .rom → writeByte a b s = .refused .writeToRom) ∧
    (kindOf s.platform a.toNat = .rom → a.getLsbD 0 = false → writeWord a v s = .refused .writeToRom) ∧
    (a.toNat ≤ 0xF → a.getLsbD 0 = false →
      readWord a s = .refused .wordAccessToSfr ∧ writeWord a v s = .refused .wordAccessToSfr) ∧
    (6 ≤ a.toNat → a.toNat ≤ 0xF → readByte a s = .refused .undefinedSfr ∧ writeByte a b s = .refused .undefinedSfr) ∧
    (kindOf s.platform a.toNat = .peripheral8 → a.getLsbD 0 = false →
      readWord a s = .refused .wordAccessToBytePeripheral ∧ writeWord a v s = .refused .wordAccessToBytePeripheral) ∧
    (kindOf s.platform a.toNat = .peripheral8 → portRegister? s.platform a.toNat = none →
      readByte a s = .refused .unmodelledPeripheral ∧ writeByte a b s = .refused .unmodelledPeripheral) ∧
    (kindOf s.platform a.toNat = .peripheral16 → readByte a s = .refused .unmodelledPeripheral) ∧
    (kindOf s.platform a.toNat = .peripheral16 → a ≠ 0x0120 → a ≠ 0x0121 →
      writeByte a b s = .refused .unmodelledPeripheral) ∧
    (kindOf s.platform a.toNat = .peripheral16 → a.getLsbD 0 = false → a ≠ 0x0120 →
      readWord a s = .refused .unmodelledPeripheral ∧ writeWord a v s = .refused .unmodelledPeripheral) ∧
    (a = 0x0120 ∨ a = 0x0121 → writeByte a b s = .refused .byteWriteToWdtctl) ∧
    (a = 0 → b.getLsbD 1 = true → writeByte a b s = .refused .ofieNotAdmitted) ∧
    (kindOf s.platform a.toNat = .ram → s.mem.read a.toNat = none → readByte a s = .fault .unwrittenMemory) ∧
    (a.getLsbD 0 = false → wordInRam s.platform a.toNat = true →
      s.mem.read a.toNat = none ∨ s.mem.read (a.toNat + 1) = none → readWord a s = .fault .unwrittenMemory)

/-- A byte register keeps the defined bits of what is written, and reads them back; a flag bit written 1 is set and one
written 0 is clear (R26, R143, D30). Nothing is said of its reserved bits. An input register reads as the pin levels (R39),
and that a write of it changes nothing is the model's choice (entry 10). -/
def Obligations.RegisterWriteIsReadBack : Prop :=
  ∀ (a : Word) (v : Byte) (s t : State) (r : ByteRegister), registerAt a s = some r →
    writeByte a v s = .next t →
    (r.isInput = false →
      r.get t = v &&& definedBits s.platform.device r ∧
      ∃ b t', readByte a t = .next (b, t') ∧
        b &&& definedBits s.platform.device r = v &&& definedBits s.platform.device r) ∧
    (r.isInput = true → t = s ∧ ∃ p, r = .port p .input ∧ readByte a s = .next ((s.port p).pins, s))

/-- No step changes ROM or the parameters of the device (R54, R183). -/
def Obligations.RomNeverChanges : Prop :=
  ∀ s t : State, step s = .next t →
    t.platform = s.platform ∧ ∀ a, kindOf s.platform a = .rom → t.mem.read a = s.mem.read a

/-! ## Operands -/

/-- A source operand resolves exactly when it needs no memory or the memory it reads can be read; it moves PC past its
extension word, increments the register of `@Rn+` (SP always by 2), and changes nothing else (R74, R77). -/
def Obligations.SourceOperandReadsAndIncrements : Prop :=
  ∀ (w : Width) (src : Src) (s : State), src.exists = true →
    ((∃ x, resolveSource w src s = .next x) ↔ sourceReadable w src s = true) ∧
    ∀ v s1, resolveSource w src s = .next (v, s1) →
      v = narrow w v ∧
      s1.pc = s.pc + 2 * BitVec.ofNat 16 src.fields.2.2.length ∧
      (∀ r, r ≠ 0 → src.increments? ≠ some r → readReg r s1 = readReg r s) ∧
      (∀ r, src.increments? = some r → readReg r s1 = readReg r s + (if r = 1 ∨ w = .word then 2 else 1)) ∧
      (∀ a, sourceAddress? src s = some a → ∃ s2, readMem w a s = .next (v, s2)) ∧
      (∀ r, src = .reg r → v = narrow w (readReg r s)) ∧ (∀ n, src = .imm n → v = narrow w n) ∧
      (∀ b, storedByte b s1 = storedByte b s) ∧ sameHidden s s1

/-- The constants of R2 and R3 as a source, with no extension word (R76). -/
def Obligations.ConstantGeneratorValues : Prop :=
  ∀ s : State,
    decode [0x4325] = .ok (.mov .word (.const .two) (.reg 5), []) ∧
    decode [0x4225] = .ok (.mov .word (.const .four) (.reg 5), []) ∧
    resolveSource .word (.const .zero) s = .next (0x0000, s) ∧ resolveSource .word (.const .one) s = .next (0x0001, s) ∧
    resolveSource .word (.const .two) s = .next (0x0002, s) ∧ resolveSource .word (.const .four) s = .next (0x0004, s) ∧
    resolveSource .word (.const .eight) s = .next (0x0008, s) ∧
    resolveSource .word (.const .minusOne) s = .next (0xFFFF, s) ∧
    resolveSource .byte (.const .minusOne) s = .next (0x00FF, s)

/-! ## Instructions: completion and result -/

/-- MOV completes when its source can be read and its destination takes the value, and the value is then there (R96). The
destination is not read. -/
def Obligations.MovPlacesTheSource : Prop :=
  ∀ (w : Width) (src : Src) (dst : Dst) (s : State), formatIAdmitted w src dst = true →
    sourceReadable w src s.advance = true →
    ∃ v s1, resolveSource w src s.advance = .next (v, s1) ∧
      (locWritable w (resolveDest dst s1).1 v (resolveDest dst s1).2 = true →
        ∃ t, exec (.mov w src dst) s = .next t ∧ placed w (resolveDest dst s1).1 v (resolveDest dst s1).2 t)

/-- BIC completes when its source and destination can be read and the destination takes the result, `d AND (NOT s)`, which is
then there (R97). -/
def Obligations.BicPlacesDestinationAndNotSource : Prop :=
  ∀ (w : Width) (src : Src) (dst : Dst) (s : State), formatIAdmitted w src dst = true →
    sourceReadable w src s.advance = true →
    ∃ v s1, resolveSource w src s.advance = .next (v, s1) ∧
      (locReadable w (resolveDest dst s1).1 (resolveDest dst s1).2 = true →
        ∃ d s2, readLoc w (resolveDest dst s1).1 (resolveDest dst s1).2 = .next (d, s2) ∧
          (locWritable w (resolveDest dst s1).1 (d &&& ~~~v) s2 = true →
            ∃ t, exec (.bic w src dst) s = .next t ∧ placed w (resolveDest dst s1).1 (d &&& ~~~v) s2 t))

/-- BIS likewise, with `d OR s` (R98). -/
def Obligations.BisPlacesDestinationOrSource : Prop :=
  ∀ (w : Width) (src : Src) (dst : Dst) (s : State), formatIAdmitted w src dst = true →
    sourceReadable w src s.advance = true →
    ∃ v s1, resolveSource w src s.advance = .next (v, s1) ∧
      (locReadable w (resolveDest dst s1).1 (resolveDest dst s1).2 = true →
        ∃ d s2, readLoc w (resolveDest dst s1).1 (resolveDest dst s1).2 = .next (d, s2) ∧
          (locWritable w (resolveDest dst s1).1 (d ||| v) s2 = true →
            ∃ t, exec (.bis w src dst) s = .next t ∧ placed w (resolveDest dst s1).1 (d ||| v) s2 t))

/-- The register and immediate forms of MOV, BIC and BIS with a register destination other than SR complete in every state,
and PUSH of a register completes where the word below SP is in RAM; the next state is written out. A byte form clears bits
15:8, and R3 as the destination discards the result (R13, R73, R96 to R99). -/
def Obligations.RegisterFormsGiveAnExactNextState : Prop :=
  ∀ (w : Width) (n : Word) (a d : Reg) (s : State), a ≠ 3 → d ≠ 2 → (d = 0 → w = .word) →
    exec (.mov w (.reg a) (.reg d)) s = .next (setReg d (narrow w (readReg a s.advance)) s.advance) ∧
    exec (.mov w (.imm n) (.reg d)) s = .next (setReg d (narrow w n) s.advance.advance) ∧
    exec (.bic w (.reg a) (.reg d)) s = .next (setReg d
      (narrow w (readReg d s.advance) &&& ~~~narrow w (readReg a s.advance)) s.advance) ∧
    exec (.bic w (.imm n) (.reg d)) s = .next (setReg d
      (narrow w (readReg d s.advance.advance) &&& ~~~narrow w n) s.advance.advance) ∧
    exec (.bis w (.reg a) (.reg d)) s = .next (setReg d
      (narrow w (readReg d s.advance) ||| narrow w (readReg a s.advance)) s.advance) ∧
    exec (.bis w (.imm n) (.reg d)) s = .next (setReg d
      (narrow w (readReg d s.advance.advance) ||| narrow w n) s.advance.advance) ∧
    (a ≠ 1 → s.sp.getLsbD 0 = false → wordInRam s.platform (s.sp - 2).toNat = true →
      exec (.push (.reg a)) s = .next { s with
        pc := s.pc + 2
        sp := s.sp - 2
        mem := (s.mem.write (s.sp - 2).toNat (loByte (readReg a s.advance))).write ((s.sp - 2).toNat + 1)
          (hiByte (readReg a s.advance)) })

/-- PUSH completes when its operand can be read and the word below SP takes it; in RAM the word is then at the new SP
(R99). -/
def Obligations.PushStoresBelowSp : Prop :=
  ∀ (src : Src) (s : State), pushAdmitted src = true → sourceReadable .word src s.advance = true →
    ∃ v s1, resolveSource .word src s.advance = .next (v, s1) ∧ s1.sp = s.sp ∧
      (wordWritable (s.sp - 2) v (s1.setSp (s.sp - 2)) = true →
        ∃ t, exec (.push src) s = .next t ∧
          placed .word (.mem (s.sp - 2)) v (s1.setSp (s.sp - 2)) t ∧
          (kindOf s.platform (s.sp - 2).toNat = .ram → t.sp = s.sp - 2 ∧ readWord t.sp t = .next v))

/-- POP completes when the top of the stack can be read and the register takes it; SP is then up by 2 (R100). -/
def Obligations.PopLoadsFromSp : Prop :=
  ∀ (d : Reg) (s : State), d ≠ 1 → wordReadable s.sp s = true →
    (∀ v, readWord s.sp s = .next v → d = 2 → hasReservedSrBit v = false) →
    ∃ v t, readWord s.sp s = .next v ∧ exec (.pop d) s = .next t ∧ (d ≠ 3 → readReg d t = v) ∧ t.sp = s.sp + 2

/-- EINT sets GIE and moves PC to the next instruction, and that is all (R101). -/
def Obligations.EintSetsGie : Prop :=
  ∀ s : State, hasReservedSrBit s.sr = false →
    exec .eint s = .next { s with sr := s.sr ||| 0x0008, pc := s.pc + 2 } ∧ gieBit (s.sr ||| 0x0008) = true

/-- POP and EINT are the instructions they are emulated by (R79, R100, R101). -/
def Obligations.EmulatedInstructionsAreTheirExpansions : Prop :=
  (∀ (d : Reg) (s : State), d ≠ 1 → exec (.pop d) s = exec (.mov .word (.indirectInc 1) (.reg d)) s) ∧
  (∀ s : State, exec .eint s = exec (.bis .word (.const .eight) (.reg 2)) s)

/-- SR as a destination takes the whole result, and refuses one with a reserved bit; a byte form clears V (R25, R102). -/
def Obligations.SrDestinationTakesTheWholeResult : Prop :=
  ∀ (w : Width) (src : Src) (s s1 : State) (v : Word), formatIAdmitted w src (.reg 2) = true →
    resolveSource w src s.advance = .next (v, s1) →
    (hasReservedSrBit v = true → exec (.mov w src (.reg 2)) s = .refused .reservedSrBit) ∧
    (hasReservedSrBit v = false → exec (.mov w src (.reg 2)) s = .next (s1.setSr v)) ∧
    (hasReservedSrBit (narrow w s.sr &&& ~~~v) = true → exec (.bic w src (.reg 2)) s = .refused .reservedSrBit) ∧
    (hasReservedSrBit (narrow w s.sr &&& ~~~v) = false →
      exec (.bic w src (.reg 2)) s = .next (s1.setSr (narrow w s.sr &&& ~~~v))) ∧
    (hasReservedSrBit (narrow w s.sr ||| v) = true → exec (.bis w src (.reg 2)) s = .refused .reservedSrBit) ∧
    (hasReservedSrBit (narrow w s.sr ||| v) = false →
      exec (.bis w src (.reg 2)) s = .next (s1.setSr (narrow w s.sr ||| v))) ∧
    (w = .byte → overflowBit v = false ∧ overflowBit (narrow w s.sr &&& ~~~v) = false ∧
      overflowBit (narrow w s.sr ||| v) = false)

/-- PC as a destination: the result is the address of the next instruction; BIC and BIS read PC past all the words of the
instruction (R103). -/
def Obligations.PcDestinationBranches : Prop :=
  ∀ (src : Src) (s s1 : State) (v : Word), formatIAdmitted .word src (.reg 0) = true →
    resolveSource .word src s.advance = .next (v, s1) →
    exec (.mov .word src (.reg 0)) s = .next (s1.setPc v) ∧
    exec (.bic .word src (.reg 0)) s =
      .next (s1.setPc ((s.pc + 2 * BitVec.ofNat 16 (encode (.bic .word src (.reg 0))).length) &&& ~~~v)) ∧
    exec (.bis .word src (.reg 0)) s =
      .next (s1.setPc ((s.pc + 2 * BitVec.ofNat 16 (encode (.bis .word src (.reg 0))).length) ||| v))

/-! ## Instructions: frame -/

/-- MOV, BIC and BIS with a register destination change that register, the register of `@Rn+` and PC, and nothing else: no
status bit unless SR is the destination (R95), no byte of memory. -/
def Obligations.RegisterDestinationFrame : Prop :=
  ∀ (i : Instr) (w : Width) (src : Src) (d : Reg) (s t : State),
    i = .mov w src (.reg d) ∨ i = .bic w src (.reg d) ∨ i = .bis w src (.reg d) → exec i s = .next t →
    (∀ r, r ≠ 0 → r ≠ d → src.increments? ≠ some r → readReg r t = readReg r s) ∧
    (∀ r, src.increments? = some r → readReg r t = readReg r s + incrementOf w r) ∧
    (∀ b, storedByte b t = storedByte b s) ∧ sameHidden s t

/-- MOV, BIC and BIS with a memory destination change the bytes stored to, the register of `@Rn+` and PC, and nothing else; a
store to WDTCTL is a word store that rule R112 governs (R95 to R98). The address is formed in the state after the source
operand. -/
def Obligations.MemoryDestinationFrame : Prop :=
  ∀ (i : Instr) (w : Width) (src : Src) (dst : Dst) (s s1 t : State) (v a : Word),
    i = .mov w src dst ∨ i = .bic w src dst ∨ i = .bis w src dst → exec i s = .next t →
    resolveSource w src s.advance = .next (v, s1) → (resolveDest dst s1).1 = .mem a →
    (a ≠ wdtctlAddress →
      (∀ r, r ≠ 0 → src.increments? ≠ some r → readReg r t = readReg r s) ∧
      (∀ r, src.increments? = some r → readReg r t = readReg r s + incrementOf w r) ∧
      (∀ b, covers w a b = false → storedByte b t = storedByte b s) ∧ sameHidden s t) ∧
    (a = wdtctlAddress → w = .word ∧ ∃ x, writeWdtctl x (resolveDest dst s1).2 = .next t)

/-- PUSH changes SP, the word at the new SP, the register of `@Rn+` and PC, and nothing else; a push into WDTCTL is a write
that rule R112 governs (R99). -/
def Obligations.PushFrame : Prop :=
  ∀ (src : Src) (s s1 t : State) (v : Word), exec (.push src) s = .next t →
    resolveSource .word src s.advance = .next (v, s1) →
    (s1.sp - 2 ≠ wdtctlAddress →
      t.sp = s.sp - 2 ∧
      (∀ r, r ≠ 0 → r ≠ 1 → src.increments? ≠ some r → readReg r t = readReg r s) ∧
      (∀ r, src.increments? = some r → readReg r t = readReg r s + 2) ∧
      (∀ b, covers .word (s1.sp - 2) b = false → storedByte b t = storedByte b s) ∧ sameHidden s t) ∧
    (s1.sp - 2 = wdtctlAddress → writeWdtctl v (s1.setSp (s1.sp - 2)) = .next t)

/-- POP, EINT and RETI store nothing and change only the registers that rules R90, R100 and R101 name. -/
def Obligations.PopEintRetiFrame : Prop :=
  ∀ s t : State,
    (∀ d, exec (.pop d) s = .next t →
      (∀ r, r ≠ 0 → r ≠ 1 → r ≠ d → readReg r t = readReg r s) ∧
      (∀ b, storedByte b t = storedByte b s) ∧ sameHidden s t) ∧
    (exec .eint s = .next t →
      (∀ r, r ≠ 0 → r ≠ 2 → readReg r t = readReg r s) ∧ (∀ b, storedByte b t = storedByte b s) ∧ sameHidden s t) ∧
    (exec .reti s = .next t →
      (∀ r, r ≠ 0 → r ≠ 1 → r ≠ 2 → readReg r t = readReg r s) ∧
      (∀ b, storedByte b t = storedByte b s) ∧ sameHidden s t)

/-- An instruction that does not write PC leaves it past its own words (R15). RETI writes PC; a store to WDTCTL may reset. -/
def Obligations.PcMovesPastTheInstruction : Prop :=
  ∀ (i : Instr) (s t : State), exec i s = .next t → i ≠ .reti → i ≠ .pop 0 →
    (∀ w src dst, i = .mov w src dst ∨ i = .bic w src dst ∨ i = .bis w src dst →
      ∀ v s1, resolveSource w src s.advance = .next (v, s1) →
        (resolveDest dst s1).1 ≠ .reg 0 ∧ (resolveDest dst s1).1 ≠ .mem wdtctlAddress) →
    (∀ src, i = .push src → s.sp - 2 ≠ wdtctlAddress) →
    t.pc = s.pc + 2 * BitVec.ofNat 16 (encode i).length

/-! ## Operating modes -/

/-- The operating mode that SR selects (R158). -/
def Obligations.ModeFromSr : Prop :=
  ∀ sr : Word,
    (cpuOffBit sr = true → oscOffBit sr = true → modeOf sr = some .lpm4) ∧
    (cpuOffBit sr = true → oscOffBit sr = false → scg1Bit sr = false → scg0Bit sr = false → modeOf sr = some .lpm0) ∧
    (cpuOffBit sr = true → oscOffBit sr = false → scg1Bit sr = false → scg0Bit sr = true → modeOf sr = some .lpm1) ∧
    (cpuOffBit sr = true → oscOffBit sr = false → scg1Bit sr = true → scg0Bit sr = false → modeOf sr = some .lpm2) ∧
    (cpuOffBit sr = true → oscOffBit sr = false → scg1Bit sr = true → scg0Bit sr = true → modeOf sr = some .lpm3) ∧
    (modeOf sr = some .active ↔ sr &&& 0x00F0 = 0)

/-! ## The environment -/

/-- A level at the RST/NMI pin (R119): in NMI mode the selected edge sets NMIIFG and nothing else happens; in reset mode a low
level resets and holds, and a high level while nothing is held does nothing else. A platform whose `WAKE_FILTER` blocks
the pin in the present low power mode is the one exception (R161; none by default, D21, entry 3). -/
def Obligations.PinChangeSetsNmiOrResets : Prop :=
  ∀ (s : State) (level : Level),
    (nmiBit s.wdtctl = true →
      ((nmiesBit s.wdtctl = false ∧ s.pin = .low ∧ level = .high) ∨
        (nmiesBit s.wdtctl = true ∧ s.pin = .high ∧ level = .low) →
        (sourceBlocked .nmiPin s = false →
          envStep (.rstNmiPin level) s = .next { s with pin := level, ifg1 := s.ifg1 ||| 0x10 }) ∧
        (sourceBlocked .nmiPin s = true → envStep (.rstNmiPin level) s = .next { s with pin := level })) ∧
      (¬((nmiesBit s.wdtctl = false ∧ s.pin = .low ∧ level = .high) ∨
        (nmiesBit s.wdtctl = true ∧ s.pin = .high ∧ level = .low)) →
        envStep (.rstNmiPin level) s = .next { s with pin := level })) ∧
    (nmiBit s.wdtctl = false → level = .low →
      envStep (.rstNmiPin level) s = resetTransition .rstPin { s with pin := .low } ∧
      ∀ t, envStep (.rstNmiPin level) s = .next t → t.hold.isSome = true ∧ t.pin = .low) ∧
    (nmiBit s.wdtctl = false → level = .high → s.hold = none →
      envStep (.rstNmiPin level) s = .next { s with pin := .high })

/-- A level at a port pin (R144): the selected transition sets the pin's flag, whether or not its enable is set, and no other
flag; a level that is no such transition sets no flag. The flags of P0.0 and P0.1 are IFG1.2 and IFG1.3. That the environment
may also set any port flag at any step is the model's choice, which R144 allows (entry 17). A pin that `WAKE_FILTER` blocks
sets no flag (R161; none by default, D21, entry 3). -/
def Obligations.PortEdgeSetsTheFlag : Prop :=
  ∀ (s : State) (id : PortId) (n : Fin 8) (level : Level),
    ∃ t u edge, envStep (.portPin id n level) s = .next t ∧ envStep (.portFlag id n) s = .next u ∧
      (edge ↔ ((s.port id).ies.getLsbD n.val = false ∧ (s.port id).pins.getLsbD n.val = false ∧ level = .high) ∨
        ((s.port id).ies.getLsbD n.val = true ∧ (s.port id).pins.getLsbD n.val = true ∧ level = .low)) ∧
      (t.port id).pins.getLsbD n.val = (level == .high) ∧
      (∀ id' m, id' ≠ id ∨ m ≠ n.val → (t.port id').pins.getLsbD m = (s.port id').pins.getLsbD m) ∧
      (∀ f, f ≠ pinFlag id n ∨ sourceBlocked (.pin id n) s = true ∨ ¬edge → f.get t = f.get s) ∧
      (∀ f, f ≠ pinFlag id n ∨ sourceBlocked (.pin id n) s = true → f.get u = f.get s) ∧
      ∀ x, x = u ∨ (x = t ∧ edge) → sourceBlocked (.pin id n) s = false →
        (id = .p0 → n = 0 → x.ifg1.getLsbD 2 = true) ∧ (id = .p0 → n = 1 → x.ifg1.getLsbD 3 = true) ∧
        (id ≠ .p0 ∨ 2 ≤ n.val → (x.port id).ifg.getLsbD n.val = true)

/-- The other flags that the environment sets: an oscillator fault sets OFIFG (R122), a module sets its flag in IFG1 or IFG2
(R114, R125), and the modules take new internal bits (R125, last paragraph). Nothing else changes. A source
that `WAKE_FILTER` blocks sets no flag: one that it lists with the present low power mode, and by default it lists none (R161,
D21, entry 3). The 8-bit Timer/Counter is another source than pin P0.1, whose flag it sets. -/
def Obligations.FaultAndModuleEventsSetTheirFlags : Prop :=
  ∀ (s : State) (m : Modules) (f : ModuleFlag),
    (sourceBlocked .oscillator s = false → envStep .oscillatorFault s = .next { s with ifg1 := s.ifg1 ||| 0x02 }) ∧
    (sourceBlocked .oscillator s = true → envStep .oscillatorFault s = .next s) ∧
    (sourceBlocked (.moduleFlag f) s = true → envStep (.moduleFlag f) s = .next s) ∧
    (sourceBlocked (.moduleFlag f) s = false → envStep (.moduleFlag f) s = .next { s with
      ifg1 := s.ifg1 ||| (if f = .timerCounter then 0x08 else 0x00)
      ifg2 := s.ifg2 ||| (match f with
        | .timerCounter => 0x00 | .usartReceive => 0x01 | .usartTransmit => 0x02 | .adc => 0x04
        | .basicTimer => 0x80) }) ∧
    (∃ flags, envStep (.modules m) s = .next { s with modules := ⟨flags, m.enables⟩ } ∧
      ∀ r : Row, flags[r] = if sourceBlocked (.row r) s then m.flags[r] && s.modules.flags[r] else m.flags[r]) ∧
    (∀ src, sourceBlocked src s = true ↔
      ∃ mode, modeOf s.sr = some mode ∧ mode ≠ .active ∧ (mode, src) ∈ s.platform.wakeFilter)

/-- The watchdog overflows (R152) where `WDT_MAY_EXPIRE` holds: in timer mode WDTIFG is set, in watchdog mode the machine is
reset with WDTIFG set. By the default of that parameter it holds exactly while HOLD is 0 (R173, D16, entry 3). In timer mode
a watchdog that `WAKE_FILTER` blocks sets no flag (R161; none by default, D21). -/
def Obligations.WatchdogOverflowFlagsOrResets : Prop :=
  ∀ s : State,
    (s.platform.wdtMayExpire = defaultWdtMayExpire → watchdogMayExpire s = !holdBit s.wdtctl) ∧
    (watchdogMayExpire s = false → envStep .watchdogOverflow s = .next s) ∧
    (watchdogMayExpire s = true → tmselBit s.wdtctl = true → sourceBlocked .watchdog s = false →
      envStep .watchdogOverflow s = .next { s with ifg1 := s.ifg1 ||| 0x01 }) ∧
    (watchdogMayExpire s = true → tmselBit s.wdtctl = true → sourceBlocked .watchdog s = true →
      envStep .watchdogOverflow s = .next s) ∧
    (watchdogMayExpire s = true → tmselBit s.wdtctl = false → wordReadable resetVector s = true →
      ∃ t, envStep .watchdogOverflow s = .next t ∧ t.ifg1.getLsbD 0 = true ∧ t.sr = 0 ∧
        readWord resetVector s = .next t.pc)

/-- An event that is no reset changes no CPU register, no memory and no byte register but the flags and the pin levels, so no
enable of IE1, IE2 or a port, and not WDTCTL (R43, R144, R160). The enables inside modules change only when the modules set
them (R125, entry 17). -/
def Obligations.EventsLeaveTheCpuAlone : Prop :=
  ∀ (e : EnvEvent) (s t : State), envStep e s = .next t → e ≠ .powerUp →
    (∀ level, e = .rstNmiPin level → nmiBit s.wdtctl = true) →
    (e = .watchdogOverflow → watchdogMayExpire s = false ∨ tmselBit s.wdtctl = true) →
    (∀ r, readReg r t = readReg r s) ∧ t.mem = s.mem ∧
      (∀ r : ByteRegister, r.isFlags = false → r.isInput = false → r.get t = r.get s) ∧
      t.wdtctl = s.wdtctl ∧ ((∀ m, e ≠ .modules m) → t.modules.enables = s.modules.enables) ∧
      t.hold = s.hold ∧ t.gieFresh = s.gieFresh ∧ t.draws = s.draws ∧ t.platform = s.platform

/-! ## The invariant -/

/-- The state after reset meets the invariant. -/
def Obligations.ResetMeetsTheInvariant : Prop := State.reset.Inv

/-- Every step keeps the invariant: memory in canonical form and only where RAM or ROM is, SR without reserved bits (R25),
OFIE clear (R117), reserved register bits stored as 0, CNTCL not stored (R34), the CPU held exactly while the pin is a low
reset input (R174). -/
def Obligations.EveryStepKeepsTheInvariant : Prop :=
  ∀ s t : State, s.Inv → step s = .next t → t.Inv
end

