-- ==== Sys2Proof/Laws/Memory.lean ====
section
/-! SUPPORT. RAM and ROM as data: read after write, the canonical form, and the kinds of address. -/

namespace Sys2Proof.Machine

/-! ### Read after write -/

@[simp] theorem Memory.read_nil (a : Nat) : Memory.read [] a = none := rfl

theorem Memory.read_cons (k : Nat) (b : Byte) (m : Memory) (a : Nat) :
    Memory.read ((k, b) :: m) a = if a = k then some b else Memory.read m a := rfl

@[simp] theorem Memory.read_write_same (m : Memory) (a : Nat) (b : Byte) : (Memory.write m a b).read a = some b := by
  induction m with
  | nil => simp [Memory.write, Memory.read_cons]
  | cons c m ih =>
    obtain ⟨k, d⟩ := c
    unfold Memory.write
    split
    · simp [Memory.read_cons]
    · split
      · simp [Memory.read_cons]
      · rename_i h
        simp [Memory.read_cons, h, ih]

theorem Memory.read_write_other (m : Memory) {a x : Nat} (b : Byte) (h : x ≠ a) :
    (Memory.write m a b).read x = Memory.read m x := by
  induction m with
  | nil => simp [Memory.write, Memory.read_cons, h]
  | cons c m ih =>
    obtain ⟨k, d⟩ := c
    unfold Memory.write
    split
    · simp [Memory.read_cons, h]
    · split
      · rename_i hk
        simp [Memory.read_cons, hk ▸ h, h]
      · simp [Memory.read_cons, ih]

/-! ### The canonical form -/

theorem Memory.wf_iff (m : Memory) : Memory.wf m = true ↔ m.Pairwise fun x y => x.1 < y.1 := by
  simp [Memory.wf]

@[simp] theorem Memory.wf_nil : Memory.wf [] = true := by decide

/-- Every cell of a written memory is the new one or an old one. -/
theorem Memory.mem_write {m : Memory} {a : Nat} {b : Byte} {c : Host.Cell} (h : c ∈ Memory.write m a b) :
    c = (a, b) ∨ c ∈ m := by
  induction m with
  | nil => simpa [Memory.write] using h
  | cons d m ih =>
    obtain ⟨k, e⟩ := d
    unfold Memory.write at h
    split at h
    · simpa using h
    · split at h
      · simp only [List.mem_cons] at h ⊢
        tauto
      · simp only [List.mem_cons] at h ⊢
        rcases h with h | h
        · exact .inr (.inl h)
        · rcases ih h with h | h
          · exact .inl h
          · exact .inr (.inr h)

theorem Memory.write_wf {m : Memory} (a : Nat) (b : Byte) (h : Memory.wf m = true) :
    Memory.wf (Memory.write m a b) = true := by
  rw [Memory.wf_iff] at h ⊢
  induction m with
  | nil => simp [Memory.write]
  | cons c m ih =>
    obtain ⟨k, d⟩ := c
    rw [List.pairwise_cons] at h
    unfold Memory.write
    split
    · rename_i hlt
      refine List.pairwise_cons.2 ⟨fun y hy => ?_, List.pairwise_cons.2 h⟩
      rcases List.mem_cons.1 hy with rfl | hy
      · exact hlt
      · exact hlt.trans (h.1 y hy)
    · split
      · rename_i heq
        subst heq
        exact List.pairwise_cons.2 ⟨h.1, h.2⟩
      · refine List.pairwise_cons.2 ⟨fun y hy => ?_, ih h.2⟩
        rcases Memory.mem_write hy with rfl | hy
        · simp only; omega
        · exact h.1 y hy

theorem Memory.keepRom_wf {m : Memory} (p : Platform) (h : Memory.wf m = true) :
    Memory.wf (Memory.keepRom p m) = true := by
  rw [Memory.wf_iff] at h ⊢
  exact h.sublist List.filter_sublist

/-- After the RAM is forgotten, ROM reads as before and nothing else holds a value. -/
theorem Memory.read_keepRom (p : Platform) (m : Memory) (a : Nat) :
    (Memory.keepRom p m).read a = if kindOf p a = .rom then Memory.read m a else none := by
  induction m with
  | nil => simp [Memory.keepRom]
  | cons c m ih =>
    obtain ⟨k, b⟩ := c
    simp only [Memory.keepRom] at ih ⊢
    rw [List.filter_cons]
    split
    · rename_i hk
      simp only [beq_iff_eq] at hk
      rw [Memory.read_cons, Memory.read_cons, ih]
      by_cases ha : a = k
      · subst ha; simp [hk]
      · simp [ha]
    · rename_i hk
      simp only [beq_iff_eq] at hk
      rw [ih, Memory.read_cons]
      by_cases ha : a = k
      · subst ha; simp [hk]
      · simp [ha]

/-! ### Kinds of address (R55) -/

theorem kindOf_sfr_iff {p : Platform} {a : Nat} (h : a < 0x10) : kindOf p a = .sfr := by
  simp [kindOf, h]

theorem kindOf_wdtctl (p : Platform) : kindOf p 0x120 = .peripheral16 := by
  simp [kindOf]

theorem kindOf_wdtctl_high (p : Platform) : kindOf p 0x121 = .peripheral16 := by
  simp [kindOf]

/-- The vector table is ROM on every device (R54, R55). -/
theorem kindOf_vectors (p : Platform) {a : Nat} (h : 0xFFE0 ≤ a) (h' : a < 0x10000) : kindOf p a = .rom := by
  have h1 : ¬a < 0x10 := by omega
  have h2 : ¬(a = 0x120 ∨ a = 0x121) := by omega
  have h3 : ¬0x10000 ≤ a := by omega
  simp [kindOf, h1, h2, h3, h]

/-! ### The two bytes of a word -/

theorem wordInRam_iff {p : Platform} {a : Nat} :
    wordInRam p a = true ↔ kindOf p a = .ram ∧ kindOf p (a + 1) = .ram := by
  simp [wordInRam]

/-- A word has a second byte to access exactly where that byte is in RAM or ROM. -/
theorem secondByteRefusal?_eq_none {p : Platform} {a : Nat} :
    secondByteRefusal? p a = none ↔ kindOf p (a + 1) = .ram ∨ kindOf p (a + 1) = .rom := by
  unfold secondByteRefusal?
  cases kindOf p (a + 1) <;> simp

/-- A word in RAM has both its bytes there. -/
theorem secondByteRefusal?_of_wordInRam {p : Platform} {a : Nat} (h : wordInRam p a = true) :
    secondByteRefusal? p a = none := secondByteRefusal?_eq_none.2 (.inl (wordInRam_iff.1 h).2)

end Sys2Proof.Machine
end

