-- ==== Sys2Proof/Laws/Outcome.lean ====
section
/-! SUPPORT. Sequencing of outcomes. -/

namespace Sys2Proof.Machine

variable {α β : Type}

@[simp] theorem Result.bind_next (a : α) (f : α → Result β) : Result.bind (.next a) f = f a := rfl
@[simp] theorem Result.bind_fault (r : Fault) (f : α → Result β) : Result.bind (.fault r) f = .fault r := rfl
@[simp] theorem Result.bind_refused (r : Refusal) (f : α → Result β) : Result.bind (.refused r) f = .refused r := rfl

/-- A sequence answers a value exactly when both parts do. -/
theorem Result.bind_eq_next {x : Result α} {f : α → Result β} {b : β} :
    x.bind f = .next b ↔ ∃ a, x = .next a ∧ f a = .next b := by
  cases x <;> simp [Result.bind]

end Sys2Proof.Machine
end

