-- ==== Sys2Proof/Laws/State.lean ====
section
/-! SUPPORT. One lemma per field per update of the state, so that no proof unfolds a record update. -/

namespace Sys2Proof.Machine.State

variable (s : State)

/-! ### `setPc` -/

@[simp] theorem setPc_platform (v : Word) : (s.setPc v).platform = s.platform := rfl
@[simp] theorem setPc_pc (v : Word) : (s.setPc v).pc = v := rfl
@[simp] theorem setPc_sp (v : Word) : (s.setPc v).sp = s.sp := rfl
@[simp] theorem setPc_sr (v : Word) : (s.setPc v).sr = s.sr := rfl
@[simp] theorem setPc_gpr (v : Word) : (s.setPc v).gpr = s.gpr := rfl
@[simp] theorem setPc_ie1 (v : Word) : (s.setPc v).ie1 = s.ie1 := rfl
@[simp] theorem setPc_ie2 (v : Word) : (s.setPc v).ie2 = s.ie2 := rfl
@[simp] theorem setPc_ifg1 (v : Word) : (s.setPc v).ifg1 = s.ifg1 := rfl
@[simp] theorem setPc_ifg2 (v : Word) : (s.setPc v).ifg2 = s.ifg2 := rfl
@[simp] theorem setPc_me1 (v : Word) : (s.setPc v).me1 = s.me1 := rfl
@[simp] theorem setPc_me2 (v : Word) : (s.setPc v).me2 = s.me2 := rfl
@[simp] theorem setPc_wdtctl (v : Word) : (s.setPc v).wdtctl = s.wdtctl := rfl
@[simp] theorem setPc_p0 (v : Word) : (s.setPc v).p0 = s.p0 := rfl
@[simp] theorem setPc_p1 (v : Word) : (s.setPc v).p1 = s.p1 := rfl
@[simp] theorem setPc_p2 (v : Word) : (s.setPc v).p2 = s.p2 := rfl
@[simp] theorem setPc_p1sel (v : Word) : (s.setPc v).p1sel = s.p1sel := rfl
@[simp] theorem setPc_p2sel (v : Word) : (s.setPc v).p2sel = s.p2sel := rfl
@[simp] theorem setPc_modules (v : Word) : (s.setPc v).modules = s.modules := rfl
@[simp] theorem setPc_mem (v : Word) : (s.setPc v).mem = s.mem := rfl
@[simp] theorem setPc_pin (v : Word) : (s.setPc v).pin = s.pin := rfl
@[simp] theorem setPc_hold (v : Word) : (s.setPc v).hold = s.hold := rfl
@[simp] theorem setPc_gieFresh (v : Word) : (s.setPc v).gieFresh = s.gieFresh := rfl
@[simp] theorem setPc_draws (v : Word) : (s.setPc v).draws = s.draws := rfl
@[simp] theorem setPc_schedule (v : Word) : (s.setPc v).schedule = s.schedule := rfl

/-! ### `setSp` -/

@[simp] theorem setSp_platform (v : Word) : (s.setSp v).platform = s.platform := rfl
@[simp] theorem setSp_pc (v : Word) : (s.setSp v).pc = s.pc := rfl
@[simp] theorem setSp_sp (v : Word) : (s.setSp v).sp = v := rfl
@[simp] theorem setSp_sr (v : Word) : (s.setSp v).sr = s.sr := rfl
@[simp] theorem setSp_gpr (v : Word) : (s.setSp v).gpr = s.gpr := rfl
@[simp] theorem setSp_ie1 (v : Word) : (s.setSp v).ie1 = s.ie1 := rfl
@[simp] theorem setSp_ie2 (v : Word) : (s.setSp v).ie2 = s.ie2 := rfl
@[simp] theorem setSp_ifg1 (v : Word) : (s.setSp v).ifg1 = s.ifg1 := rfl
@[simp] theorem setSp_ifg2 (v : Word) : (s.setSp v).ifg2 = s.ifg2 := rfl
@[simp] theorem setSp_me1 (v : Word) : (s.setSp v).me1 = s.me1 := rfl
@[simp] theorem setSp_me2 (v : Word) : (s.setSp v).me2 = s.me2 := rfl
@[simp] theorem setSp_wdtctl (v : Word) : (s.setSp v).wdtctl = s.wdtctl := rfl
@[simp] theorem setSp_p0 (v : Word) : (s.setSp v).p0 = s.p0 := rfl
@[simp] theorem setSp_p1 (v : Word) : (s.setSp v).p1 = s.p1 := rfl
@[simp] theorem setSp_p2 (v : Word) : (s.setSp v).p2 = s.p2 := rfl
@[simp] theorem setSp_p1sel (v : Word) : (s.setSp v).p1sel = s.p1sel := rfl
@[simp] theorem setSp_p2sel (v : Word) : (s.setSp v).p2sel = s.p2sel := rfl
@[simp] theorem setSp_modules (v : Word) : (s.setSp v).modules = s.modules := rfl
@[simp] theorem setSp_mem (v : Word) : (s.setSp v).mem = s.mem := rfl
@[simp] theorem setSp_pin (v : Word) : (s.setSp v).pin = s.pin := rfl
@[simp] theorem setSp_hold (v : Word) : (s.setSp v).hold = s.hold := rfl
@[simp] theorem setSp_gieFresh (v : Word) : (s.setSp v).gieFresh = s.gieFresh := rfl
@[simp] theorem setSp_draws (v : Word) : (s.setSp v).draws = s.draws := rfl
@[simp] theorem setSp_schedule (v : Word) : (s.setSp v).schedule = s.schedule := rfl

/-! ### `setSr` -/

@[simp] theorem setSr_platform (v : Word) : (s.setSr v).platform = s.platform := rfl
@[simp] theorem setSr_pc (v : Word) : (s.setSr v).pc = s.pc := rfl
@[simp] theorem setSr_sp (v : Word) : (s.setSr v).sp = s.sp := rfl
@[simp] theorem setSr_sr (v : Word) : (s.setSr v).sr = v := rfl
@[simp] theorem setSr_gpr (v : Word) : (s.setSr v).gpr = s.gpr := rfl
@[simp] theorem setSr_ie1 (v : Word) : (s.setSr v).ie1 = s.ie1 := rfl
@[simp] theorem setSr_ie2 (v : Word) : (s.setSr v).ie2 = s.ie2 := rfl
@[simp] theorem setSr_ifg1 (v : Word) : (s.setSr v).ifg1 = s.ifg1 := rfl
@[simp] theorem setSr_ifg2 (v : Word) : (s.setSr v).ifg2 = s.ifg2 := rfl
@[simp] theorem setSr_me1 (v : Word) : (s.setSr v).me1 = s.me1 := rfl
@[simp] theorem setSr_me2 (v : Word) : (s.setSr v).me2 = s.me2 := rfl
@[simp] theorem setSr_wdtctl (v : Word) : (s.setSr v).wdtctl = s.wdtctl := rfl
@[simp] theorem setSr_p0 (v : Word) : (s.setSr v).p0 = s.p0 := rfl
@[simp] theorem setSr_p1 (v : Word) : (s.setSr v).p1 = s.p1 := rfl
@[simp] theorem setSr_p2 (v : Word) : (s.setSr v).p2 = s.p2 := rfl
@[simp] theorem setSr_p1sel (v : Word) : (s.setSr v).p1sel = s.p1sel := rfl
@[simp] theorem setSr_p2sel (v : Word) : (s.setSr v).p2sel = s.p2sel := rfl
@[simp] theorem setSr_modules (v : Word) : (s.setSr v).modules = s.modules := rfl
@[simp] theorem setSr_mem (v : Word) : (s.setSr v).mem = s.mem := rfl
@[simp] theorem setSr_pin (v : Word) : (s.setSr v).pin = s.pin := rfl
@[simp] theorem setSr_hold (v : Word) : (s.setSr v).hold = s.hold := rfl
@[simp] theorem setSr_gieFresh (v : Word) : (s.setSr v).gieFresh = s.gieFresh := rfl
@[simp] theorem setSr_draws (v : Word) : (s.setSr v).draws = s.draws := rfl
@[simp] theorem setSr_schedule (v : Word) : (s.setSr v).schedule = s.schedule := rfl

/-! ### `setGpr` -/

@[simp] theorem setGpr_platform (v : Vector Word 12) : (s.setGpr v).platform = s.platform := rfl
@[simp] theorem setGpr_pc (v : Vector Word 12) : (s.setGpr v).pc = s.pc := rfl
@[simp] theorem setGpr_sp (v : Vector Word 12) : (s.setGpr v).sp = s.sp := rfl
@[simp] theorem setGpr_sr (v : Vector Word 12) : (s.setGpr v).sr = s.sr := rfl
@[simp] theorem setGpr_gpr (v : Vector Word 12) : (s.setGpr v).gpr = v := rfl
@[simp] theorem setGpr_ie1 (v : Vector Word 12) : (s.setGpr v).ie1 = s.ie1 := rfl
@[simp] theorem setGpr_ie2 (v : Vector Word 12) : (s.setGpr v).ie2 = s.ie2 := rfl
@[simp] theorem setGpr_ifg1 (v : Vector Word 12) : (s.setGpr v).ifg1 = s.ifg1 := rfl
@[simp] theorem setGpr_ifg2 (v : Vector Word 12) : (s.setGpr v).ifg2 = s.ifg2 := rfl
@[simp] theorem setGpr_me1 (v : Vector Word 12) : (s.setGpr v).me1 = s.me1 := rfl
@[simp] theorem setGpr_me2 (v : Vector Word 12) : (s.setGpr v).me2 = s.me2 := rfl
@[simp] theorem setGpr_wdtctl (v : Vector Word 12) : (s.setGpr v).wdtctl = s.wdtctl := rfl
@[simp] theorem setGpr_p0 (v : Vector Word 12) : (s.setGpr v).p0 = s.p0 := rfl
@[simp] theorem setGpr_p1 (v : Vector Word 12) : (s.setGpr v).p1 = s.p1 := rfl
@[simp] theorem setGpr_p2 (v : Vector Word 12) : (s.setGpr v).p2 = s.p2 := rfl
@[simp] theorem setGpr_p1sel (v : Vector Word 12) : (s.setGpr v).p1sel = s.p1sel := rfl
@[simp] theorem setGpr_p2sel (v : Vector Word 12) : (s.setGpr v).p2sel = s.p2sel := rfl
@[simp] theorem setGpr_modules (v : Vector Word 12) : (s.setGpr v).modules = s.modules := rfl
@[simp] theorem setGpr_mem (v : Vector Word 12) : (s.setGpr v).mem = s.mem := rfl
@[simp] theorem setGpr_pin (v : Vector Word 12) : (s.setGpr v).pin = s.pin := rfl
@[simp] theorem setGpr_hold (v : Vector Word 12) : (s.setGpr v).hold = s.hold := rfl
@[simp] theorem setGpr_gieFresh (v : Vector Word 12) : (s.setGpr v).gieFresh = s.gieFresh := rfl
@[simp] theorem setGpr_draws (v : Vector Word 12) : (s.setGpr v).draws = s.draws := rfl
@[simp] theorem setGpr_schedule (v : Vector Word 12) : (s.setGpr v).schedule = s.schedule := rfl

/-! ### `setIfg1` -/

@[simp] theorem setIfg1_platform (v : Byte) : (s.setIfg1 v).platform = s.platform := rfl
@[simp] theorem setIfg1_pc (v : Byte) : (s.setIfg1 v).pc = s.pc := rfl
@[simp] theorem setIfg1_sp (v : Byte) : (s.setIfg1 v).sp = s.sp := rfl
@[simp] theorem setIfg1_sr (v : Byte) : (s.setIfg1 v).sr = s.sr := rfl
@[simp] theorem setIfg1_gpr (v : Byte) : (s.setIfg1 v).gpr = s.gpr := rfl
@[simp] theorem setIfg1_ie1 (v : Byte) : (s.setIfg1 v).ie1 = s.ie1 := rfl
@[simp] theorem setIfg1_ie2 (v : Byte) : (s.setIfg1 v).ie2 = s.ie2 := rfl
@[simp] theorem setIfg1_ifg1 (v : Byte) : (s.setIfg1 v).ifg1 = v := rfl
@[simp] theorem setIfg1_ifg2 (v : Byte) : (s.setIfg1 v).ifg2 = s.ifg2 := rfl
@[simp] theorem setIfg1_me1 (v : Byte) : (s.setIfg1 v).me1 = s.me1 := rfl
@[simp] theorem setIfg1_me2 (v : Byte) : (s.setIfg1 v).me2 = s.me2 := rfl
@[simp] theorem setIfg1_wdtctl (v : Byte) : (s.setIfg1 v).wdtctl = s.wdtctl := rfl
@[simp] theorem setIfg1_p0 (v : Byte) : (s.setIfg1 v).p0 = s.p0 := rfl
@[simp] theorem setIfg1_p1 (v : Byte) : (s.setIfg1 v).p1 = s.p1 := rfl
@[simp] theorem setIfg1_p2 (v : Byte) : (s.setIfg1 v).p2 = s.p2 := rfl
@[simp] theorem setIfg1_p1sel (v : Byte) : (s.setIfg1 v).p1sel = s.p1sel := rfl
@[simp] theorem setIfg1_p2sel (v : Byte) : (s.setIfg1 v).p2sel = s.p2sel := rfl
@[simp] theorem setIfg1_modules (v : Byte) : (s.setIfg1 v).modules = s.modules := rfl
@[simp] theorem setIfg1_mem (v : Byte) : (s.setIfg1 v).mem = s.mem := rfl
@[simp] theorem setIfg1_pin (v : Byte) : (s.setIfg1 v).pin = s.pin := rfl
@[simp] theorem setIfg1_hold (v : Byte) : (s.setIfg1 v).hold = s.hold := rfl
@[simp] theorem setIfg1_gieFresh (v : Byte) : (s.setIfg1 v).gieFresh = s.gieFresh := rfl
@[simp] theorem setIfg1_draws (v : Byte) : (s.setIfg1 v).draws = s.draws := rfl
@[simp] theorem setIfg1_schedule (v : Byte) : (s.setIfg1 v).schedule = s.schedule := rfl

/-! ### `setIfg2` -/

@[simp] theorem setIfg2_platform (v : Byte) : (s.setIfg2 v).platform = s.platform := rfl
@[simp] theorem setIfg2_pc (v : Byte) : (s.setIfg2 v).pc = s.pc := rfl
@[simp] theorem setIfg2_sp (v : Byte) : (s.setIfg2 v).sp = s.sp := rfl
@[simp] theorem setIfg2_sr (v : Byte) : (s.setIfg2 v).sr = s.sr := rfl
@[simp] theorem setIfg2_gpr (v : Byte) : (s.setIfg2 v).gpr = s.gpr := rfl
@[simp] theorem setIfg2_ie1 (v : Byte) : (s.setIfg2 v).ie1 = s.ie1 := rfl
@[simp] theorem setIfg2_ie2 (v : Byte) : (s.setIfg2 v).ie2 = s.ie2 := rfl
@[simp] theorem setIfg2_ifg1 (v : Byte) : (s.setIfg2 v).ifg1 = s.ifg1 := rfl
@[simp] theorem setIfg2_ifg2 (v : Byte) : (s.setIfg2 v).ifg2 = v := rfl
@[simp] theorem setIfg2_me1 (v : Byte) : (s.setIfg2 v).me1 = s.me1 := rfl
@[simp] theorem setIfg2_me2 (v : Byte) : (s.setIfg2 v).me2 = s.me2 := rfl
@[simp] theorem setIfg2_wdtctl (v : Byte) : (s.setIfg2 v).wdtctl = s.wdtctl := rfl
@[simp] theorem setIfg2_p0 (v : Byte) : (s.setIfg2 v).p0 = s.p0 := rfl
@[simp] theorem setIfg2_p1 (v : Byte) : (s.setIfg2 v).p1 = s.p1 := rfl
@[simp] theorem setIfg2_p2 (v : Byte) : (s.setIfg2 v).p2 = s.p2 := rfl
@[simp] theorem setIfg2_p1sel (v : Byte) : (s.setIfg2 v).p1sel = s.p1sel := rfl
@[simp] theorem setIfg2_p2sel (v : Byte) : (s.setIfg2 v).p2sel = s.p2sel := rfl
@[simp] theorem setIfg2_modules (v : Byte) : (s.setIfg2 v).modules = s.modules := rfl
@[simp] theorem setIfg2_mem (v : Byte) : (s.setIfg2 v).mem = s.mem := rfl
@[simp] theorem setIfg2_pin (v : Byte) : (s.setIfg2 v).pin = s.pin := rfl
@[simp] theorem setIfg2_hold (v : Byte) : (s.setIfg2 v).hold = s.hold := rfl
@[simp] theorem setIfg2_gieFresh (v : Byte) : (s.setIfg2 v).gieFresh = s.gieFresh := rfl
@[simp] theorem setIfg2_draws (v : Byte) : (s.setIfg2 v).draws = s.draws := rfl
@[simp] theorem setIfg2_schedule (v : Byte) : (s.setIfg2 v).schedule = s.schedule := rfl

/-! ### `setModules` -/

@[simp] theorem setModules_platform (v : Modules) : (s.setModules v).platform = s.platform := rfl
@[simp] theorem setModules_pc (v : Modules) : (s.setModules v).pc = s.pc := rfl
@[simp] theorem setModules_sp (v : Modules) : (s.setModules v).sp = s.sp := rfl
@[simp] theorem setModules_sr (v : Modules) : (s.setModules v).sr = s.sr := rfl
@[simp] theorem setModules_gpr (v : Modules) : (s.setModules v).gpr = s.gpr := rfl
@[simp] theorem setModules_ie1 (v : Modules) : (s.setModules v).ie1 = s.ie1 := rfl
@[simp] theorem setModules_ie2 (v : Modules) : (s.setModules v).ie2 = s.ie2 := rfl
@[simp] theorem setModules_ifg1 (v : Modules) : (s.setModules v).ifg1 = s.ifg1 := rfl
@[simp] theorem setModules_ifg2 (v : Modules) : (s.setModules v).ifg2 = s.ifg2 := rfl
@[simp] theorem setModules_me1 (v : Modules) : (s.setModules v).me1 = s.me1 := rfl
@[simp] theorem setModules_me2 (v : Modules) : (s.setModules v).me2 = s.me2 := rfl
@[simp] theorem setModules_wdtctl (v : Modules) : (s.setModules v).wdtctl = s.wdtctl := rfl
@[simp] theorem setModules_p0 (v : Modules) : (s.setModules v).p0 = s.p0 := rfl
@[simp] theorem setModules_p1 (v : Modules) : (s.setModules v).p1 = s.p1 := rfl
@[simp] theorem setModules_p2 (v : Modules) : (s.setModules v).p2 = s.p2 := rfl
@[simp] theorem setModules_p1sel (v : Modules) : (s.setModules v).p1sel = s.p1sel := rfl
@[simp] theorem setModules_p2sel (v : Modules) : (s.setModules v).p2sel = s.p2sel := rfl
@[simp] theorem setModules_modules (v : Modules) : (s.setModules v).modules = v := rfl
@[simp] theorem setModules_mem (v : Modules) : (s.setModules v).mem = s.mem := rfl
@[simp] theorem setModules_pin (v : Modules) : (s.setModules v).pin = s.pin := rfl
@[simp] theorem setModules_hold (v : Modules) : (s.setModules v).hold = s.hold := rfl
@[simp] theorem setModules_gieFresh (v : Modules) : (s.setModules v).gieFresh = s.gieFresh := rfl
@[simp] theorem setModules_draws (v : Modules) : (s.setModules v).draws = s.draws := rfl
@[simp] theorem setModules_schedule (v : Modules) : (s.setModules v).schedule = s.schedule := rfl

/-! ### `setWdtctl` -/

@[simp] theorem setWdtctl_platform (v : Byte) : (s.setWdtctl v).platform = s.platform := rfl
@[simp] theorem setWdtctl_pc (v : Byte) : (s.setWdtctl v).pc = s.pc := rfl
@[simp] theorem setWdtctl_sp (v : Byte) : (s.setWdtctl v).sp = s.sp := rfl
@[simp] theorem setWdtctl_sr (v : Byte) : (s.setWdtctl v).sr = s.sr := rfl
@[simp] theorem setWdtctl_gpr (v : Byte) : (s.setWdtctl v).gpr = s.gpr := rfl
@[simp] theorem setWdtctl_ie1 (v : Byte) : (s.setWdtctl v).ie1 = s.ie1 := rfl
@[simp] theorem setWdtctl_ie2 (v : Byte) : (s.setWdtctl v).ie2 = s.ie2 := rfl
@[simp] theorem setWdtctl_ifg1 (v : Byte) : (s.setWdtctl v).ifg1 = s.ifg1 := rfl
@[simp] theorem setWdtctl_ifg2 (v : Byte) : (s.setWdtctl v).ifg2 = s.ifg2 := rfl
@[simp] theorem setWdtctl_me1 (v : Byte) : (s.setWdtctl v).me1 = s.me1 := rfl
@[simp] theorem setWdtctl_me2 (v : Byte) : (s.setWdtctl v).me2 = s.me2 := rfl
@[simp] theorem setWdtctl_wdtctl (v : Byte) : (s.setWdtctl v).wdtctl = v := rfl
@[simp] theorem setWdtctl_p0 (v : Byte) : (s.setWdtctl v).p0 = s.p0 := rfl
@[simp] theorem setWdtctl_p1 (v : Byte) : (s.setWdtctl v).p1 = s.p1 := rfl
@[simp] theorem setWdtctl_p2 (v : Byte) : (s.setWdtctl v).p2 = s.p2 := rfl
@[simp] theorem setWdtctl_p1sel (v : Byte) : (s.setWdtctl v).p1sel = s.p1sel := rfl
@[simp] theorem setWdtctl_p2sel (v : Byte) : (s.setWdtctl v).p2sel = s.p2sel := rfl
@[simp] theorem setWdtctl_modules (v : Byte) : (s.setWdtctl v).modules = s.modules := rfl
@[simp] theorem setWdtctl_mem (v : Byte) : (s.setWdtctl v).mem = s.mem := rfl
@[simp] theorem setWdtctl_pin (v : Byte) : (s.setWdtctl v).pin = s.pin := rfl
@[simp] theorem setWdtctl_hold (v : Byte) : (s.setWdtctl v).hold = s.hold := rfl
@[simp] theorem setWdtctl_gieFresh (v : Byte) : (s.setWdtctl v).gieFresh = s.gieFresh := rfl
@[simp] theorem setWdtctl_draws (v : Byte) : (s.setWdtctl v).draws = s.draws := rfl
@[simp] theorem setWdtctl_schedule (v : Byte) : (s.setWdtctl v).schedule = s.schedule := rfl

/-! ### `setMem` -/

@[simp] theorem setMem_platform (v : Memory) : (s.setMem v).platform = s.platform := rfl
@[simp] theorem setMem_pc (v : Memory) : (s.setMem v).pc = s.pc := rfl
@[simp] theorem setMem_sp (v : Memory) : (s.setMem v).sp = s.sp := rfl
@[simp] theorem setMem_sr (v : Memory) : (s.setMem v).sr = s.sr := rfl
@[simp] theorem setMem_gpr (v : Memory) : (s.setMem v).gpr = s.gpr := rfl
@[simp] theorem setMem_ie1 (v : Memory) : (s.setMem v).ie1 = s.ie1 := rfl
@[simp] theorem setMem_ie2 (v : Memory) : (s.setMem v).ie2 = s.ie2 := rfl
@[simp] theorem setMem_ifg1 (v : Memory) : (s.setMem v).ifg1 = s.ifg1 := rfl
@[simp] theorem setMem_ifg2 (v : Memory) : (s.setMem v).ifg2 = s.ifg2 := rfl
@[simp] theorem setMem_me1 (v : Memory) : (s.setMem v).me1 = s.me1 := rfl
@[simp] theorem setMem_me2 (v : Memory) : (s.setMem v).me2 = s.me2 := rfl
@[simp] theorem setMem_wdtctl (v : Memory) : (s.setMem v).wdtctl = s.wdtctl := rfl
@[simp] theorem setMem_p0 (v : Memory) : (s.setMem v).p0 = s.p0 := rfl
@[simp] theorem setMem_p1 (v : Memory) : (s.setMem v).p1 = s.p1 := rfl
@[simp] theorem setMem_p2 (v : Memory) : (s.setMem v).p2 = s.p2 := rfl
@[simp] theorem setMem_p1sel (v : Memory) : (s.setMem v).p1sel = s.p1sel := rfl
@[simp] theorem setMem_p2sel (v : Memory) : (s.setMem v).p2sel = s.p2sel := rfl
@[simp] theorem setMem_modules (v : Memory) : (s.setMem v).modules = s.modules := rfl
@[simp] theorem setMem_mem (v : Memory) : (s.setMem v).mem = v := rfl
@[simp] theorem setMem_pin (v : Memory) : (s.setMem v).pin = s.pin := rfl
@[simp] theorem setMem_hold (v : Memory) : (s.setMem v).hold = s.hold := rfl
@[simp] theorem setMem_gieFresh (v : Memory) : (s.setMem v).gieFresh = s.gieFresh := rfl
@[simp] theorem setMem_draws (v : Memory) : (s.setMem v).draws = s.draws := rfl
@[simp] theorem setMem_schedule (v : Memory) : (s.setMem v).schedule = s.schedule := rfl

/-! ### `setDraws` -/

@[simp] theorem setDraws_platform (v : Nat) : (s.setDraws v).platform = s.platform := rfl
@[simp] theorem setDraws_pc (v : Nat) : (s.setDraws v).pc = s.pc := rfl
@[simp] theorem setDraws_sp (v : Nat) : (s.setDraws v).sp = s.sp := rfl
@[simp] theorem setDraws_sr (v : Nat) : (s.setDraws v).sr = s.sr := rfl
@[simp] theorem setDraws_gpr (v : Nat) : (s.setDraws v).gpr = s.gpr := rfl
@[simp] theorem setDraws_ie1 (v : Nat) : (s.setDraws v).ie1 = s.ie1 := rfl
@[simp] theorem setDraws_ie2 (v : Nat) : (s.setDraws v).ie2 = s.ie2 := rfl
@[simp] theorem setDraws_ifg1 (v : Nat) : (s.setDraws v).ifg1 = s.ifg1 := rfl
@[simp] theorem setDraws_ifg2 (v : Nat) : (s.setDraws v).ifg2 = s.ifg2 := rfl
@[simp] theorem setDraws_me1 (v : Nat) : (s.setDraws v).me1 = s.me1 := rfl
@[simp] theorem setDraws_me2 (v : Nat) : (s.setDraws v).me2 = s.me2 := rfl
@[simp] theorem setDraws_wdtctl (v : Nat) : (s.setDraws v).wdtctl = s.wdtctl := rfl
@[simp] theorem setDraws_p0 (v : Nat) : (s.setDraws v).p0 = s.p0 := rfl
@[simp] theorem setDraws_p1 (v : Nat) : (s.setDraws v).p1 = s.p1 := rfl
@[simp] theorem setDraws_p2 (v : Nat) : (s.setDraws v).p2 = s.p2 := rfl
@[simp] theorem setDraws_p1sel (v : Nat) : (s.setDraws v).p1sel = s.p1sel := rfl
@[simp] theorem setDraws_p2sel (v : Nat) : (s.setDraws v).p2sel = s.p2sel := rfl
@[simp] theorem setDraws_modules (v : Nat) : (s.setDraws v).modules = s.modules := rfl
@[simp] theorem setDraws_mem (v : Nat) : (s.setDraws v).mem = s.mem := rfl
@[simp] theorem setDraws_pin (v : Nat) : (s.setDraws v).pin = s.pin := rfl
@[simp] theorem setDraws_hold (v : Nat) : (s.setDraws v).hold = s.hold := rfl
@[simp] theorem setDraws_gieFresh (v : Nat) : (s.setDraws v).gieFresh = s.gieFresh := rfl
@[simp] theorem setDraws_draws (v : Nat) : (s.setDraws v).draws = v := rfl
@[simp] theorem setDraws_schedule (v : Nat) : (s.setDraws v).schedule = s.schedule := rfl

/-! ### `setGieFresh` -/

@[simp] theorem setGieFresh_platform (v : Bool) : (s.setGieFresh v).platform = s.platform := rfl
@[simp] theorem setGieFresh_pc (v : Bool) : (s.setGieFresh v).pc = s.pc := rfl
@[simp] theorem setGieFresh_sp (v : Bool) : (s.setGieFresh v).sp = s.sp := rfl
@[simp] theorem setGieFresh_sr (v : Bool) : (s.setGieFresh v).sr = s.sr := rfl
@[simp] theorem setGieFresh_gpr (v : Bool) : (s.setGieFresh v).gpr = s.gpr := rfl
@[simp] theorem setGieFresh_ie1 (v : Bool) : (s.setGieFresh v).ie1 = s.ie1 := rfl
@[simp] theorem setGieFresh_ie2 (v : Bool) : (s.setGieFresh v).ie2 = s.ie2 := rfl
@[simp] theorem setGieFresh_ifg1 (v : Bool) : (s.setGieFresh v).ifg1 = s.ifg1 := rfl
@[simp] theorem setGieFresh_ifg2 (v : Bool) : (s.setGieFresh v).ifg2 = s.ifg2 := rfl
@[simp] theorem setGieFresh_me1 (v : Bool) : (s.setGieFresh v).me1 = s.me1 := rfl
@[simp] theorem setGieFresh_me2 (v : Bool) : (s.setGieFresh v).me2 = s.me2 := rfl
@[simp] theorem setGieFresh_wdtctl (v : Bool) : (s.setGieFresh v).wdtctl = s.wdtctl := rfl
@[simp] theorem setGieFresh_p0 (v : Bool) : (s.setGieFresh v).p0 = s.p0 := rfl
@[simp] theorem setGieFresh_p1 (v : Bool) : (s.setGieFresh v).p1 = s.p1 := rfl
@[simp] theorem setGieFresh_p2 (v : Bool) : (s.setGieFresh v).p2 = s.p2 := rfl
@[simp] theorem setGieFresh_p1sel (v : Bool) : (s.setGieFresh v).p1sel = s.p1sel := rfl
@[simp] theorem setGieFresh_p2sel (v : Bool) : (s.setGieFresh v).p2sel = s.p2sel := rfl
@[simp] theorem setGieFresh_modules (v : Bool) : (s.setGieFresh v).modules = s.modules := rfl
@[simp] theorem setGieFresh_mem (v : Bool) : (s.setGieFresh v).mem = s.mem := rfl
@[simp] theorem setGieFresh_pin (v : Bool) : (s.setGieFresh v).pin = s.pin := rfl
@[simp] theorem setGieFresh_hold (v : Bool) : (s.setGieFresh v).hold = s.hold := rfl
@[simp] theorem setGieFresh_gieFresh (v : Bool) : (s.setGieFresh v).gieFresh = v := rfl
@[simp] theorem setGieFresh_draws (v : Bool) : (s.setGieFresh v).draws = s.draws := rfl
@[simp] theorem setGieFresh_schedule (v : Bool) : (s.setGieFresh v).schedule = s.schedule := rfl

/-! ### `setSchedule` -/

@[simp] theorem setSchedule_platform (v : List Turn) : (s.setSchedule v).platform = s.platform := rfl
@[simp] theorem setSchedule_pc (v : List Turn) : (s.setSchedule v).pc = s.pc := rfl
@[simp] theorem setSchedule_sp (v : List Turn) : (s.setSchedule v).sp = s.sp := rfl
@[simp] theorem setSchedule_sr (v : List Turn) : (s.setSchedule v).sr = s.sr := rfl
@[simp] theorem setSchedule_gpr (v : List Turn) : (s.setSchedule v).gpr = s.gpr := rfl
@[simp] theorem setSchedule_ie1 (v : List Turn) : (s.setSchedule v).ie1 = s.ie1 := rfl
@[simp] theorem setSchedule_ie2 (v : List Turn) : (s.setSchedule v).ie2 = s.ie2 := rfl
@[simp] theorem setSchedule_ifg1 (v : List Turn) : (s.setSchedule v).ifg1 = s.ifg1 := rfl
@[simp] theorem setSchedule_ifg2 (v : List Turn) : (s.setSchedule v).ifg2 = s.ifg2 := rfl
@[simp] theorem setSchedule_me1 (v : List Turn) : (s.setSchedule v).me1 = s.me1 := rfl
@[simp] theorem setSchedule_me2 (v : List Turn) : (s.setSchedule v).me2 = s.me2 := rfl
@[simp] theorem setSchedule_wdtctl (v : List Turn) : (s.setSchedule v).wdtctl = s.wdtctl := rfl
@[simp] theorem setSchedule_p0 (v : List Turn) : (s.setSchedule v).p0 = s.p0 := rfl
@[simp] theorem setSchedule_p1 (v : List Turn) : (s.setSchedule v).p1 = s.p1 := rfl
@[simp] theorem setSchedule_p2 (v : List Turn) : (s.setSchedule v).p2 = s.p2 := rfl
@[simp] theorem setSchedule_p1sel (v : List Turn) : (s.setSchedule v).p1sel = s.p1sel := rfl
@[simp] theorem setSchedule_p2sel (v : List Turn) : (s.setSchedule v).p2sel = s.p2sel := rfl
@[simp] theorem setSchedule_modules (v : List Turn) : (s.setSchedule v).modules = s.modules := rfl
@[simp] theorem setSchedule_mem (v : List Turn) : (s.setSchedule v).mem = s.mem := rfl
@[simp] theorem setSchedule_pin (v : List Turn) : (s.setSchedule v).pin = s.pin := rfl
@[simp] theorem setSchedule_hold (v : List Turn) : (s.setSchedule v).hold = s.hold := rfl
@[simp] theorem setSchedule_gieFresh (v : List Turn) : (s.setSchedule v).gieFresh = s.gieFresh := rfl
@[simp] theorem setSchedule_draws (v : List Turn) : (s.setSchedule v).draws = s.draws := rfl
@[simp] theorem setSchedule_schedule (v : List Turn) : (s.setSchedule v).schedule = v := rfl

/-! ### The same field twice -/

@[simp] theorem setPc_setPc (v w : Word) : (s.setPc v).setPc w = s.setPc w := rfl
@[simp] theorem setPc_self : s.setPc s.pc = s := rfl
@[simp] theorem setSp_setSp (v w : Word) : (s.setSp v).setSp w = s.setSp w := rfl
@[simp] theorem setSp_self : s.setSp s.sp = s := rfl
@[simp] theorem setSr_setSr (v w : Word) : (s.setSr v).setSr w = s.setSr w := rfl
@[simp] theorem setSr_self : s.setSr s.sr = s := rfl
@[simp] theorem setGpr_setGpr (v w : Vector Word 12) : (s.setGpr v).setGpr w = s.setGpr w := rfl
@[simp] theorem setGpr_self : s.setGpr s.gpr = s := rfl
@[simp] theorem setIfg1_setIfg1 (v w : Byte) : (s.setIfg1 v).setIfg1 w = s.setIfg1 w := rfl
@[simp] theorem setIfg1_self : s.setIfg1 s.ifg1 = s := rfl
@[simp] theorem setWdtctl_setWdtctl (v w : Byte) : (s.setWdtctl v).setWdtctl w = s.setWdtctl w := rfl
@[simp] theorem setWdtctl_self : s.setWdtctl s.wdtctl = s := rfl
@[simp] theorem setMem_setMem (v w : Memory) : (s.setMem v).setMem w = s.setMem w := rfl
@[simp] theorem setMem_self : s.setMem s.mem = s := rfl
@[simp] theorem setDraws_setDraws (v w : Nat) : (s.setDraws v).setDraws w = s.setDraws w := rfl
@[simp] theorem setDraws_self : s.setDraws s.draws = s := rfl
@[simp] theorem setGieFresh_setGieFresh (v w : Bool) : (s.setGieFresh v).setGieFresh w = s.setGieFresh w := rfl
@[simp] theorem setGieFresh_self : s.setGieFresh s.gieFresh = s := rfl
@[simp] theorem setSchedule_setSchedule (v w : List Turn) : (s.setSchedule v).setSchedule w = s.setSchedule w := rfl
@[simp] theorem setSchedule_self : s.setSchedule s.schedule = s := rfl

/-! ### `setPort` -/

@[simp] theorem setPort_port (id : PortId) (p : Port) : (s.setPort id p).port id = p := by cases id <;> rfl
theorem setPort_port_other {id id' : PortId} (p : Port) (h : id' ≠ id) : (s.setPort id p).port id' = s.port id' := by
  cases id <;> cases id' <;> first | rfl | exact absurd rfl h
@[simp] theorem setPort_platform (id : PortId) (p : Port) : (s.setPort id p).platform = s.platform := by cases id <;> rfl
@[simp] theorem setPort_pc (id : PortId) (p : Port) : (s.setPort id p).pc = s.pc := by cases id <;> rfl
@[simp] theorem setPort_sp (id : PortId) (p : Port) : (s.setPort id p).sp = s.sp := by cases id <;> rfl
@[simp] theorem setPort_sr (id : PortId) (p : Port) : (s.setPort id p).sr = s.sr := by cases id <;> rfl
@[simp] theorem setPort_gpr (id : PortId) (p : Port) : (s.setPort id p).gpr = s.gpr := by cases id <;> rfl
@[simp] theorem setPort_ie1 (id : PortId) (p : Port) : (s.setPort id p).ie1 = s.ie1 := by cases id <;> rfl
@[simp] theorem setPort_ie2 (id : PortId) (p : Port) : (s.setPort id p).ie2 = s.ie2 := by cases id <;> rfl
@[simp] theorem setPort_ifg1 (id : PortId) (p : Port) : (s.setPort id p).ifg1 = s.ifg1 := by cases id <;> rfl
@[simp] theorem setPort_ifg2 (id : PortId) (p : Port) : (s.setPort id p).ifg2 = s.ifg2 := by cases id <;> rfl
@[simp] theorem setPort_me1 (id : PortId) (p : Port) : (s.setPort id p).me1 = s.me1 := by cases id <;> rfl
@[simp] theorem setPort_me2 (id : PortId) (p : Port) : (s.setPort id p).me2 = s.me2 := by cases id <;> rfl
@[simp] theorem setPort_wdtctl (id : PortId) (p : Port) : (s.setPort id p).wdtctl = s.wdtctl := by cases id <;> rfl
@[simp] theorem setPort_p1sel (id : PortId) (p : Port) : (s.setPort id p).p1sel = s.p1sel := by cases id <;> rfl
@[simp] theorem setPort_p2sel (id : PortId) (p : Port) : (s.setPort id p).p2sel = s.p2sel := by cases id <;> rfl
@[simp] theorem setPort_modules (id : PortId) (p : Port) : (s.setPort id p).modules = s.modules := by cases id <;> rfl
@[simp] theorem setPort_mem (id : PortId) (p : Port) : (s.setPort id p).mem = s.mem := by cases id <;> rfl
@[simp] theorem setPort_pin (id : PortId) (p : Port) : (s.setPort id p).pin = s.pin := by cases id <;> rfl
@[simp] theorem setPort_hold (id : PortId) (p : Port) : (s.setPort id p).hold = s.hold := by cases id <;> rfl
@[simp] theorem setPort_gieFresh (id : PortId) (p : Port) : (s.setPort id p).gieFresh = s.gieFresh := by cases id <;> rfl
@[simp] theorem setPort_draws (id : PortId) (p : Port) : (s.setPort id p).draws = s.draws := by cases id <;> rfl
@[simp] theorem setPort_schedule (id : PortId) (p : Port) : (s.setPort id p).schedule = s.schedule := by cases id <;> rfl

end Sys2Proof.Machine.State
end

