-- ==== Sys2Proof/Laws/Registers.lean ====
section
/-! SUPPORT. CPU registers and byte registers: read after write, and what a write leaves alone. -/

namespace Sys2Proof.Machine

variable (s : State)

/-! ### CPU registers (R10 to R13) -/

@[simp] theorem readReg_pc : readReg 0 s = s.pc := rfl
@[simp] theorem readReg_sp : readReg 1 s = s.sp := rfl
@[simp] theorem readReg_sr : readReg 2 s = s.sr := rfl
@[simp] theorem readReg_r3 : readReg 3 s = 0 := rfl

@[simp] theorem setReg_zero (v : Word) : setReg 0 v s = s.setPc v := rfl
@[simp] theorem setReg_one (v : Word) : setReg 1 v s = s.setSp v := rfl
@[simp] theorem setReg_two (v : Word) : setReg 2 v s = s.setSr v := rfl
@[simp] theorem setReg_three (v : Word) : setReg 3 v s = s := rfl

/-- R4 to R15 are the elements of `gpr`. -/
theorem readReg_general {r : Reg} (h : 4 ≤ r.val) : readReg r s = s.gpr[r.val - 4]'(by omega) := by
  have h0 : r ≠ 0 := by rintro rfl; simp at h
  have h1 : r ≠ 1 := by rintro rfl; simp at h
  have h2 : r ≠ 2 := by rintro rfl; simp at h
  simp [readReg, h0, h1, h2, h]

theorem setReg_general {r : Reg} (v : Word) (h : 4 ≤ r.val) :
    setReg r v s = s.setGpr (s.gpr.set (r.val - 4) v (by omega)) := by
  have h0 : r ≠ 0 := by rintro rfl; simp at h
  have h1 : r ≠ 1 := by rintro rfl; simp at h
  have h2 : r ≠ 2 := by rintro rfl; simp at h
  simp [setReg, h0, h1, h2, h]

/-- The five cases of a register number. -/
theorem Reg.cases_special (r : Reg) : r = 0 ∨ r = 1 ∨ r = 2 ∨ r = 3 ∨ 4 ≤ r.val := by
  revert r; decide

/-- A register reads through the fields it is kept in. -/
theorem readReg_congr {s t : State} (hpc : t.pc = s.pc) (hsp : t.sp = s.sp) (hsr : t.sr = s.sr) (hg : t.gpr = s.gpr)
    (r : Reg) : readReg r t = readReg r s := by
  simp [readReg, hpc, hsp, hsr, hg]

theorem readReg_setReg_same {r : Reg} (v : Word) (h : r ≠ 3) : readReg r (setReg r v s) = v := by
  rcases Reg.cases_special r with rfl | rfl | rfl | rfl | h4
  · rfl
  · rfl
  · rfl
  · exact absurd rfl h
  · rw [readReg_general _ h4, setReg_general s v h4]
    simp

theorem readReg_setReg_other {r x : Reg} (v : Word) (h : x ≠ r) : readReg x (setReg r v s) = readReg x s := by
  rcases Reg.cases_special r with rfl | rfl | rfl | rfl | h4
  · have : x ≠ 0 := h
    simp [readReg, this]
  · simp [readReg, h]
  · simp [readReg, h]
  · rfl
  · rw [setReg_general s v h4]
    rcases Reg.cases_special x with rfl | rfl | rfl | rfl | hx
    · rfl
    · rfl
    · rfl
    · rfl
    · rw [readReg_general _ hx, readReg_general _ hx]
      have hne : r.val - 4 ≠ x.val - 4 := by
        intro hc
        exact h (Fin.ext (by omega))
      simp [Vector.getElem_set_ne _ _ hne]

/-- A register write either refuses a reserved SR bit or stores. -/
theorem writeReg_eq_next {r : Reg} {v : Word} {s t : State} :
    writeReg r v s = .next t ↔ ¬(r = 2 ∧ hasReservedSrBit v = true) ∧ t = setReg r v s := by
  unfold writeReg
  split
  · rename_i h
    simp [h]
  · rename_i h
    simp only [h, not_false_eq_true, true_and, Host.Outcome.next.injEq]
    exact eq_comm

@[simp] theorem setReg_platform (r : Reg) (v : Word) : (setReg r v s).platform = s.platform := by unfold setReg; split_ifs <;> rfl
@[simp] theorem setReg_ie1 (r : Reg) (v : Word) : (setReg r v s).ie1 = s.ie1 := by unfold setReg; split_ifs <;> rfl
@[simp] theorem setReg_ie2 (r : Reg) (v : Word) : (setReg r v s).ie2 = s.ie2 := by unfold setReg; split_ifs <;> rfl
@[simp] theorem setReg_ifg1 (r : Reg) (v : Word) : (setReg r v s).ifg1 = s.ifg1 := by unfold setReg; split_ifs <;> rfl
@[simp] theorem setReg_ifg2 (r : Reg) (v : Word) : (setReg r v s).ifg2 = s.ifg2 := by unfold setReg; split_ifs <;> rfl
@[simp] theorem setReg_me1 (r : Reg) (v : Word) : (setReg r v s).me1 = s.me1 := by unfold setReg; split_ifs <;> rfl
@[simp] theorem setReg_me2 (r : Reg) (v : Word) : (setReg r v s).me2 = s.me2 := by unfold setReg; split_ifs <;> rfl
@[simp] theorem setReg_wdtctl (r : Reg) (v : Word) : (setReg r v s).wdtctl = s.wdtctl := by unfold setReg; split_ifs <;> rfl
@[simp] theorem setReg_p0 (r : Reg) (v : Word) : (setReg r v s).p0 = s.p0 := by unfold setReg; split_ifs <;> rfl
@[simp] theorem setReg_p1 (r : Reg) (v : Word) : (setReg r v s).p1 = s.p1 := by unfold setReg; split_ifs <;> rfl
@[simp] theorem setReg_p2 (r : Reg) (v : Word) : (setReg r v s).p2 = s.p2 := by unfold setReg; split_ifs <;> rfl
@[simp] theorem setReg_p1sel (r : Reg) (v : Word) : (setReg r v s).p1sel = s.p1sel := by unfold setReg; split_ifs <;> rfl
@[simp] theorem setReg_p2sel (r : Reg) (v : Word) : (setReg r v s).p2sel = s.p2sel := by unfold setReg; split_ifs <;> rfl
@[simp] theorem setReg_modules (r : Reg) (v : Word) : (setReg r v s).modules = s.modules := by unfold setReg; split_ifs <;> rfl
@[simp] theorem setReg_mem (r : Reg) (v : Word) : (setReg r v s).mem = s.mem := by unfold setReg; split_ifs <;> rfl
@[simp] theorem setReg_pin (r : Reg) (v : Word) : (setReg r v s).pin = s.pin := by unfold setReg; split_ifs <;> rfl
@[simp] theorem setReg_hold (r : Reg) (v : Word) : (setReg r v s).hold = s.hold := by unfold setReg; split_ifs <;> rfl
@[simp] theorem setReg_gieFresh (r : Reg) (v : Word) : (setReg r v s).gieFresh = s.gieFresh := by unfold setReg; split_ifs <;> rfl
@[simp] theorem setReg_draws (r : Reg) (v : Word) : (setReg r v s).draws = s.draws := by unfold setReg; split_ifs <;> rfl
@[simp] theorem setReg_schedule (r : Reg) (v : Word) : (setReg r v s).schedule = s.schedule := by unfold setReg; split_ifs <;> rfl

/-! ### Byte registers (R26 to R40) -/

variable (r : ByteRegister) (v : Byte)

theorem ByteRegister.get_set_same (h : r.isInput = false) : r.get (r.set v s) = v := by
  rcases r with _ | _ | _ | _ | _ | _ | ⟨_ | _ | _, _ | _ | _ | _ | _ | _⟩ | _ | _
  all_goals first | rfl | simp [ByteRegister.isInput] at h

theorem ByteRegister.get_set_other {x : ByteRegister} (h : x ≠ r) : x.get (r.set v s) = x.get s := by
  rcases r with _ | _ | _ | _ | _ | _ | ⟨_ | _ | _, _ | _ | _ | _ | _ | _⟩ | _ | _ <;>
    rcases x with _ | _ | _ | _ | _ | _ | ⟨_ | _ | _, _ | _ | _ | _ | _ | _⟩ | _ | _
  all_goals first | rfl | exact absurd rfl h

/-- A write to an input register leaves the pin levels. -/
theorem ByteRegister.set_input (h : r.isInput = true) : r.set v s = s := by
  rcases r with _ | _ | _ | _ | _ | _ | ⟨_ | _ | _, _ | _ | _ | _ | _ | _⟩ | _ | _
  all_goals first | rfl | simp [ByteRegister.isInput] at h

@[simp] theorem ByteRegister.set_platform : (r.set v s).platform = s.platform := by
  rcases r with _ | _ | _ | _ | _ | _ | ⟨_ | _ | _, _⟩ | _ | _ <;> rfl
@[simp] theorem ByteRegister.set_pc : (r.set v s).pc = s.pc := by
  rcases r with _ | _ | _ | _ | _ | _ | ⟨_ | _ | _, _⟩ | _ | _ <;> rfl
@[simp] theorem ByteRegister.set_sp : (r.set v s).sp = s.sp := by
  rcases r with _ | _ | _ | _ | _ | _ | ⟨_ | _ | _, _⟩ | _ | _ <;> rfl
@[simp] theorem ByteRegister.set_sr : (r.set v s).sr = s.sr := by
  rcases r with _ | _ | _ | _ | _ | _ | ⟨_ | _ | _, _⟩ | _ | _ <;> rfl
@[simp] theorem ByteRegister.set_gpr : (r.set v s).gpr = s.gpr := by
  rcases r with _ | _ | _ | _ | _ | _ | ⟨_ | _ | _, _⟩ | _ | _ <;> rfl
@[simp] theorem ByteRegister.set_wdtctl : (r.set v s).wdtctl = s.wdtctl := by
  rcases r with _ | _ | _ | _ | _ | _ | ⟨_ | _ | _, _⟩ | _ | _ <;> rfl
@[simp] theorem ByteRegister.set_modules : (r.set v s).modules = s.modules := by
  rcases r with _ | _ | _ | _ | _ | _ | ⟨_ | _ | _, _⟩ | _ | _ <;> rfl
@[simp] theorem ByteRegister.set_mem : (r.set v s).mem = s.mem := by
  rcases r with _ | _ | _ | _ | _ | _ | ⟨_ | _ | _, _⟩ | _ | _ <;> rfl
@[simp] theorem ByteRegister.set_pin : (r.set v s).pin = s.pin := by
  rcases r with _ | _ | _ | _ | _ | _ | ⟨_ | _ | _, _⟩ | _ | _ <;> rfl
@[simp] theorem ByteRegister.set_hold : (r.set v s).hold = s.hold := by
  rcases r with _ | _ | _ | _ | _ | _ | ⟨_ | _ | _, _⟩ | _ | _ <;> rfl
@[simp] theorem ByteRegister.set_gieFresh : (r.set v s).gieFresh = s.gieFresh := by
  rcases r with _ | _ | _ | _ | _ | _ | ⟨_ | _ | _, _⟩ | _ | _ <;> rfl
@[simp] theorem ByteRegister.set_draws : (r.set v s).draws = s.draws := by
  rcases r with _ | _ | _ | _ | _ | _ | ⟨_ | _ | _, _⟩ | _ | _ <;> rfl
@[simp] theorem ByteRegister.set_schedule : (r.set v s).schedule = s.schedule := by
  rcases r with _ | _ | _ | _ | _ | _ | ⟨_ | _ | _, _⟩ | _ | _ <;> rfl

@[simp] theorem readReg_set (x : Reg) : readReg x (r.set v s) = readReg x s :=
  readReg_congr (by simp) (by simp) (by simp) (by simp) x

@[simp] theorem ByteRegister.get_setPc (x : Word) : r.get (s.setPc x) = r.get s := by
  rcases r with _ | _ | _ | _ | _ | _ | ⟨_ | _ | _, _⟩ | _ | _ <;> rfl
@[simp] theorem ByteRegister.get_setSp (x : Word) : r.get (s.setSp x) = r.get s := by
  rcases r with _ | _ | _ | _ | _ | _ | ⟨_ | _ | _, _⟩ | _ | _ <;> rfl
@[simp] theorem ByteRegister.get_setSr (x : Word) : r.get (s.setSr x) = r.get s := by
  rcases r with _ | _ | _ | _ | _ | _ | ⟨_ | _ | _, _⟩ | _ | _ <;> rfl
@[simp] theorem ByteRegister.get_setGpr (x : Vector Word 12) : r.get (s.setGpr x) = r.get s := by
  rcases r with _ | _ | _ | _ | _ | _ | ⟨_ | _ | _, _⟩ | _ | _ <;> rfl
@[simp] theorem ByteRegister.get_setWdtctl (x : Byte) : r.get (s.setWdtctl x) = r.get s := by
  rcases r with _ | _ | _ | _ | _ | _ | ⟨_ | _ | _, _⟩ | _ | _ <;> rfl
@[simp] theorem ByteRegister.get_setModules (x : Modules) : r.get (s.setModules x) = r.get s := by
  rcases r with _ | _ | _ | _ | _ | _ | ⟨_ | _ | _, _⟩ | _ | _ <;> rfl
@[simp] theorem ByteRegister.get_setMem (x : Memory) : r.get (s.setMem x) = r.get s := by
  rcases r with _ | _ | _ | _ | _ | _ | ⟨_ | _ | _, _⟩ | _ | _ <;> rfl
@[simp] theorem ByteRegister.get_setDraws (x : Nat) : r.get (s.setDraws x) = r.get s := by
  rcases r with _ | _ | _ | _ | _ | _ | ⟨_ | _ | _, _⟩ | _ | _ <;> rfl
@[simp] theorem ByteRegister.get_setGieFresh (x : Bool) : r.get (s.setGieFresh x) = r.get s := by
  rcases r with _ | _ | _ | _ | _ | _ | ⟨_ | _ | _, _⟩ | _ | _ <;> rfl
@[simp] theorem ByteRegister.get_setSchedule (x : List Turn) : r.get (s.setSchedule x) = r.get s := by
  rcases r with _ | _ | _ | _ | _ | _ | ⟨_ | _ | _, _⟩ | _ | _ <;> rfl

@[simp] theorem ByteRegister.get_setReg (x : Reg) (w : Word) : r.get (setReg x w s) = r.get s := by
  unfold setReg
  split_ifs <;> simp

/-- Different addresses hold different registers. -/
theorem sfrRegister?_injective {a b : Nat} {r : ByteRegister} (ha : sfrRegister? a = some r) (hb : sfrRegister? b = some r) :
    a = b := by
  unfold sfrRegister? at ha hb
  split at ha <;> split at hb <;> simp_all <;> subst ha <;> simp at hb

theorem sfrRegister?_lt {a : Nat} {r : ByteRegister} (h : sfrRegister? a = some r) : a < 6 := by
  unfold sfrRegister? at h
  split at h <;> simp_all

/-- The register found at an address is a port register that has this address. -/
theorem portRegister?_eq_some {p : Platform} {a : Nat} {r : ByteRegister} (h : portRegister? p a = some r) :
    r ∈ portRegisters ∧ p.ports.address? r = some a :=
  ⟨List.mem_of_find?_eq_some h, by simpa using List.find?_some h⟩

theorem portRegister?_injective {p : Platform} {a b : Nat} {r : ByteRegister} (ha : portRegister? p a = some r)
    (hb : portRegister? p b = some r) : a = b := by
  have h := (portRegister?_eq_some ha).2.symm.trans (portRegister?_eq_some hb).2
  simpa using h

/-- A special function register is no port register. -/
theorem sfr_ne_port {p : Platform} {a b : Nat} {r x : ByteRegister} (ha : sfrRegister? a = some r)
    (hb : portRegister? p b = some x) : x ≠ r := by
  have key : ∀ y ∈ List.range 6, ∀ z ∈ portRegisters, some z ≠ sfrRegister? y := by decide
  rintro rfl
  exact key a (by simpa using sfrRegister?_lt ha) x (portRegister?_eq_some hb).1 ha.symm

end Sys2Proof.Machine
end

