-- ==== Sys2Proof/Laws/Access.lean ====
section
/-! SUPPORT. The memory primitives (R68): when they complete, what a read changes, and the two things a write can be. -/

namespace Sys2Proof.Machine

/-! ### Numbers and bit vectors -/

theorem even_iff (a : Word) : a.getLsbD 0 = false ↔ a.toNat % 2 = 0 := by
  rw [BitVec.getLsbD, Nat.testBit_zero]
  simp

theorem succ_toNat {a : Word} (h : a.toNat % 2 = 0) : (a + 1).toNat = a.toNat + 1 := by
  have := a.isLt
  rw [BitVec.toNat_add]
  simp
  omega

theorem loByte_zeroExtend (v : Word) : (loByte v).setWidth 16 = v &&& 0x00FF := by
  apply BitVec.eq_of_getLsbD_eq
  intro i hi
  have h : (0x00FF : Word).getLsbD i = decide (i < 8) := by
    revert i
    decide
  rw [BitVec.getLsbD_and, h]
  simp only [loByte, BitVec.getLsbD_setWidth, hi, decide_true, Bool.true_and]
  exact Bool.and_comm _ _

theorem wordOfBytes_loByte_hiByte (v : Word) : wordOfBytes (loByte v) (hiByte v) = v := by
  apply BitVec.eq_of_getLsbD_eq
  intro i hi
  simp only [wordOfBytes, loByte, hiByte, BitVec.getLsbD_append, BitVec.getLsbD_setWidth, BitVec.getLsbD_ushiftRight]
  by_cases h : i < 8
  · simp [h]
  · have h8 : 8 + (i - 8) = i := by omega
    have : i - 8 < 8 := by omega
    simp [h, this, h8]

theorem narrow_narrow (w : Width) (v : Word) : narrow w (narrow w v) = narrow w v := by
  cases w
  · rfl
  · simp [narrow, BitVec.and_assoc]

theorem narrow_constValue (w : Width) (c : Const) : narrow w (constValue w c) = constValue w c := by
  cases w <;> cases c <;> decide

/-! ### Reads -/

theorem readCell_eq_next {a : Nat} {s : State} {b : Byte} : readCell a s = .next b ↔ s.mem.read a = some b := by
  unfold readCell
  split <;> simp_all

/-- A byte register reads to the same state but for the count of draws, and its defined bits as stored. -/
theorem readIoRegister_spec (r : ByteRegister) (s : State) :
    (∃ n, (readIoRegister r s).2 = s.setDraws n) ∧
      (readIoRegister r s).1 &&& definedBits s.platform.device r = r.get s &&& definedBits s.platform.device r := by
  unfold readIoRegister
  dsimp only
  split
  · exact ⟨⟨s.draws, by simp⟩, rfl⟩
  · refine ⟨⟨_, rfl⟩, ?_⟩
    dsimp only
    apply BitVec.eq_of_getLsbD_eq
    intro i hi
    simp only [BitVec.getLsbD_and, BitVec.getLsbD_or, BitVec.getLsbD_not]
    cases (definedBits s.platform.device r).getLsbD i <;> simp

/-- The byte read from a byte register depends on its store, the device and the count of draws. -/
theorem readIoRegister_fst (r : ByteRegister) (s : State) : (readIoRegister r s).1 =
    (r.get s &&& definedBits s.platform.device r) |||
      (if definedBits s.platform.device r = 0xFF then 0 else Config.freeByte s.draws &&& ~~~definedBits s.platform.device r) := by
  unfold readIoRegister
  dsimp only
  split
  · rename_i h
    rw [h, show (0xFF : Byte) = BitVec.allOnes 8 from rfl, BitVec.and_allOnes]
    simp
  · rfl

/-- What a completed byte read is. -/
theorem readByte_cases {a : Word} {s t : State} {b : Byte} (h : readByte a s = .next (b, t)) :
    (∃ r, registerAt a s = some r ∧ (b, t) = readIoRegister r s) ∨
      ((kindOf s.platform a.toNat = .ram ∨ kindOf s.platform a.toNat = .rom) ∧
        s.mem.read a.toNat = some b ∧ t = s) := by
  unfold readByte at h
  unfold registerAt
  cases hk : kindOf s.platform a.toNat <;> simp only [hk] at h ⊢
  · cases hr : sfrRegister? a.toNat <;> simp_all
  · cases hr : portRegister? s.platform a.toNat <;> simp_all
  · simp at h
  · rw [Result.bind_eq_next] at h
    obtain ⟨x, hx, he⟩ := h
    rw [readCell_eq_next] at hx
    simp_all
  · rw [Result.bind_eq_next] at h
    obtain ⟨x, hx, he⟩ := h
    rw [readCell_eq_next] at hx
    simp_all
  · simp at h

theorem readByte_state {a : Word} {s t : State} {b : Byte} (h : readByte a s = .next (b, t)) :
    ∃ n, t = s.setDraws n := by
  rcases readByte_cases h with ⟨r, -, hr⟩ | ⟨-, -, rfl⟩
  · obtain ⟨⟨n, hn⟩, -⟩ := readIoRegister_spec r s
    exact ⟨n, by rw [← hn, ← hr]⟩
  · exact ⟨t.draws, by simp⟩

theorem readByte_completes (a : Word) (s : State) : (∃ x, readByte a s = .next x) ↔ byteReadable a s = true := by
  unfold readByte byteReadable
  cases kindOf s.platform a.toNat <;> simp only
  · cases sfrRegister? a.toNat <;> simp
  · cases portRegister? s.platform a.toNat <;> simp
  · simp
  · cases h : s.mem.read a.toNat <;> simp [readCell, h]
  · cases h : s.mem.read a.toNat <;> simp [readCell, h]
  · simp

theorem readWord_completes (a : Word) (s : State) : (∃ x, readWord a s = .next x) ↔ wordReadable a s = true := by
  unfold readWord wordReadable
  cases a.getLsbD 0 <;> simp only [Bool.false_eq_true, if_false, if_true, Bool.not_false, Bool.not_true, Bool.true_and,
    Bool.false_and]
  · cases kindOf s.platform a.toNat <;> simp only
    · simp
    · simp
    · by_cases h : a = wdtctlAddress <;> simp [h]
    · cases secondByteRefusal? s.platform a.toNat <;> cases h : s.mem.read a.toNat <;>
        cases h' : s.mem.read (a.toNat + 1) <;> simp [readCell, h, h']
    · cases secondByteRefusal? s.platform a.toNat <;> cases h : s.mem.read a.toNat <;>
        cases h' : s.mem.read (a.toNat + 1) <;> simp [readCell, h, h']
    · simp
  · simp

theorem readMem_completes (w : Width) (a : Word) (s : State) :
    (∃ x, readMem w a s = .next x) ↔ memReadable w a s = true := by
  cases w
  · simp only [readMem, memReadable, ← readWord_completes, Result.bind_eq_next]
    exact ⟨fun ⟨_, v, hv, _⟩ => ⟨v, hv⟩, fun ⟨v, hv⟩ => ⟨_, v, hv, rfl⟩⟩
  · simp only [readMem, memReadable, ← readByte_completes, Result.bind_eq_next]
    exact ⟨fun ⟨_, v, hv, _⟩ => ⟨v, hv⟩, fun ⟨v, hv⟩ => ⟨_, v, hv, rfl⟩⟩

/-- A completed read changes nothing but the count of draws, and gives a value of its width. -/
theorem readMem_spec {w : Width} {a v : Word} {s t : State} (h : readMem w a s = .next (v, t)) :
    (∃ n, t = s.setDraws n) ∧ narrow w v = v := by
  cases w
  · simp only [readMem, Result.bind_eq_next] at h
    obtain ⟨x, -, hx⟩ := h
    simp only [Host.Outcome.next.injEq, Prod.mk.injEq] at hx
    exact ⟨⟨s.draws, by rw [← hx.2]; simp⟩, rfl⟩
  · simp only [readMem, Result.bind_eq_next] at h
    obtain ⟨⟨b, u⟩, hb, hx⟩ := h
    simp only [Host.Outcome.next.injEq, Prod.mk.injEq] at hx
    obtain ⟨n, hn⟩ := readByte_state hb
    refine ⟨⟨n, by rw [← hx.2, hn]⟩, ?_⟩
    rw [← hx.1]
    simp only [narrow]
    apply BitVec.eq_of_getLsbD_eq
    intro i hi
    have h8 : (0x00FF : Word).getLsbD i = decide (i < 8) := by
      revert i
      decide
    rw [BitVec.getLsbD_and, h8]
    simp only [BitVec.getLsbD_setWidth]
    by_cases h : i < 8
    · simp [h]
    · simp [h, BitVec.getLsbD_of_ge _ _ (by omega : 8 ≤ i)]

/-- A word reads the same where memory, WDTCTL and the platform are the same. -/
theorem readWord_congr {a : Word} {s t : State} (hp : t.platform = s.platform) (hw : t.wdtctl = s.wdtctl)
    (hm : t.mem = s.mem) : readWord a t = readWord a s := by
  simp [readWord, readCell, hp, hw, hm]

/-- A word of ROM reads the same where ROM and the platform are the same. -/
theorem readWord_rom_congr {a : Word} {s t : State} (hp : t.platform = s.platform) (hk : kindOf s.platform a.toNat = .rom)
    (hk' : kindOf s.platform (a.toNat + 1) = .rom)
    (hm : ∀ x, kindOf s.platform x = .rom → t.mem.read x = s.mem.read x) : readWord a t = readWord a s := by
  simp [readWord, hp, hk, readCell, hm _ hk, hm _ hk']

/-! ### Writes -/

/-- A completed byte write is a store to RAM or to a byte register. -/
theorem writeByte_eq_next {a : Word} {v : Byte} {s t : State} : writeByte a v s = .next t ↔
    (kindOf s.platform a.toNat = .ram ∧ t = s.setMem (s.mem.write a.toNat v)) ∨
      ∃ r, registerAt a s = some r ∧ ¬(r = .ie1 ∧ v.getLsbD 1 = true) ∧
        t = r.set (v &&& definedBits s.platform.device r) s := by
  unfold writeByte registerAt
  cases kindOf s.platform a.toNat <;> simp only
  · cases sfrRegister? a.toNat with
    | none => simp
    | some r =>
      simp only [writeIoRegister, Option.some.injEq, exists_eq_left', reduceCtorEq, false_and, false_or]
      split
      · rename_i h; simp [h]
      · rename_i h
        simp only [h, not_false_eq_true, true_and, Host.Outcome.next.injEq]
        exact eq_comm
  · cases portRegister? s.platform a.toNat with
    | none => simp
    | some r =>
      simp only [writeIoRegister, Option.some.injEq, exists_eq_left', reduceCtorEq, false_and, false_or]
      split
      · rename_i h; simp [h]
      · rename_i h
        simp only [h, not_false_eq_true, true_and, Host.Outcome.next.injEq]
        exact eq_comm
  · split <;> simp
  · simp only [Host.Outcome.next.injEq, true_and, reduceCtorEq, false_and, exists_false, or_false]
    exact eq_comm
  · simp
  · simp

/-- A completed word write is a store to RAM, or a write of WDTCTL. -/
theorem writeWord_eq_next {a v : Word} {s t : State} : writeWord a v s = .next t ↔
    (a.getLsbD 0 = false ∧ wordInRam s.platform a.toNat = true ∧
        t = s.setMem ((s.mem.write a.toNat (loByte v)).write (a.toNat + 1) (hiByte v))) ∨
      (a = wdtctlAddress ∧ writeWdtctl v s = .next t) := by
  have hw : kindOf s.platform wdtctlAddress.toNat = .peripheral16 := kindOf_wdtctl s.platform
  have ho : wdtctlAddress.getLsbD 0 = false := by decide
  by_cases ha : a = wdtctlAddress
  · subst ha
    simp only [writeWord, ho, hw, wordInRam_iff, if_true, if_false, Bool.false_eq_true, reduceCtorEq, true_and, false_and,
      false_or]
  · unfold writeWord
    cases a.getLsbD 0 <;> simp only [if_true, if_false, Bool.false_eq_true, Bool.true_eq_false, ha, false_and, or_false,
      reduceCtorEq, true_and]
    simp only [wordInRam_iff]
    cases kindOf s.platform a.toNat <;> simp only [reduceCtorEq, false_and, true_and]
    cases hk : kindOf s.platform (a.toNat + 1) <;>
      simp only [secondByteRefusal?, hk, reduceCtorEq, false_and, true_and, if_true, if_false, Host.Outcome.next.injEq]
    exact eq_comm

/-- A write of WDTCTL, from its address. -/
theorem writeWord_wdtctl (v : Word) (s : State) : writeWord wdtctlAddress v s = writeWdtctl v s := by
  have hw : kindOf s.platform wdtctlAddress.toNat = .peripheral16 := kindOf_wdtctl s.platform
  have ho : wdtctlAddress.getLsbD 0 = false := by decide
  simp only [writeWord, ho, hw, if_true, if_false, Bool.false_eq_true]

/-- What a completed store is, away from WDTCTL: RAM or a byte register takes it. -/
theorem writeMem_eq_next {w : Width} {a v : Word} {s t : State} (ha : a ≠ wdtctlAddress) : writeMem w a v s = .next t ↔
    (w = .word ∧ a.getLsbD 0 = false ∧ wordInRam s.platform a.toNat = true ∧
        t = s.setMem ((s.mem.write a.toNat (loByte v)).write (a.toNat + 1) (hiByte v))) ∨
      (w = .byte ∧ kindOf s.platform a.toNat = .ram ∧ t = s.setMem (s.mem.write a.toNat (loByte v))) ∨
      (w = .byte ∧ ∃ r, registerAt a s = some r ∧ ¬(r = .ie1 ∧ (loByte v).getLsbD 1 = true) ∧
        t = r.set (loByte v &&& definedBits s.platform.device r) s) := by
  cases w
  · simp [writeMem, writeWord_eq_next, ha]
  · simp [writeMem, writeByte_eq_next]

/-! ### What a byte address holds -/

theorem storedByte_congr {s t : State} (hp : t.platform = s.platform) (hr : ∀ r : ByteRegister, r.get t = r.get s)
    (hw : t.wdtctl = s.wdtctl) (hm : t.mem = s.mem) (b : Nat) : storedByte b t = storedByte b s := by
  simp [storedByte, hp, hr, hw, hm]

@[simp] theorem storedByte_setPc (v : Word) (s : State) (b : Nat) : storedByte b (s.setPc v) = storedByte b s :=
  storedByte_congr (by simp) (by simp) (by simp) (by simp) b
@[simp] theorem storedByte_setSp (v : Word) (s : State) (b : Nat) : storedByte b (s.setSp v) = storedByte b s :=
  storedByte_congr (by simp) (by simp) (by simp) (by simp) b
@[simp] theorem storedByte_setSr (v : Word) (s : State) (b : Nat) : storedByte b (s.setSr v) = storedByte b s :=
  storedByte_congr (by simp) (by simp) (by simp) (by simp) b
@[simp] theorem storedByte_setDraws (n : Nat) (s : State) (b : Nat) : storedByte b (s.setDraws n) = storedByte b s :=
  storedByte_congr (by simp) (by simp) (by simp) (by simp) b
@[simp] theorem storedByte_setGieFresh (x : Bool) (s : State) (b : Nat) :
    storedByte b (s.setGieFresh x) = storedByte b s :=
  storedByte_congr (by simp) (by simp) (by simp) (by simp) b
@[simp] theorem storedByte_setReg (r : Reg) (v : Word) (s : State) (b : Nat) :
    storedByte b (setReg r v s) = storedByte b s :=
  storedByte_congr (by simp) (by simp) (by simp) (by simp) b

/-- A byte register's store changes its own address only. -/
theorem storedByte_set_other {a : Word} {s : State} {r : ByteRegister} (v : Byte) {b : Nat}
    (ha : registerAt a s = some r) (hb : b ≠ a.toNat) : storedByte b (r.set v s) = storedByte b s := by
  have key : ∀ x, (sfrRegister? b = some x ∨ portRegister? s.platform b = some x) → x ≠ r := by
    rintro x hx rfl
    unfold registerAt at ha
    split at ha
    · rcases hx with hx | hx
      · exact hb (sfrRegister?_injective hx ha)
      · exact sfr_ne_port ha hx rfl
    · rcases hx with hx | hx
      · exact sfr_ne_port hx ha rfl
      · exact hb (portRegister?_injective hx ha)
    all_goals simp at ha
  unfold storedByte
  simp only [ByteRegister.set_platform]
  cases kindOf s.platform b <;> simp only [ByteRegister.set_wdtctl, ByteRegister.set_mem]
  · cases hx : sfrRegister? b with
    | none => rfl
    | some x => simp [ByteRegister.get_set_other _ _ _ (key x (.inl hx))]
  · cases hx : portRegister? s.platform b with
    | none => rfl
    | some x => simp [ByteRegister.get_set_other _ _ _ (key x (.inr hx))]

/-- Storing bytes in RAM changes their addresses only. -/
theorem storedByte_setMem {s : State} {m : Memory} {b : Nat} (h : m.read b = s.mem.read b) :
    storedByte b (s.setMem m) = storedByte b s := by
  simp [storedByte, h]

end Sys2Proof.Machine
end

