-- ==== Sys2Proof/Laws/Decode.lean ====
section
/-! SUPPORT. The fields of instruction words, and what a word matches in the opcode map (R71, R72, R78). -/

namespace Sys2Proof

variable {opcode sreg ad bw as dreg : Nat}

/-- A Format I word as a number. -/
theorem formatIWord_toNat (h0 : opcode < 16) (h1 : sreg < 16) (h2 : ad < 2) (h3 : bw < 2) (h4 : as < 4) (h5 : dreg < 16) :
    (formatIWord opcode sreg ad bw as dreg).toNat =
      opcode * 4096 + sreg * 256 + ad * 128 + bw * 64 + as * 16 + dreg := by
  rw [formatIWord, BitVec.toNat_ofNat]
  omega

/-- The fields of a Format I word. -/
theorem formatIWord_fields (h0 : opcode < 16) (h1 : sreg < 16) (h2 : ad < 2) (h3 : bw < 2) (h4 : as < 4) (h5 : dreg < 16) :
    bitField (formatIWord opcode sreg ad bw as dreg) 8 4 = sreg ∧ bitField (formatIWord opcode sreg ad bw as dreg) 7 1 = ad ∧
      bitField (formatIWord opcode sreg ad bw as dreg) 6 1 = bw ∧ bitField (formatIWord opcode sreg ad bw as dreg) 4 2 = as ∧
      bitField (formatIWord opcode sreg ad bw as dreg) 0 4 = dreg := by
  simp only [bitField, formatIWord_toNat h0 h1 h2 h3 h4 h5]
  omega

/-- The fields of a PUSH word. -/
theorem pushWord_fields (h4 : as < 4) (h5 : dreg < 16) :
    (BitVec.ofNat 16 (0x48 * 64 + as * 16 + dreg)).toNat = 0x48 * 64 + as * 16 + dreg ∧
      bitField (BitVec.ofNat 16 (0x48 * 64 + as * 16 + dreg)) 4 2 = as ∧
      bitField (BitVec.ofNat 16 (0x48 * 64 + as * 16 + dreg)) 0 4 = dreg := by
  have h : (BitVec.ofNat 16 (0x48 * 64 + as * 16 + dreg)).toNat = 0x48 * 64 + as * 16 + dreg := by
    rw [BitVec.toNat_ofNat]
    omega
  refine ⟨h, ?_⟩
  simp only [bitField, h]
  omega

/-- The row a word matches, written out. -/
theorem lookupOpcode_eq (w : Word) : lookupOpcode w =
    if w.toNat = 0xD232 then some .eint else if w.toNat / 16 = 0x413 then some .pop
    else if w.toNat = 0x1300 then some .reti else if w.toNat / 64 = 0x48 then some .push
    else if w.toNat / 4096 = 4 then some .mov else if w.toNat / 4096 = 0xC then some .bic
    else if w.toNat / 4096 = 0xD then some .bis else none := by
  simp only [lookupOpcode, opcodeTable, List.find?, OpcodeRow.hit, Nat.pow_zero, Nat.div_one]
  norm_num only
  repeat' split
  all_goals simp_all

theorem Src.fields_lt (src : Src) : src.fields.1 < 4 ∧ src.fields.2.1 < 16 := by
  cases src with
  | const c => cases c <;> decide
  | reg r | indirect r | indirectInc r | indexed r x => exact ⟨by simp [Src.fields], r.isLt⟩
  | symbolic _ | absolute _ | imm _ => simp [Src.fields]

theorem Dst.fields_lt (dst : Dst) : dst.fields.1 < 2 ∧ dst.fields.2.1 < 16 := by
  cases dst with
  | reg r | indexed r x => exact ⟨by simp [Dst.fields], r.isLt⟩
  | symbolic _ | absolute _ => simp [Dst.fields]

theorem Width.bit_lt (w : Width) : w.bit < 2 := by cases w <;> decide

/-- The source decoder undoes the source's fields. -/
theorem decodeSource_fields {src : Src} (h : src.exists = true) (rest : List Word) :
    decodeSource src.fields.1 (Fin.ofNat 16 src.fields.2.1) (src.fields.2.2 ++ rest) = .ok (src, rest) := by
  cases src with
  | const c => cases c <;> rfl
  | symbolic _ | absolute _ | imm _ => rfl
  | reg r | indexed r x | indirect r | indirectInc r =>
    simp only [Src.exists, Reg.isBase, Bool.and_eq_true, bne_iff_ne, ne_eq] at h
    simp [Src.fields, decodeSource, h, withExtension]

/-- The destination decoder undoes the destination's fields. -/
theorem decodeDest_fields {dst : Dst} (h : dst.exists = true) (rest : List Word) :
    decodeDest dst.fields.1 (Fin.ofNat 16 dst.fields.2.1) (dst.fields.2.2 ++ rest) = .ok (dst, rest) := by
  cases dst with
  | reg r => simp [Dst.fields, decodeDest]
  | symbolic _ | absolute _ => rfl
  | indexed r x =>
    simp only [Dst.exists, Reg.isBase, Bool.and_eq_true, bne_iff_ne, ne_eq] at h
    simp [Dst.fields, decodeDest, h, withExtension]

/-- What the source decoder answers is a form that exists, and its fields are what was decoded. -/
theorem decodeSource_inv {as : Nat} {r : Reg} {ws ws1 : List Word} {src : Src} (ha : as < 4)
    (h : decodeSource as r ws = .ok (src, ws1)) :
    src.exists = true ∧ src.fields.1 = as ∧ src.fields.2.1 = r.val ∧ src.fields.2.2 ++ ws1 = ws := by
  have : as = 0 ∨ as = 1 ∨ as = 2 ∨ as = 3 := by omega
  rcases this with rfl | rfl | rfl | rfl <;> simp only [decodeSource] at h <;>
    (repeat' split at h) <;> (try cases ws) <;>
    simp_all [withExtension] <;> (obtain ⟨rfl, rfl⟩ := h) <;>
    simp_all [Src.exists, Src.fields, Reg.isBase]

/-- What the destination decoder answers is a form that exists, and its fields are what was decoded. -/
theorem decodeDest_inv {ad : Nat} {r : Reg} {ws ws1 : List Word} {dst : Dst} (ha : ad < 2)
    (h : decodeDest ad r ws = .ok (dst, ws1)) :
    dst.exists = true ∧ dst.fields.1 = ad ∧ dst.fields.2.1 = r.val ∧ dst.fields.2.2 ++ ws1 = ws := by
  have : ad = 0 ∨ ad = 1 := by omega
  rcases this with rfl | rfl <;> simp only [decodeDest] at h <;>
    (repeat' split at h) <;> (try cases ws) <;>
    simp_all [withExtension] <;> (obtain ⟨rfl, rfl⟩ := h) <;>
    simp_all [Dst.exists, Dst.fields, Reg.isBase]

theorem decodeWidth_bit (w : Width) : decodeWidth w.bit = w := by cases w <;> rfl

end Sys2Proof
end

