-- ==== Sys2Proof/Laws/Reset.lean ====
section
/-! SUPPORT. The reset transition (R177) and the write of WDTCTL (R112): when they complete and what they leave. -/

namespace Sys2Proof.Machine

/-! ### The vector table -/

/-- A word of the vector table is in ROM (R54). -/
theorem kindOf_resetVector (p : Platform) : kindOf p resetVector.toNat = .rom := kindOf_vectors p (by decide) (by decide)

/-- The reset vector reads the same while ROM is the same. -/
theorem readWord_resetVector_congr {s t : State} (hp : t.platform = s.platform)
    (hm : ∀ x, kindOf s.platform x = .rom → t.mem.read x = s.mem.read x) :
    readWord resetVector t = readWord resetVector s :=
  readWord_rom_congr hp (kindOf_resetVector _) (kindOf_vectors _ (by decide) (by decide)) hm

theorem readWord_resetVector_resetState (cause : ResetCause) (s : State) :
    readWord resetVector (resetState cause s) = readWord resetVector s := by
  refine readWord_resetVector_congr (t := resetState cause s) (s := s) rfl fun x hx => ?_
  simp [resetState, Memory.read_keepRom, hx]

/-! ### The reset transition -/

/-- A reset ends in the state it prepares, with PC from the vector. -/
theorem resetTransition_eq_next {cause : ResetCause} {s t : State} : resetTransition cause s = .next t ↔
    ∃ v, readWord resetVector s = .next v ∧ t = (resetState cause s).setPc v := by
  unfold resetTransition
  rw [readWord_resetVector_resetState, Result.bind_eq_next]
  simp only [Host.Outcome.next.injEq]
  exact ⟨fun ⟨v, hv, ht⟩ => ⟨v, hv, ht.symm⟩, fun ⟨v, hv, ht⟩ => ⟨v, hv, ht.symm⟩⟩

theorem resetTransition_completes (cause : ResetCause) (s : State) :
    (∃ t, resetTransition cause s = .next t) ↔ wordReadable resetVector s = true := by
  simp only [resetTransition_eq_next, ← readWord_completes]
  exact ⟨fun ⟨_, v, hv, _⟩ => ⟨v, hv⟩, fun ⟨v, hv⟩ => ⟨_, v, hv, rfl⟩⟩

/-- With GIE, NMIIFG and OFIE clear, as after a reset, no source requests (R115 to R117). -/
theorem acceptedSource_eq_none {s : State} (deferred : Bool) (hg : gieBit s.sr = false) (hn : s.ifg1.getLsbD 4 = false)
    (ho : s.ie1.getLsbD 1 = false) : acceptedSource deferred s = none := by
  rw [acceptedSource, List.find?_eq_none]
  intro src _
  cases src with
  | nmi =>
    have hn' : nmiifg.get s = false := hn
    simp [requests, flagAndEnable, hn', ho, -BitVec.getLsbD_eq_getElem]
  | row n => simp [requests, hg, Source.isMaskable]

/-! ### WDTCTL -/

/-- The store in WDTCTL changes WDTCTL, by a draw NMIIFG, and then the count of draws (R112, R120). -/
theorem storeWdtctl_eq (v : Byte) (s : State) : storeWdtctl v s = { s with
    wdtctl := v &&& wdtctlStored
    ifg1 := if changesEdgeInNmiMode s.wdtctl v then s.ifg1 ||| (Config.freeByte s.draws &&& 0x10) else s.ifg1
    draws := if changesEdgeInNmiMode s.wdtctl v then s.draws + 1 else s.draws } := by
  unfold storeWdtctl
  split <;> simp_all [State.setWdtctl]

theorem wordReadable_resetVector_storeWdtctl (v : Byte) (s : State) :
    wordReadable resetVector (storeWdtctl v s) = wordReadable resetVector s := by
  simp [storeWdtctl_eq, wordReadable, kindOf_resetVector]

theorem writeWdtctl_completes (v : Word) (s : State) : (∃ t, writeWdtctl v s = .next t) ↔
    (!writeCausesReset wdtctlAddress v s || wordReadable resetVector s) = true := by
  unfold writeWdtctl writeCausesReset
  cases wrongKey v s <;> cases hs : selectsLowResetPin v s <;>
    simp [resetTransition_completes, wordReadable_resetVector_storeWdtctl]

end Sys2Proof.Machine
end

