-- ==== Sys2Proof/Laws/Operands.lean ====
section
/-! SUPPORT. Operands (R74 to R77), register writes and the stack: what each completed operation leaves. -/

namespace Sys2Proof.Machine

variable {s t s1 : State} {w : Width} {v : Word}

/-! ### Advancing PC -/

@[simp] theorem advance_sp : s.advance.sp = s.sp := rfl
@[simp] theorem advance_sr : s.advance.sr = s.sr := rfl
@[simp] theorem advance_pc : s.advance.pc = s.pc + 2 := rfl
@[simp] theorem advance_platform : s.advance.platform = s.platform := rfl
@[simp] theorem storedByte_advance (b : Nat) : storedByte b s.advance = storedByte b s := storedByte_setPc _ _ _

theorem readReg_advance {r : Reg} (h : r ≠ 0) : readReg r s.advance = readReg r s := readReg_setReg_other s (s.pc + 2) h

theorem readWord_advance (a : Word) : readWord a s.advance = readWord a s := readWord_congr rfl rfl rfl

/-! ### Sources -/

/-- The state after a completed source operand: PC past its extension word, the autoincrement done, and nothing else
but the count of draws. -/
theorem resolveSource_state {src : Src} (h : resolveSource w src s = .next (v, s1)) : ∃ n, s1 = match src with
    | .indexed _ _ | .symbolic _ | .absolute _ | .imm _ => (s.setDraws n).advance
    | .indirectInc r => setReg r (readReg r s + incrementOf w r) (s.setDraws n)
    | .reg _ | .indirect _ | .const _ => s.setDraws n := by
  cases src with
  | reg _ | const _ =>
    simp only [resolveSource, Host.Outcome.next.injEq, Prod.mk.injEq] at h
    exact ⟨s.draws, h.2.symm⟩
  | imm _ =>
    simp only [resolveSource, Host.Outcome.next.injEq, Prod.mk.injEq] at h
    exact ⟨s.draws, h.2.symm⟩
  | indexed _ _ | symbolic _ | absolute _ =>
    obtain ⟨⟨n, rfl⟩, -⟩ := readMem_spec h
    exact ⟨n, rfl⟩
  | indirect _ =>
    obtain ⟨⟨n, rfl⟩, -⟩ := readMem_spec h
    exact ⟨n, rfl⟩
  | indirectInc r =>
    simp only [resolveSource, Result.bind_eq_next] at h
    obtain ⟨⟨x, u⟩, hx, he⟩ := h
    obtain ⟨⟨n, rfl⟩, -⟩ := readMem_spec hx
    simp only [Host.Outcome.next.injEq, Prod.mk.injEq] at he
    exact ⟨n, by rw [← he.2]; rfl⟩

/-- A source value has the width of the operation. -/
theorem resolveSource_width {src : Src} (h : resolveSource w src s = .next (v, s1)) : narrow w v = v := by
  cases src with
  | reg _ | imm _ =>
    simp only [resolveSource, Host.Outcome.next.injEq, Prod.mk.injEq] at h
    rw [← h.1, narrow_narrow]
  | const c =>
    simp only [resolveSource, Host.Outcome.next.injEq, Prod.mk.injEq] at h
    rw [← h.1, narrow_constValue]
  | indexed _ _ | symbolic _ | absolute _ | indirect _ => exact (readMem_spec h).2
  | indirectInc r =>
    simp only [resolveSource, Result.bind_eq_next] at h
    obtain ⟨⟨x, u⟩, hx, he⟩ := h
    simp only [Host.Outcome.next.injEq, Prod.mk.injEq] at he
    rw [← he.1, (readMem_spec hx).2]

/-! ### Destinations -/

/-- Resolving a destination moves PC past its extension word, if it has one, and does nothing else. -/
theorem resolveDest_state (dst : Dst) (s : State) : (resolveDest dst s).2 = s ∨ (resolveDest dst s).2 = s.advance := by
  cases dst <;> simp [resolveDest]

theorem resolveDest_congr_draws (dst : Dst) (n : Nat) (s : State) :
    resolveDest dst (s.setDraws n) = ((resolveDest dst s).1, (resolveDest dst s).2.setDraws n) := by
  cases dst <;> rfl

theorem readLoc_spec {l : Loc} (h : readLoc w l s = .next (v, s1)) : (∃ n, s1 = s.setDraws n) ∧ narrow w v = v := by
  cases l with
  | mem a => exact readMem_spec h
  | reg r =>
    simp only [readLoc, Host.Outcome.next.injEq, Prod.mk.injEq] at h
    exact ⟨⟨s.draws, by rw [← h.2]; simp⟩, by rw [← h.1, narrow_narrow]⟩

theorem readLoc_completes (w : Width) (l : Loc) (s : State) :
    (∃ x, readLoc w l s = .next x) ↔ locReadable w l s = true := by
  cases l with
  | mem a => exact readMem_completes w a s
  | reg r => simp [readLoc, locReadable]

/-! ### The stack -/

theorem popWord_eq_next : popWord s = .next (v, t) ↔ readWord s.sp s = .next v ∧ t = s.setSp (s.sp + 2) := by
  simp only [popWord, Result.bind_eq_next, Host.Outcome.next.injEq, Prod.mk.injEq]
  constructor
  · rintro ⟨x, hx, rfl, rfl⟩
    exact ⟨hx, rfl⟩
  · rintro ⟨hx, rfl⟩
    exact ⟨v, hx, rfl, rfl⟩

/-- A push that is no write of WDTCTL is a store at the new SP, and goes on. -/
theorem pushThen_eq_bind {k : State → Result State} (h : s.sp - 2 ≠ wdtctlAddress) :
    pushThen v s k = (writeWord (s.sp - 2) v (s.setSp (s.sp - 2))).bind k := by
  have hc : writeCausesReset (s.sp - 2) v (s.setSp (s.sp - 2)) = false := by
    rw [writeCausesReset, beq_eq_false_iff_ne.2 h, Bool.false_and]
  simp only [pushThen, State.setSp_sp, hc, Bool.false_eq_true, if_false]

/-- A push that is no write of WDTCTL completes exactly when the word below SP is in RAM. -/
theorem pushThen_eq_next {k : State → Result State} (h : s.sp - 2 ≠ wdtctlAddress) : pushThen v s k = .next t ↔
    (s.sp - 2).getLsbD 0 = false ∧ wordInRam s.platform (s.sp - 2).toNat = true ∧
      k ((s.setSp (s.sp - 2)).setMem
        ((s.mem.write (s.sp - 2).toNat (loByte v)).write ((s.sp - 2).toNat + 1) (hiByte v))) = .next t := by
  rw [pushThen_eq_bind h, Result.bind_eq_next]
  simp only [writeWord_eq_next, h, false_and, or_false, State.setSp_platform, State.setSp_mem]
  constructor
  · rintro ⟨u, ⟨h1, h2, rfl⟩, hk⟩
    exact ⟨h1, h2, hk⟩
  · rintro ⟨h1, h2, hk⟩
    exact ⟨_, ⟨h1, h2, rfl⟩, hk⟩

/-- The two bytes of a word written to RAM read back as the word. -/
theorem readWord_setMem_write {a : Word} (ho : a.getLsbD 0 = false) (hk : wordInRam s.platform a.toNat = true) :
    readWord a (s.setMem ((s.mem.write a.toNat (loByte v)).write (a.toNat + 1) (hiByte v))) = .next v := by
  have hr : ((s.mem.write a.toNat (loByte v)).write (a.toNat + 1) (hiByte v)).read a.toNat = some (loByte v) := by
    rw [Memory.read_write_other _ _ (by omega), Memory.read_write_same]
  simp only [readWord, ho, Bool.false_eq_true, if_false, State.setMem_platform, (wordInRam_iff.1 hk).1,
    secondByteRefusal?_of_wordInRam hk, readCell, State.setMem_mem, hr, Result.bind_next, Memory.read_write_same, wordOfBytes_loByte_hiByte]

/-- A word in RAM or ROM reads the same where its two bytes are the same. -/
theorem readWord_mem_congr {a : Word} (hp : t.platform = s.platform)
    (hk : kindOf s.platform a.toNat = .ram ∨ kindOf s.platform a.toNat = .rom)
    (h0 : t.mem.read a.toNat = s.mem.read a.toNat) (h1 : t.mem.read (a.toNat + 1) = s.mem.read (a.toNat + 1)) :
    readWord a t = readWord a s := by
  rcases hk with hk | hk <;> simp [readWord, hp, hk, readCell, h0, h1]

end Sys2Proof.Machine
end

