-- ==== Sys2Proof/Laws/Interrupts.lean ====
section
/-! SUPPORT. Interrupt entry and return (R90, R124 to R130): what each completed operation leaves. -/

namespace Sys2Proof.Machine

variable {s t : State} {src : Source}

/-! ### Flags (R29, R30, R39, R125) -/

theorem bitMask_getLsbD (n : Fin 8) (i : Nat) : (bitMask n).getLsbD i = decide (i = n.val) := by
  have := n.isLt
  rw [bitMask, BitVec.getLsbD_twoPow]
  by_cases h : n.val = i <;> simp [h, eq_comm] <;> omega

/-- A bit of a byte after one of them is put. -/
theorem putBit_getLsbD (v : Byte) (n : Fin 8) (b : Bool) (i : Nat) :
    (putBit v n b).getLsbD i = if i = n.val then b else v.getLsbD i := by
  have := n.isLt
  unfold putBit
  cases b <;> simp only [Bool.false_eq_true, if_false, if_true, BitVec.getLsbD_or, BitVec.getLsbD_and,
    BitVec.getLsbD_not, bitMask_getLsbD]
  all_goals
    by_cases h : i = n.val
    · simp [h]
    · by_cases h8 : i < 8
      · simp [h, h8]
      · simp [h, BitVec.getLsbD_of_ge v i (by omega)]

@[simp] theorem FlagBit.get_put_same (f : FlagBit) (b : Bool) (s : State) : f.get (f.put b s) = b := by
  cases f <;> simp [FlagBit.get, FlagBit.put, putBit_getLsbD, -BitVec.getLsbD_eq_getElem]

theorem FlagBit.get_put_other {f g : FlagBit} (b : Bool) (s : State) (h : g ≠ f) : g.get (f.put b s) = g.get s := by
  cases f <;> cases g <;> simp only [FlagBit.get, FlagBit.put, State.setIfg1_ifg1, State.setIfg1_ifg2, State.setIfg2_ifg1,
    State.setIfg2_ifg2, State.setModules_modules, State.setModules_ifg1, State.setModules_ifg2, State.setIfg1_modules,
    State.setIfg2_modules, State.setPort_ifg1, State.setPort_ifg2, State.setPort_modules] <;> try rfl
  case ifg1.ifg1 n m => rw [putBit_getLsbD, if_neg fun e => h (by rw [Fin.ext e])]
  case ifg2.ifg2 n m => rw [putBit_getLsbD, if_neg fun e => h (by rw [Fin.ext e])]
  case port.port p n q m =>
    by_cases hp : q = p
    · subst hp
      rw [State.setPort_port, putBit_getLsbD, if_neg fun e => h (by rw [Fin.ext e])]
    · rw [State.setPort_port_other _ _ hp]
  case module.module i j =>
    have hne : i.val ≠ j.val := fun e => h (by rw [Fin.ext e])
    exact Vector.getElem_set_ne _ _ hne

/-- Nothing but flags, and the count of draws, differs. -/
structure SameButFlags (s t : State) : Prop where
  platform : t.platform = s.platform
  cpu      : ∀ r, readReg r t = readReg r s
  byteRegs : ∀ r : ByteRegister, r.isFlags = false → r.get t = r.get s
  wdtctl   : t.wdtctl = s.wdtctl
  enables  : t.modules.enables = s.modules.enables
  mem      : t.mem = s.mem
  pin      : t.pin = s.pin
  hold     : t.hold = s.hold
  gieFresh : t.gieFresh = s.gieFresh
  schedule : t.schedule = s.schedule

theorem SameButFlags.refl (s : State) : SameButFlags s s := by constructor <;> simp

theorem SameButFlags.trans {s t u : State} (h : SameButFlags s t) (h' : SameButFlags t u) : SameButFlags s u where
  platform := h'.platform.trans h.platform
  cpu r := (h'.cpu r).trans (h.cpu r)
  byteRegs r hr := (h'.byteRegs r hr).trans (h.byteRegs r hr)
  wdtctl := h'.wdtctl.trans h.wdtctl
  enables := h'.enables.trans h.enables
  mem := h'.mem.trans h.mem
  pin := h'.pin.trans h.pin
  hold := h'.hold.trans h.hold
  gieFresh := h'.gieFresh.trans h.gieFresh
  schedule := h'.schedule.trans h.schedule

theorem SameButFlags.setDraws (n : Nat) (s : State) : SameButFlags s (s.setDraws n) where
  platform := rfl
  cpu _ := rfl
  byteRegs r _ := ByteRegister.get_setDraws s r n
  wdtctl := rfl
  enables := rfl
  mem := rfl
  pin := rfl
  hold := rfl
  gieFresh := rfl
  schedule := rfl

theorem FlagBit.put_same (f : FlagBit) (b : Bool) (s : State) : SameButFlags s (f.put b s) := by
  refine ⟨?_, fun r => ?_, fun r hr => ?_, ?_, ?_, ?_, ?_, ?_, ?_, ?_⟩
  · cases f <;> simp [FlagBit.put]
  · cases f <;> exact readReg_congr (by simp [FlagBit.put]) (by simp [FlagBit.put]) (by simp [FlagBit.put])
      (by simp [FlagBit.put]) r
  · rcases f with n | n | ⟨_ | _ | _, n⟩ | n <;>
      rcases r with _ | _ | _ | _ | _ | _ | ⟨_ | _ | _, _ | _ | _ | _ | _ | _⟩ | _ | _ <;>
        first | rfl | simp [ByteRegister.isFlags] at hr
  all_goals cases f <;> simp [FlagBit.put]

@[simp] theorem FlagBit.put_draws (f : FlagBit) (b : Bool) (s : State) : (f.put b s).draws = s.draws := by
  cases f <;> simp [FlagBit.put]

@[simp] theorem FlagBit.get_setDraws (f : FlagBit) (n : Nat) (s : State) : f.get (s.setDraws n) = f.get s := by
  rcases f with n | n | ⟨_ | _ | _, n⟩ | n <;> rfl

/-! ### Requests (R115 to R117, R125, R153) -/

/-- The NMI vector requests with NMIIFG, or with OFIFG and OFIE, whatever GIE is. -/
theorem requests_nmi (s : State) :
    requests .nmi s = (s.ifg1.getLsbD 4 || (s.ifg1.getLsbD 1 && s.ie1.getLsbD 1)) := by
  simp [requests, flagAndEnable, Source.isMaskable, nmiifg, ofifg, FlagBit.get]

/-- A row requests with one of its flags and GIE. -/
theorem requests_row (n : Row) (s : State) : requests (.row n) s =
    (s.platform.vectors[n].flags.any (fun g => g.requests s) && gieBit s.sr) := by
  have h : (Source.row n != Source.nmi) = true := rfl
  simp [requests, flagAndEnable, Source.isMaskable, h]

/-- Only WDTIFG depends on the mode of the watchdog. -/
theorem flagActive_of_ne {f : FlagBit} (h : f ≠ wdtifg) (s : State) : flagActive f s = f.get s := by
  simp [flagActive, h]

theorem plainRow_requests (name : SourceName) (f : FlagBit) (e : EnableBit) (k : FlagKind) (s : State) :
    (plainRow name f e k).flags.any (fun g => g.requests s) = (flagActive f s && e.get s) := by
  simp [plainRow, GatedFlag.requests]

theorem portRow_requests (name : SourceName) (p : PortId) (pins : List (Fin 8)) (s : State) :
    (portRow name p pins).flags.any (fun g => g.requests s) = true ↔
      ∃ n ∈ pins, (s.port p).ifg.getLsbD n.val = true ∧ (s.port p).ie.getLsbD n.val = true := by
  simp [portRow, GatedFlag.requests, flagActive, FlagBit.get, EnableBit.get, wdtifg]

/-! ### Flags at service (R126) -/

theorem serveFlags_same (keep : Bool) (l : List GatedFlag) (s : State) : SameButFlags s (serveFlags keep l s) := by
  induction l generalizing s with
  | nil => exact .refl s
  | cons g l ih => exact (g.flag.put_same _ s).trans (ih _)

/-- The flags of the list stay or are reset, and no other changes. -/
theorem serveFlags_get (keep : Bool) (l : List GatedFlag) (s : State) (f : FlagBit) :
    f.get (serveFlags keep l s) = if f ∈ l.map (·.flag) then keep && f.get s else f.get s := by
  induction l generalizing s with
  | nil => rfl
  | cons g l ih =>
    rw [serveFlags, List.foldl_cons, ← serveFlags, ih]
    by_cases h : f = g.flag
    · subst h
      cases keep <;> simp
    · simp [h, FlagBit.get_put_other _ _ h]

/-- Service changes flags and the count of draws only. -/
theorem acknowledge_same (src : Source) (s : State) : SameButFlags s (acknowledge src s) := by
  cases src with
  | nmi => exact nmiifg.put_same false s
  | row n =>
    simp only [acknowledge]
    split
    · exact serveFlags_same _ _ _
    · exact .refl s
    · exact (SameButFlags.setDraws _ s).trans (serveFlags_same _ _ _)

/-- What service leaves of each flag: those of another source stay, the source's own go or stay by their kind. -/
theorem acknowledge_get (src : Source) (s : State) (f : FlagBit) :
    (f ∉ src.flagsIn s.platform.vectors → f.get (acknowledge src s) = f.get s) ∧
      (src = .nmi → f = nmiifg → f.get (acknowledge src s) = false) ∧
      (∀ n, src = .row n → f ∈ src.flagsIn s.platform.vectors →
        (s.platform.vectors[n].kind = .single → f.get (acknowledge src s) = false) ∧
        (s.platform.vectors[n].kind = .multiple → f.get (acknowledge src s) = f.get s)) := by
  cases src with
  | nmi =>
    refine ⟨fun h => ?_, fun _ h => by simp [acknowledge, h], fun n h => by cases h⟩
    exact FlagBit.get_put_other _ _ (by simpa [Source.flagsIn] using h)
  | row n =>
    simp only [Source.flagsIn]
    refine ⟨fun h => ?_, by rintro ⟨⟩, ?_⟩
    · simp only [acknowledge]
      split
      · rw [serveFlags_get, if_neg h]
      · rfl
      · rw [serveFlags_get, if_neg h, FlagBit.get_setDraws]
    · rintro m ⟨rfl⟩ h
      refine ⟨fun hk => ?_, fun hk => ?_⟩
      · simp only [acknowledge, hk]
        rw [serveFlags_get, if_pos h, Bool.false_and]
      · simp only [acknowledge, hk]

@[simp] theorem acknowledge_platform : (acknowledge src s).platform = s.platform := (acknowledge_same src s).platform
@[simp] theorem acknowledge_sp : (acknowledge src s).sp = s.sp := (acknowledge_same src s).cpu 1
@[simp] theorem acknowledge_wdtctl : (acknowledge src s).wdtctl = s.wdtctl := (acknowledge_same src s).wdtctl
@[simp] theorem acknowledge_mem : (acknowledge src s).mem = s.mem := (acknowledge_same src s).mem

/-! ### Entry -/

/-- The end of the interrupt sequence. -/
theorem enterHandler_eq_next : enterHandler src s = .next t ↔
    ∃ v, readWord (vectorAddress src) s = .next v ∧
      t = (((acknowledge src s).setSr (entrySr s.sr)).setGieFresh false).setPc v := by
  have h : readWord (vectorAddress src) (((acknowledge src s).setSr (entrySr s.sr)).setGieFresh false) =
      readWord (vectorAddress src) s := readWord_congr (by simp) (by simp) (by simp)
  simp only [enterHandler, h, Result.bind_eq_next, Host.Outcome.next.injEq]
  exact ⟨fun ⟨v, hv, ht⟩ => ⟨v, hv, ht.symm⟩, fun ⟨v, hv, ht⟩ => ⟨v, hv, ht.symm⟩⟩

/-- RAM after the two pushes of the interrupt sequence. -/
theorem interruptSequence_eq_next (h1 : s.sp - 2 ≠ wdtctlAddress) (h2 : s.sp - 4 ≠ wdtctlAddress) :
    interruptSequence src s = .next t ↔
      (s.sp - 2).getLsbD 0 = false ∧ wordInRam s.platform (s.sp - 2).toNat = true ∧
      (s.sp - 4).getLsbD 0 = false ∧ wordInRam s.platform (s.sp - 4).toNat = true ∧
      enterHandler src ((s.setSp (s.sp - 4)).setMem
        ((((s.mem.write (s.sp - 2).toNat (loByte s.pc)).write ((s.sp - 2).toNat + 1) (hiByte s.pc)).write
          (s.sp - 4).toNat (loByte s.sr)).write ((s.sp - 4).toNat + 1) (hiByte s.sr))) = .next t := by
  have h4 : s.sp - 2 - 2 = s.sp - 4 := by rw [BitVec.sub_sub]; rfl
  rw [interruptSequence, pushThen_eq_next h1]
  refine and_congr_right fun _ => and_congr_right fun _ => ?_
  rw [pushThen_eq_next (by simpa only [State.setMem_sp, State.setSp_sp, h4] using h2)]
  simp only [State.setMem_sp, State.setSp_sp, h4]
  exact Iff.rfl

/-! ### Return -/

/-- A completed return. -/
theorem returnFromInterrupt_eq_next : returnFromInterrupt s = .next t ↔
    ∃ sr pc, readWord s.sp s = .next sr ∧ hasReservedSrBit sr = false ∧ readWord (s.sp + 2) s = .next pc ∧
      t = { s with sr := sr, pc := pc, sp := s.sp + 4 } := by
  have h4 : s.sp + 2 + 2 = s.sp + 4 := by rw [BitVec.add_assoc]; rfl
  have hr (x v : Word) : readWord x ((s.setSp (s.sp + 2)).setSr v) = readWord x s := readWord_congr rfl rfl rfl
  simp only [returnFromInterrupt, Result.bind_eq_next, Host.Outcome.next.injEq, Prod.exists, popWord_eq_next,
    writeReg_eq_next]
  constructor
  · rintro ⟨sr, _, ⟨h1, rfl⟩, _, ⟨hw, rfl⟩, pc, _, ⟨h2, rfl⟩, rfl⟩
    refine ⟨sr, pc, h1, by simpa using hw, by rw [← hr _ sr]; exact h2, ?_⟩
    rw [← h4]
    rfl
  · rintro ⟨sr, pc, h1, hw, h2, rfl⟩
    refine ⟨sr, _, ⟨h1, rfl⟩, _, ⟨by simpa using hw, rfl⟩, pc, _, ⟨?_, rfl⟩, ?_⟩
    · exact (hr _ sr).trans h2
    · rw [← h4]
      rfl

end Sys2Proof.Machine
end

