-- ==== Sys2Proof/Laws/Environment.lean ====
section
/-! SUPPORT. The events that set a flag (R114, R119, R122, R144, R152, R161): what a raised flag changes. -/

namespace Sys2Proof.Machine

variable {g : FlagBit} {src : FlagSource} {s : State}

/-- A raised flag is set, or blocked and unchanged. -/
theorem raiseFlag_eq (src : FlagSource) (s : State) :
    raiseFlag src s = if sourceBlocked src s = true then s else src.flag.put true s := rfl

/-- Raising a flag changes flags only. -/
theorem raiseFlag_same (src : FlagSource) (s : State) : SameButFlags s (raiseFlag src s) := by
  rw [raiseFlag_eq]
  split
  · exact .refl s
  · exact src.flag.put_same true s

@[simp] theorem raiseFlag_draws : (raiseFlag src s).draws = s.draws := by
  rw [raiseFlag_eq]
  split <;> simp

theorem raiseFlag_get_same (h : sourceBlocked src s = false) : src.flag.get (raiseFlag src s) = true := by
  simp [raiseFlag_eq, h]

/-- No flag of another source changes, and none at all if the source is blocked. -/
theorem raiseFlag_get_other (h : g ≠ src.flag ∨ sourceBlocked src s = true) : g.get (raiseFlag src s) = g.get s := by
  rw [raiseFlag_eq]
  split
  · rfl
  · rename_i hb
    exact FlagBit.get_put_other _ _ (h.resolve_right hb)

/-- With the empty filter, the default, no source is blocked (R161, D21). -/
theorem sourceBlocked_of_empty (h : s.platform.wakeFilter = []) (src : FlagSource) : sourceBlocked src s = false := by
  unfold sourceBlocked
  split <;> simp [h]

/-- In active mode no source is blocked (R161). -/
theorem sourceBlocked_of_active (h : modeOf s.sr = some .active) (src : FlagSource) : sourceBlocked src s = false := by
  simp [sourceBlocked, h]

@[simp] theorem readReg_setSchedule (r : Reg) (l : List Turn) : readReg r (s.setSchedule l) = readReg r s :=
  readReg_congr rfl rfl rfl rfl r

/-- A predicate on the state does not look at the schedule, which is the model's own. -/
@[simp] theorem StatePredicate.holds_setSchedule (p : StatePredicate) (l : List Turn) :
    p.holds (s.setSchedule l) = p.holds s := by
  induction p with
  | const _ => rfl
  | bit b => cases b <;> simp [StatePredicate.holds, StateBit.get]
  | not p ih => simp only [StatePredicate.holds, ih]
  | and p q ihp ihq | or p q ihp ihq => simp only [StatePredicate.holds, ihp, ihq]

@[simp] theorem watchdogMayExpire_setSchedule (l : List Turn) :
    watchdogMayExpire (s.setSchedule l) = watchdogMayExpire s := by
  simp [watchdogMayExpire]

/-- By the default of `WDT_MAY_EXPIRE` the watchdog may overflow exactly while HOLD is 0 (R173, D16). -/
theorem watchdogMayExpire_of_default (h : s.platform.wdtMayExpire = defaultWdtMayExpire) :
    watchdogMayExpire s = !holdBit s.wdtctl := by
  rw [watchdogMayExpire, h]
  rfl

end Sys2Proof.Machine
end

