-- ==== Sys2Proof/Laws/Exec.lean ====
section
/-! SUPPORT. What each completed instruction is (R90, R96 to R101), in terms of the shared operations. -/

namespace Sys2Proof.Machine

variable {s t : State} {w : Width} {src : Src} {dst : Dst}

/-- A completed MOV, BIC or BIS: its form is admitted, its source is resolved, and some value is written to its
destination after at most a change in the count of draws. -/
theorem exec_formatI_cases {i : Instr} (hi : i = .mov w src dst ∨ i = .bic w src dst ∨ i = .bis w src dst)
    (h : exec i s = .next t) :
    formatIAdmitted w src dst = true ∧ ∃ v s1 x n, resolveSource w src s.advance = .next (v, s1) ∧
      writeLoc w (resolveDest dst s1).1 x ((resolveDest dst s1).2.setDraws n) = .next t := by
  rcases hi with rfl | rfl | rfl <;> simp only [exec, execMov, execBic, execBis] at h <;> split at h <;> try cases h
  all_goals
    rename_i ha
    refine ⟨ha, ?_⟩
    rw [Result.bind_eq_next] at h
    obtain ⟨⟨v, s1⟩, hs, h⟩ := h
  · have hd : (resolveDest dst s1).2.setDraws s1.draws = (resolveDest dst s1).2 := by cases dst <;> rfl
    exact ⟨v, s1, v, s1.draws, hs, by rw [hd]; exact h⟩
  all_goals
    simp only [modify, Result.bind_eq_next] at h
    obtain ⟨⟨d, s2⟩, hd, h⟩ := h
    obtain ⟨⟨n, rfl⟩, -⟩ := readLoc_spec hd
    exact ⟨v, s1, _, n, hs, h⟩

/-- A completed PUSH. -/
theorem exec_push_eq_next : exec (.push src) s = .next t ↔ pushAdmitted src = true ∧
    ∃ v s1, resolveSource .word src s.advance = .next (v, s1) ∧ pushWord v s1 = .next t := by
  simp only [exec, execPush]
  split
  · rename_i ha
    simp [ha, Result.bind_eq_next]
  · rename_i ha
    simp [ha]

/-- A completed POP. -/
theorem exec_pop_eq_next {d : Reg} : exec (.pop d) s = .next t ↔ d ≠ 1 ∧ ∃ v, readWord s.sp s = .next v ∧
    writeReg d v (s.advance.setSp (s.sp + 2)) = .next t := by
  simp only [exec, execPop]
  split
  · rename_i hd
    simp [hd]
  · rename_i hd
    rw [Result.bind_eq_next]
    constructor
    · rintro ⟨⟨v, u⟩, hp, hw⟩
      rw [popWord_eq_next, advance_sp, readWord_advance] at hp
      obtain ⟨hv, rfl⟩ := hp
      exact ⟨hd, v, hv, hw⟩
    · rintro ⟨-, v, hv, hw⟩
      exact ⟨(v, _), popWord_eq_next.2 ⟨by rw [advance_sp, readWord_advance]; exact hv, rfl⟩, hw⟩

/-- An operand is resolved with SP as it was, in every form PUSH takes. -/
theorem resolveSource_sp {v : Word} {s1 : State} (ha : pushAdmitted src = true)
    (h : resolveSource .word src s.advance = .next (v, s1)) : s1.sp = s.sp := by
  obtain ⟨n, rfl⟩ := resolveSource_state h
  cases src <;> simp
  rename_i r
  simp only [pushAdmitted, Bool.and_eq_true, Src.register?, bne_iff_ne, ne_eq, Option.some.injEq] at ha
  exact readReg_setReg_other (x := 1) (r := r) (State.setDraws n s.advance) _ (fun h => ha.2 h.symm)

end Sys2Proof.Machine
end

