-- ==== Sys2Proof/Laws/PerInstr.lean ====
section
/-! SUPPORT. Statements made per instruction. `EncodeLength`: the instruction word of a well-formed instruction says how
many words the instruction has (R84), so that the fetch reads exactly its words. -/

namespace Sys2Proof.Laws.EncodeLength

/-- The encoding is the instruction word and as many extension words as that word says. -/
def Statement (i : Instr) : Prop :=
  i.wellFormed = true →
    (encode i).length = 1 + sourceExtensionWords ((encode i).headD 0) + destExtensionWords ((encode i).headD 0)

theorem sourceExtends_fields {src : Src} (h : src.exists = true) :
    src.fields.2.2.length = if sourceExtends src.fields.1 src.fields.2.1 then 1 else 0 := by
  cases src with
  | const c => cases c <;> decide
  | symbolic _ | absolute _ | imm _ => rfl
  | reg r | indirect r => simp [Src.fields, sourceExtends]
  | indexed r x | indirectInc r =>
    simp only [Src.exists, Reg.isBase, Bool.and_eq_true, bne_iff_ne, ne_eq] at h
    have h0 : r.val ≠ 0 := fun e => h.1.1 (Fin.ext e)
    have h3 : r.val ≠ 3 := fun e => h.2 (Fin.ext e)
    simp [Src.fields, sourceExtends, h0, h3]

theorem dest_fields (dst : Dst) : dst.fields.2.2.length = dst.fields.1 := by cases dst <;> rfl

theorem formatI {opcode : Nat} {w : Width} {src : Src} {dst : Dst} {o : Opcode} (ho : opcode < 16)
    (ha : formatIAdmitted w src dst = true)
    (hl : lookupOpcode (formatIWord opcode src.fields.2.1 dst.fields.1 w.bit src.fields.1 dst.fields.2.1) = some o)
    (h : o = .mov ∨ o = .bic ∨ o = .bis) : (encodeFormatI opcode w src dst).length =
      1 + sourceExtensionWords ((encodeFormatI opcode w src dst).headD 0) +
        destExtensionWords ((encodeFormatI opcode w src dst).headD 0) := by
  simp only [formatIAdmitted, Bool.and_eq_true] at ha
  obtain ⟨f1, f2, -, f4, -⟩ := formatIWord_fields ho src.fields_lt.2 dst.fields_lt.1 w.bit_lt src.fields_lt.1 dst.fields_lt.2
  simp only [encodeFormatI, List.headD_cons, List.length_cons, List.length_append, sourceExtends_fields ha.1.1.1.1,
    dest_fields, sourceExtensionWords, destExtensionWords, hl]
  rcases h with rfl | rfl | rfl <;> simp only [f1, f2, f4] <;> omega

theorem mov (w : Width) (src : Src) (dst : Dst) : Statement (.mov w src dst) := by
  intro h
  simp only [Instr.wellFormed, Instr.admitted, Bool.and_eq_true] at h
  refine formatI (o := .mov) (by decide) h.1 ?_ (.inl rfl)
  have hw := formatIWord_toNat (opcode := 4) (by decide) src.fields_lt.2 dst.fields_lt.1 w.bit_lt src.fields_lt.1 dst.fields_lt.2
  have := src.fields_lt; have := dst.fields_lt; have := w.bit_lt
  rw [lookupOpcode_eq, hw, if_neg (by omega), if_neg ?_, if_neg (by omega), if_neg (by omega), if_pos (by omega)]
  intro hp
  have a1 : src.fields.2.1 = 1 := by omega
  have a2 : src.fields.1 = 3 := by omega
  have a3 : w.bit = 0 := by omega
  have a4 : dst.fields.1 = 0 := by omega
  have hs : src = .indirectInc 1 := by
    cases src with
    | const c => cases c <;> cases a1
    | indirectInc r => rw [show r = 1 from Fin.ext a1]
    | _ => cases a2 <;> cases a1
  subst hs
  cases w <;> cases dst <;> simp_all [Instr.canonical, Width.bit, Dst.fields]

theorem bic (w : Width) (src : Src) (dst : Dst) : Statement (.bic w src dst) := by
  intro h
  simp only [Instr.wellFormed, Instr.admitted, Bool.and_eq_true] at h
  refine formatI (o := .bic) (by decide) h.1 ?_ (.inr (.inl rfl))
  have hw := formatIWord_toNat (opcode := 0xC) (by decide) src.fields_lt.2 dst.fields_lt.1 w.bit_lt src.fields_lt.1 dst.fields_lt.2
  have := src.fields_lt; have := dst.fields_lt; have := w.bit_lt
  rw [lookupOpcode_eq, hw, if_neg (by omega), if_neg (by omega), if_neg (by omega), if_neg (by omega), if_neg (by omega),
    if_pos (by omega)]

theorem bis (w : Width) (src : Src) (dst : Dst) : Statement (.bis w src dst) := by
  intro h
  simp only [Instr.wellFormed, Instr.admitted, Bool.and_eq_true] at h
  refine formatI (o := .bis) (by decide) h.1 ?_ (.inr (.inr rfl))
  have hw := formatIWord_toNat (opcode := 0xD) (by decide) src.fields_lt.2 dst.fields_lt.1 w.bit_lt src.fields_lt.1 dst.fields_lt.2
  have := src.fields_lt; have := dst.fields_lt; have := w.bit_lt
  rw [lookupOpcode_eq, hw, if_neg ?_, if_neg (by omega), if_neg (by omega), if_neg (by omega), if_neg (by omega),
    if_neg (by omega), if_pos (by omega)]
  intro hp
  have a1 : src.fields.2.1 = 2 := by omega
  have a2 : src.fields.1 = 3 := by omega
  have a3 : w.bit = 0 := by omega
  have a4 : dst.fields.1 = 0 := by omega
  have a5 : dst.fields.2.1 = 2 := by omega
  have hs : src = .const .eight := by
    cases src with
    | const c => cases c <;> first | rfl | (cases a2; done) | cases a1
    | indirectInc r =>
      rw [show r = 2 from Fin.ext a1] at h
      simp [formatIAdmitted, Src.exists, Reg.isBase] at h
    | _ => cases a2 <;> cases a1
  subst hs
  cases dst with
  | reg r =>
    rw [show r = 2 from Fin.ext a5] at h
    cases w <;> simp_all [Instr.canonical, Width.bit]
  | _ => cases a4

theorem push (src : Src) : Statement (.push src) := by
  intro h
  simp only [Instr.wellFormed, Instr.admitted, pushAdmitted, Bool.and_eq_true] at h
  obtain ⟨hn, f1, f2⟩ := pushWord_fields src.fields_lt.1 src.fields_lt.2
  have := src.fields_lt
  have hl : lookupOpcode (BitVec.ofNat 16 (0x48 * 64 + src.fields.1 * 16 + src.fields.2.1)) = some .push := by
    rw [lookupOpcode_eq, hn, if_neg (by omega), if_neg (by omega), if_neg (by omega), if_pos (by omega)]
  simp only [encode, List.headD_cons, List.length_cons, sourceExtends_fields h.1.1.1, sourceExtensionWords,
    destExtensionWords, hl, f1, f2]
  omega

theorem reti : Statement .reti := by
  intro _
  decide

theorem pop (d : Reg) : Statement (.pop d) := by
  intro _
  have hn : (BitVec.ofNat 16 (0x413 * 16 + d.val)).toNat = 0x413 * 16 + d.val := by rw [BitVec.toNat_ofNat]; omega
  have hl : lookupOpcode (BitVec.ofNat 16 (0x413 * 16 + d.val)) = some .pop := by
    rw [lookupOpcode_eq, hn, if_neg (by omega), if_pos (by omega)]
  simp only [encode, List.headD_cons, List.length_cons, List.length_nil, sourceExtensionWords, destExtensionWords, hl]

theorem eint : Statement .eint := by
  intro _
  decide

end Sys2Proof.Laws.EncodeLength
end

