-- ==== Sys2Proof/Laws/Step.lean ====
section
/-! SUPPORT. One step of the machine, by whose move it is (R128, R129, R159, R174). -/

namespace Sys2Proof.Machine

variable {s t : State} {rest : List Turn}

/-- The acceptance check does not look at the schedule. -/
@[simp] theorem acceptedSource_setSchedule (deferred : Bool) (l : List Turn) :
    acceptedSource deferred (s.setSchedule l) = acceptedSource deferred s := rfl

/-- On the CPU's turn the step is one move of the CPU. -/
theorem step_of_cpuMoves (h : cpuMoves s rest) : step s = cpuStep (s.setSchedule rest) := by
  rcases h with ⟨h, rfl⟩ | h
  · have : s.setSchedule [] = s := by rw [← h]; simp
    simp only [step, nextTurn, h, this]
  · simp only [step, nextTurn, h]

/-- On the environment's turn the step is its event. -/
theorem step_of_env {e : EnvEvent} (h : s.schedule = .env e :: rest) : step s = envStep e (s.setSchedule rest) := by
  simp only [step, nextTurn, h]

/-- A CPU that is not held, serves nothing and is not stopped runs its next instruction. -/
theorem step_of_runsNext (hc : cpuMoves s rest) (h : runsNext s = true) :
    step s = executeNext (atBoundary rest s) := by
  simp only [runsNext, Bool.and_eq_true, Option.isNone_iff_eq_none, Bool.not_eq_true'] at h
  obtain ⟨⟨h1, h2⟩, h3⟩ := h
  have h2' : acceptedSource (defersMaskable (s.setSchedule rest)) (s.setSchedule rest) = none := h2
  rw [step_of_cpuMoves hc, cpuStep]
  simp [h1, h2', h3, atBoundary]

/-- Past the boundary the schedule is the rest, the latitude of D10 is used up, and nothing else but the count of draws has
changed. -/
theorem atBoundary_eq (rest : List Turn) (s : State) : atBoundary rest s =
    { s with schedule := rest, gieFresh := false, draws := if s.gieFresh then s.draws + 1 else s.draws } := by
  cases h : s.gieFresh <;> simp [atBoundary, passBoundary, State.setSchedule, State.setDraws, State.setGieFresh, h]

@[simp] theorem atBoundary_pc : (atBoundary rest s).pc = s.pc := by rw [atBoundary_eq]

theorem readWord_atBoundary (a : Word) : readWord a (atBoundary rest s) = readWord a s := by
  rw [atBoundary_eq]
  exact readWord_congr rfl rfl rfl

/-- Every move is the CPU's or an event. -/
theorem step_cases (h : step s = .next t) :
    (∃ rest, cpuMoves s rest ∧ cpuStep (s.setSchedule rest) = .next t) ∨
      ∃ e rest, s.schedule = .env e :: rest ∧ envStep e (s.setSchedule rest) = .next t := by
  cases hs : s.schedule with
  | nil => exact .inl ⟨[], .inl ⟨hs, rfl⟩, by rw [← step_of_cpuMoves (.inl ⟨hs, rfl⟩), h]⟩
  | cons x l =>
    cases x with
    | cpu => exact .inl ⟨l, .inr hs, by rw [← step_of_cpuMoves (.inr hs), h]⟩
    | env e => exact .inr ⟨e, l, rfl, by rw [← step_of_env hs, h]⟩

/-- What a completed move of the CPU is. -/
theorem cpuStep_cases (h : cpuStep s = .next t) :
    t = s ∨ (s.hold = none ∧ t = passBoundary s) ∨
      (∃ src, acceptedSource (defersMaskable s) s = some src ∧ s.hold = none ∧
        interruptSequence src (passBoundary s) = .next t) ∨
      (s.hold = none ∧ executeNext (passBoundary s) = .next t) := by
  unfold cpuStep at h
  split at h
  · simp only [Host.Outcome.next.injEq] at h
    exact .inl h.symm
  · rename_i hh
    split at h
    · rename_i src hs
      exact .inr (.inr (.inl ⟨src, hs, hh, h⟩))
    · split at h
      · simp only [Host.Outcome.next.injEq] at h
        exact .inr (.inl ⟨hh, h.symm⟩)
      · exact .inr (.inr (.inr ⟨hh, h⟩))

/-- What a completed instruction is. -/
theorem executeNext_cases (h : executeNext s = .next t) :
    ∃ i u, fetchInstr s = .next i ∧ exec i s = .next u ∧ t = markGie s u := by
  simp only [executeNext, Result.bind_eq_next, Host.Outcome.next.injEq] at h
  obtain ⟨i, hi, u, hu, rfl⟩ := h
  exact ⟨i, u, hi, hu, rfl⟩

end Sys2Proof.Machine
end

