-- ==== Sys2Proof/Laws/Fetch.lean ====
section
/-! SUPPORT. The fetch (R70, R77, R84): what it reads, and in which order. -/

namespace Sys2Proof

/-! ### Operand forms do not depend on the values of extension words -/

/-- The same source form with another extension word. -/
def Src.withWord (x : Word) : Src → Src
  | .indexed r _ => .indexed r x
  | .symbolic _ => .symbolic x
  | .absolute _ => .absolute x
  | .imm _ => .imm x
  | .reg r => .reg r
  | .indirect r => .indirect r
  | .indirectInc r => .indirectInc r
  | .const c => .const c

/-- The same destination form with another extension word. -/
def Dst.withWord (x : Word) : Dst → Dst
  | .indexed r _ => .indexed r x
  | .symbolic _ => .symbolic x
  | .absolute _ => .absolute x
  | .reg r => .reg r

theorem formatIAdmitted_withWord (w : Width) (src : Src) (dst : Dst) (x y : Word) :
    formatIAdmitted w (src.withWord x) (dst.withWord y) = formatIAdmitted w src dst := by
  cases src <;> cases dst <;> rfl

theorem formatIAdmitted_destWord (w : Width) (src : Src) (dst : Dst) (y : Word) :
    formatIAdmitted w src (dst.withWord y) = formatIAdmitted w src dst := by
  cases dst <;> rfl

theorem pushAdmitted_withWord (src : Src) (x : Word) : pushAdmitted (src.withWord x) = pushAdmitted src := by
  cases src <;> rfl

/-- The source decoder on a first word `x`, whether it takes it or leaves it. -/
theorem decodeSource_withWord {src : Src} (h : src.exists = true) (x y : Word) : ∃ l,
    decodeSource src.fields.1 (Fin.ofNat 16 src.fields.2.1) [x, y] = .ok (src.withWord x, l) ∧ (l = [y] ∨ l = [x, y]) := by
  have hf := decodeSource_fields (src := src.withWord x) (by cases src <;> exact h)
  have hw : (src.withWord x).fields.1 = src.fields.1 ∧ (src.withWord x).fields.2.1 = src.fields.2.1 ∧
      ((src.withWord x).fields.2.2 = [x] ∨ (src.withWord x).fields.2.2 = []) := by
    cases src with
    | const c => cases c <;> simp [Src.withWord, Src.fields]
    | _ => simp [Src.withWord, Src.fields]
  rw [hw.1, hw.2.1] at hf
  rcases hw.2.2 with e | e <;> rw [e] at hf
  · exact ⟨[y], hf [y], .inl rfl⟩
  · exact ⟨[x, y], hf [x, y], .inr rfl⟩

/-- The destination decoder on a first word `x`. -/
theorem decodeDest_withWord {dst : Dst} (h : dst.exists = true) (x : Word) (l : List Word) : ∃ l',
    decodeDest dst.fields.1 (Fin.ofNat 16 dst.fields.2.1) (x :: l) = .ok (dst.withWord x, l') := by
  have hf := decodeDest_fields (dst := dst.withWord x) (by cases dst <;> exact h)
  have hw : (dst.withWord x).fields.1 = dst.fields.1 ∧ (dst.withWord x).fields.2.1 = dst.fields.2.1 ∧
      ((dst.withWord x).fields.2.2 = [x] ∨ (dst.withWord x).fields.2.2 = []) := by
    cases dst <;> simp [Dst.withWord, Dst.fields]
  rw [hw.1, hw.2.1] at hf
  rcases hw.2.2 with e | e <;> rw [e] at hf
  · exact ⟨l, hf l⟩
  · exact ⟨x :: l, hf (x :: l)⟩

theorem regField_eq (w : Word) (lo : Nat) : Fin.ofNat 16 (regField w lo).val = regField w lo := by
  apply Fin.ext
  simp [Fin.ofNat]

/-! ### Decoding with a word that is not yet fetched -/

variable {w : Word} {xs ys : List Word} {i : Instr}

/-- What stays the same with a zero in the place of an extension word: that the words are an instruction, and its source. -/
structure PartlyFetched (w : Word) (xs ys : List Word) (i : Instr) : Prop where
  destWords : ys.length = destExtensionWords w
  firstWord : ∃ p, decode [w, 0, 0] = .ok p
  source    : ∃ j l, decode (w :: xs ++ [0]) = .ok (j, l) ∧
    ∀ s, Machine.sourceResolves j s = Machine.sourceResolves i s

theorem partlyFetched_formatI {mk : Width → Src → Dst → Instr}
    (hmk : ∀ wd src dst s, Machine.sourceResolves (mk wd src dst) s =
      (Machine.resolveSource wd src s.advance).bind fun _ => .next ())
    (hadm : ∀ wd src dst, (mk wd src dst).admitted = formatIAdmitted wd src dst)
    (hdec : ∀ ws, decode (w :: ws) = decodeFormatI mk w ws)
    (hsrc : sourceExtensionWords w = if sourceExtends (bitField w 4 2) (bitField w 8 4) then 1 else 0)
    (hdst : destExtensionWords w = bitField w 7 1)
    (h : decode (w :: xs ++ ys) = .ok (i, [])) (hx : xs.length = sourceExtensionWords w) : PartlyFetched w xs ys i := by
  rw [List.cons_append, hdec, decodeFormatI] at h
  split at h
  · cases h
  rename_i src ws1 hs
  split at h
  · cases h
  rename_i dst ws2 hd
  unfold ifAdmitted at h
  split at h
  swap
  · cases h
  rename_i ha
  rw [hadm] at ha
  simp only [Except.ok.injEq, Prod.mk.injEq] at h
  obtain ⟨rfl, rfl⟩ := h
  obtain ⟨s0, s1, s2, s3⟩ := decodeSource_inv (by unfold bitField; omega) hs
  obtain ⟨d0, d1, d2, d3⟩ := decodeDest_inv (by unfold bitField; omega) hd
  have hreg : (regField w 8).val = bitField w 8 4 := by
    simp only [regField, bitField, Fin.ofNat]
    omega
  have hlen : src.fields.2.2.length = xs.length := by
    rw [hx, hsrc, Laws.EncodeLength.sourceExtends_fields s0, s1, s2, hreg]
  obtain ⟨e1, e2⟩ := List.append_inj s3 hlen
  rw [List.append_nil] at d3
  have hsf := decodeSource_fields s0
  obtain ⟨l, hsw, hl⟩ := decodeSource_withWord s0 0 0
  rw [s1, s2, regField_eq] at hsf hsw
  have hdw := decodeDest_withWord d0 0
  rw [d1, d2, regField_eq] at hdw
  refine ⟨?_, ?_, ?_⟩
  · rw [← e2, ← d3, Laws.EncodeLength.dest_fields, d1, hdst]
  · obtain ⟨l', hl'⟩ : ∃ l', decodeDest (bitField w 7 1) (regField w 0) l = .ok (dst.withWord 0, l') := by
      rcases hl with rfl | rfl
      · exact hdw []
      · exact hdw [0]
    refine ⟨(mk (decodeWidth (bitField w 6 1)) (src.withWord 0) (dst.withWord 0), l'), ?_⟩
    rw [hdec, decodeFormatI, hsw]
    simp only [hl', ifAdmitted, hadm, formatIAdmitted_withWord, ha, if_true]
  · obtain ⟨l', hl'⟩ := hdw []
    refine ⟨mk (decodeWidth (bitField w 6 1)) src (dst.withWord 0), l', ?_, fun s => by rw [hmk, hmk]⟩
    rw [List.cons_append, hdec, decodeFormatI, ← e1, hsf]
    simp only [hl', ifAdmitted, hadm, formatIAdmitted_destWord, ha, if_true]

/-- A zero in the place of an extension word that is not yet fetched decides nothing (R77, R84). -/
theorem partlyFetched (h : decode (w :: xs ++ ys) = .ok (i, [])) (hx : xs.length = sourceExtensionWords w) :
    PartlyFetched w xs ys i := by
  cases hl : lookupOpcode w with
  | none =>
    simp only [List.cons_append, decode, hl] at h
    split at h <;> cases h
  | some o =>
    cases o with
    | mov =>
      exact partlyFetched_formatI (mk := Instr.mov) (fun _ _ _ _ => rfl) (fun _ _ _ => rfl)
        (fun ws => by simp only [decode, hl]) (by simp only [sourceExtensionWords, hl])
        (by simp only [destExtensionWords, hl]) h hx
    | bic =>
      exact partlyFetched_formatI (mk := Instr.bic) (fun _ _ _ _ => rfl) (fun _ _ _ => rfl)
        (fun ws => by simp only [decode, hl]) (by simp only [sourceExtensionWords, hl])
        (by simp only [destExtensionWords, hl]) h hx
    | bis =>
      exact partlyFetched_formatI (mk := Instr.bis) (fun _ _ _ _ => rfl) (fun _ _ _ => rfl)
        (fun ws => by simp only [decode, hl]) (by simp only [sourceExtensionWords, hl])
        (by simp only [destExtensionWords, hl]) h hx
    | reti =>
      simp only [List.cons_append, decode, hl, Except.ok.injEq, Prod.mk.injEq, List.append_eq_nil_iff] at h
      obtain ⟨rfl, rfl, rfl⟩ := h
      exact ⟨by simp [destExtensionWords, hl], ⟨_, by simp only [decode, hl]; rfl⟩,
        .reti, [0], by simp [decode, hl], fun _ => rfl⟩
    | eint =>
      simp only [List.cons_append, decode, hl, Except.ok.injEq, Prod.mk.injEq, List.append_eq_nil_iff] at h
      obtain ⟨rfl, rfl, rfl⟩ := h
      exact ⟨by simp [destExtensionWords, hl], ⟨_, by simp only [decode, hl]; rfl⟩,
        .eint, [0], by simp [decode, hl], fun _ => rfl⟩
    | pop =>
      simp only [List.cons_append, decode, hl, ifAdmitted] at h
      split at h
      swap
      · cases h
      rename_i ha
      simp only [Except.ok.injEq, Prod.mk.injEq, List.append_eq_nil_iff] at h
      obtain ⟨rfl, rfl, rfl⟩ := h
      exact ⟨by simp [destExtensionWords, hl], ⟨_, by simp only [decode, hl, ifAdmitted, ha]; rfl⟩,
        .pop (regField w 0), [0], by simp [decode, hl, ifAdmitted, ha], fun _ => rfl⟩
    | push =>
      simp only [List.cons_append, decode, hl, decodePush] at h
      split at h
      · cases h
      rename_i src ws1 hs
      unfold ifAdmitted at h
      split at h
      swap
      · cases h
      rename_i ha
      simp only [Except.ok.injEq, Prod.mk.injEq] at h
      obtain ⟨rfl, rfl⟩ := h
      obtain ⟨s0, s1, s2, s3⟩ := decodeSource_inv (by unfold bitField; omega) hs
      have hreg : (regField w 0).val = bitField w 0 4 := by
        simp only [regField, bitField, Fin.ofNat]
        omega
      have hlen : src.fields.2.2.length = xs.length := by
        rw [hx, Laws.EncodeLength.sourceExtends_fields s0, s1, s2, hreg]
        simp only [sourceExtensionWords, hl]
      obtain ⟨e1, e2⟩ := List.append_inj s3 hlen
      have hsf := decodeSource_fields s0
      obtain ⟨l, hsw, -⟩ := decodeSource_withWord s0 0 0
      rw [s1, s2, regField_eq] at hsf hsw
      have ha' : (Instr.push (src.withWord 0)).admitted = true := (pushAdmitted_withWord src 0).trans ha
      refine ⟨by simp [← e2, destExtensionWords, hl],
        ⟨(.push (src.withWord 0), l), by simp only [decode, hl, decodePush, hsw, ifAdmitted, ha', if_true]⟩,
        .push src, [0], ?_, fun _ => rfl⟩
      rw [List.cons_append, ← e1]
      simp only [decode, hl, decodePush, hsf, ifAdmitted, ha, if_true]

end Sys2Proof

namespace Sys2Proof.Machine

variable {s : State} {w : Word} {ws xs ys : List Word} {i : Instr}

/-! ### The fetch -/

/-- Words that stand in memory are what is fetched. -/
theorem fetchWords_of_wordsAt {a : Word} (h : wordsAt a ws s) : fetchWords a s ws.length = .next ws := by
  induction ws generalizing a with
  | nil => rfl
  | cons w ws ih => simp only [List.length_cons, fetchWords, h.1, Result.bind_next, ih h.2]

theorem wordsAt_append {a : Word} : wordsAt a (xs ++ ys) s ↔
    wordsAt a xs s ∧ wordsAt (a + 2 * BitVec.ofNat 16 xs.length) ys s := by
  induction xs generalizing a with
  | nil => simp [wordsAt]
  | cons x xs ih =>
    have e : a + 2 + 2 * BitVec.ofNat 16 xs.length = a + 2 * BitVec.ofNat 16 (xs.length + 1) := by
      apply BitVec.eq_of_toNat_eq
      simp [BitVec.toNat_add, BitVec.toNat_mul]
      omega
    simp only [List.cons_append, wordsAt, ih, e, List.length_cons, and_assoc]

/-- With the instruction word and the source's extension words in memory, the rest of the fetch is the source operand, and
then the destination's extension word (R77). -/
theorem fetchInstr_eq (hp : s.pc.getLsbD 0 = false) (hw : wordsAt s.pc (w :: xs) s)
    (hx : xs.length = sourceExtensionWords w) (hd : decode (w :: xs ++ ys) = .ok (i, [])) :
    fetchInstr s = (sourceResolves i s).bind fun _ =>
      (fetchWords (s.pc + 2 + 2 * BitVec.ofNat 16 xs.length) s (destExtensionWords w)).bind fun ys =>
        decodeFetched (w :: xs ++ ys) := by
  obtain ⟨-, ⟨p, h1⟩, j, l, h2, h3⟩ := partlyFetched hd hx
  have hf := fetchWords_of_wordsAt hw.2
  rw [hx] at hf
  have e1 : decodeFetched [w, 0, 0] = .next p.1 := by simp only [decodeFetched, h1]
  have e2 : decodeFetched (w :: xs ++ [0]) = .next j := by simp only [decodeFetched, h2]
  simp only [fetchInstr, hp, Bool.false_eq_true, if_false, hw.1, Result.bind_next, e1, hf, e2, h3]

/-- With all its words in memory, the instruction is fetched unless its source operand stops. -/
theorem fetchInstr_of_wordsAt (hp : s.pc.getLsbD 0 = false) (hw : wordsAt s.pc (w :: xs ++ ys) s)
    (hx : xs.length = sourceExtensionWords w) (hd : decode (w :: xs ++ ys) = .ok (i, [])) :
    fetchInstr s = (sourceResolves i s).bind fun _ => .next i := by
  rw [wordsAt_append] at hw
  rw [fetchInstr_eq hp hw.1 hx hd]
  have e : s.pc + 2 + 2 * BitVec.ofNat 16 xs.length = s.pc + 2 * BitVec.ofNat 16 (w :: xs).length := by
    apply BitVec.eq_of_toNat_eq
    simp [BitVec.toNat_add, BitVec.toNat_mul]
    omega
  have hf := fetchWords_of_wordsAt hw.2
  rw [(partlyFetched hd hx).destWords, ← e] at hf
  have e2 : decodeFetched (w :: xs ++ ys) = .next i := by simp only [decodeFetched, hd]
  simp only [hf, Result.bind_next, e2]

/-- A source operand that stops gives `exec` the same stop. -/
theorem sourceResolves_bind_exec {α : Type} (k : State → Result α) (ha : i.admitted = true) :
    ((sourceResolves i s).bind fun _ => .next i).bind (fun i => Result.bind (exec i s) k) =
      Result.bind (exec i s) k := by
  cases i with
  | mov w src dst | bic w src dst | bis w src dst =>
    simp only [Instr.admitted] at ha
    cases h : resolveSource w src s.advance <;>
      simp [sourceResolves, exec, execMov, execBic, execBis, ha, h]
  | push _ | reti | pop _ | eint => rfl

end Sys2Proof.Machine
end

