-- ==== Sys2Proof/Tests/Slice0.lean ====
section
/-! SUPPORT. The model's own tests. Expected results are from 95_test_vectors.md and from the rules named, never from the
model. -/

namespace Sys2Proof.Tests

open Sys2Proof.Machine

/-! ### Ill-formed terms (R74 to R76, R105, R79) -/

theorem test_wf_reg3_is_no_source : (Instr.push (.reg 3)).wellFormed = false := by decide
theorem test_wf_indexed_r2 : (Instr.mov .word (.indexed 2 0) (.reg 5)).wellFormed = false := by decide
theorem test_wf_indirect_r3 : (Instr.mov .word (.indirect 3) (.reg 5)).wellFormed = false := by decide
theorem test_wf_increment_r0 : (Instr.mov .word (.indirectInc 0) (.reg 5)).wellFormed = false := by decide
theorem test_wf_indexed_dest_r3 : (Instr.bic .word (.reg 5) (.indexed 3 0)).wellFormed = false := by decide
theorem test_wf_indirect_pc : (Instr.bis .word (.indirect 0) (.reg 5)).wellFormed = false := by decide
theorem test_wf_increment_same_reg : (Instr.mov .word (.indirectInc 5) (.reg 5)).wellFormed = false := by decide
theorem test_wf_increment_same_index : (Instr.mov .word (.indirectInc 5) (.indexed 5 2)).wellFormed = false := by decide
theorem test_wf_byte_to_pc : (Instr.mov .byte (.const .zero) (.reg 0)).wellFormed = false := by decide
theorem test_wf_push_sp : (Instr.push (.reg 1)).wellFormed = false := by decide
theorem test_wf_push_at_sp : (Instr.push (.indexed 1 2)).wellFormed = false := by decide
theorem test_wf_pop_sp : (Instr.pop 1).wellFormed = false := by decide
theorem test_wf_mov_spelling_of_pop : (Instr.mov .word (.indirectInc 1) (.reg 5)).wellFormed = false := by decide
theorem test_wf_bis_spelling_of_eint : (Instr.bis .word (.const .eight) (.reg 2)).wellFormed = false := by decide
theorem test_wf_bis_with_extension : (Instr.bis .word (.imm 8) (.reg 2)).wellFormed = true := by decide

/-! ### Decoding the words of 95_test_vectors.md 2.1 -/

theorem test_decode_reti : decode [0x1300] = .ok (.reti, []) := by decide
theorem test_decode_push : decode [0x1205] = .ok (.push (.reg 5), []) := by decide
theorem test_decode_push_imm : decode [0x1230, 0x1234] = .ok (.push (.imm 0x1234), []) := by decide
theorem test_decode_push_const : decode [0x1232] = .ok (.push (.const .eight), []) := by decide
theorem test_decode_pop : decode [0x4135] = .ok (.pop 5, []) := by decide
theorem test_decode_eint : decode [0xD232] = .ok (.eint, []) := by decide
theorem test_decode_bis_imm : decode [0xD032, 0x0018] = .ok (.bis .word (.imm 0x18) (.reg 2), []) := by decide
theorem test_decode_bis_abs :
    decode [0xD2E2, 0x0000] = .ok (.bis .byte (.const .four) (.absolute 0), []) := by decide
theorem test_decode_bic_abs :
    decode [0xC5C2, 0x0013] = .ok (.bic .byte (.reg 5) (.absolute 0x13), []) := by decide
theorem test_decode_bic_indexed :
    decode [0xC0B1, 0x0010, 0x0000] = .ok (.bic .word (.imm 0x10) (.indexed 1 0), []) := by decide
theorem test_decode_mov_abs : decode [0x4255, 0x0013] = .ok (.mov .byte (.absolute 0x13) (.reg 5), []) := by decide
theorem test_decode_mov_symbolic : decode [0x4016, 0x00FE] = .ok (.mov .word (.symbolic 0xFE) (.reg 6), []) := by decide
theorem test_decode_mov_increment : decode [0x4576] = .ok (.mov .byte (.indirectInc 5) (.reg 6), []) := by decide
theorem test_decode_nop : decode [0x4303] = .ok (.mov .word (.const .zero) (.reg 3), []) := by decide
theorem test_decode_leaves_rest : decode [0x4303, 0x1300] = .ok (.mov .word (.const .zero) (.reg 3), [0x1300]) := by decide

theorem test_refused_words :
    [[(0x0000 : Word)], [0x5405], [0x3C00]].map decode
      = [.error .instructionNotInScope, .error .instructionNotInScope, .error .instructionNotInScope] := by decide
theorem test_refused_forms :
    [[(0x1245 : Word)], [0x1201], [0x4131], [0x4020], [0x4340], [0x4083, 0x0000]].map decode
      = List.replicate 6 (.error .operandFormNotAdmitted) := by decide

theorem test_table_words :
    [0x4000, 0xC000, 0xD000, 0x1200, 0x1300, 0x4130, 0xD232].map (decodeTableWord 16)
      = [some (.mov .word (.reg 0) (.reg 0)), some (.bic .word (.reg 0) (.reg 0)), some (.bis .word (.reg 0) (.reg 0)),
         some (.push (.reg 0)), some .reti, some (.pop 0), some .eint] := by decide

/-! ### One step each -/

/-- Words in memory from an address on. -/
def placeWords (a : Word) : List Word → Memory → Memory
  | [], m => m
  | w :: ws, m => placeWords (a + 2) ws (placeBytes a [loByte w, hiByte w] m)

/-- A state after reset with SP in RAM, the stack words `stack` from 02FCh on, the handler vectors of the NMI and of P0.0,
and the code `code` at PC. -/
def prepared (code stack : List Word) : State :=
  { State.reset with
    sp := 0x02FC
    mem := placeWords 0xF000 code (placeWords 0x02FC stack (placeWords 0xFFFA [0xF020, 0xF030, 0xF000] [])) }

/-- A field of the state that an outcome gives. -/
def outcomeOf {α β : Type} (x : Result β) (f : β → α) : Option α :=
  match x with
  | .next t => some (f t)
  | .fault _ | .refused _ => none

/-- The refusal or fault that an outcome is. -/
def stopOf (x : Result State) : Option (Fault ⊕ Refusal) :=
  match x with
  | .next _ => none
  | .fault r => some (.inl r)
  | .refused r => some (.inr r)

theorem test_reset_runs_nop : outcomeOf (step (State.reset.withFetchWord 16 0x4303)) (·.pc) = some 0xF002 := by decide

-- 2.2: SP = 02FCh, M[02FCh] = 0107h, M[02FEh] = 0F100h
theorem test_reti :
    outcomeOf (step (prepared [0x1300] [0x0107, 0xF100])) (fun t => (t.sr, t.pc, t.sp))
      = some (0x0107, 0xF100, 0x0300) := by decide
-- 2.2: M[SP] = 0218h
theorem test_reti_reserved :
    stopOf (step (prepared [0x1300] [0x0218, 0xF100])) = some (.inr .reservedSrBit) := by decide

-- 2.3: MOV.B R5,R6
theorem test_mov_byte_clears_high :
    outcomeOf (exec (.mov .byte (.reg 5) (.reg 6)) (setReg 5 0x1234 (setReg 6 0xFFFF (prepared [] [])))) (readReg 6)
      = some 0x0034 := by decide
-- 2.3: MOV @R5+,R6
theorem test_mov_increment :
    outcomeOf (exec (.mov .word (.indirectInc 5) (.reg 6)) (setReg 5 0x02FC (prepared [] [0xBEEF])))
      (fun t => (readReg 6 t, readReg 5 t)) = some (0xBEEF, 0x02FE) := by decide
-- 2.3: BIC #10h,0(SP)
theorem test_bic_stacked_sr :
    outcomeOf (step (prepared [0xC0B1, 0x0010, 0x0000] [0x0018])) (fun t => (storedByte 0x2FC t, t.pc))
      = some (some 0x08, 0xF006) := by decide
-- 2.3: BIC.B R5,&P0IFG, on P1IFG, all of whose bits are defined
theorem test_bic_flags :
    outcomeOf (exec (.bic .byte (.reg 5) (.absolute 0x23))
        (setReg 5 0x0024 { prepared [] [] with p1 := { Port.reset with ifg := 0x64 } })) (·.p1.ifg)
      = some 0x40 := by decide
-- 2.3: BIS.B #1,R5
theorem test_bis_byte :
    outcomeOf (exec (.bis .byte (.const .one) (.reg 5)) (setReg 5 0x1234 (prepared [] []))) (readReg 5)
      = some 0x0035 := by decide
-- 2.3: BIS #18h,SR stops the CPU
theorem test_bis_lpm0 :
    outcomeOf (step (prepared [0xD032, 0x0018] [])) (fun t => (t.sr, t.pc, modeOf t.sr))
      = some (0x0018, 0xF004, some .lpm0) := by decide
-- 2.3: PUSH R5
theorem test_push :
    outcomeOf (exec (.push (.reg 5)) (setReg 5 0x1234 (prepared [] [])))
      (fun t => (t.sp, storedByte 0x2FA t, storedByte 0x2FB t)) = some (0x02FA, some 0x34, some 0x12) := by decide
-- 2.3: PUSH with a result below RAM
theorem test_push_unmapped :
    stopOf (exec (.push (.const .one)) ((prepared [] []).setSp 0x0200)) = some (.inr .unmappedAddress) := by decide
-- 2.3: POP R5, and RET
theorem test_pop :
    outcomeOf (exec (.pop 5) (prepared [] [0x1234])) (fun t => (readReg 5 t, t.sp)) = some (0x1234, 0x02FE) := by decide
theorem test_ret : outcomeOf (exec (.pop 0) (prepared [] [0xF040])) (·.pc) = some 0xF040 := by decide
-- 2.3: EINT leaves N, Z, C
theorem test_eint : outcomeOf (exec .eint ((prepared [] []).setSr 7)) (·.sr) = some 0x000F := by decide
-- 2.3: stops of MOV
theorem test_mov_stops :
    [stopOf (exec (.mov .word (.absolute 0x0200) (.reg 5)) (prepared [] [])),
     stopOf (exec (.mov .word (.absolute 0x0000) (.reg 5)) (prepared [] [])),
     stopOf (exec (.mov .byte (.absolute 0x0006) (.reg 5)) (prepared [] [])),
     stopOf (exec (.mov .word (.absolute 0x0201) (.reg 5)) (prepared [] []))]
      = [some (.inl .unwrittenMemory), some (.inr .wordAccessToSfr), some (.inr .undefinedSfr),
         some (.inl .misalignedWordAccess)] := by decide
-- 2.3: MOV ADDR,R6 (symbolic): EA = 0F002h + 00FEh
theorem test_mov_symbolic :
    outcomeOf (exec (.mov .word (.symbolic 0xFE) (.reg 6))
        { prepared [] [] with mem := placeWords 0xF100 [0xA5A5] [] }) (fun t => (readReg 6 t, t.pc))
      = some (0xA5A5, 0xF004) := by decide
-- R117: a write that sets OFIE
theorem test_ofie : stopOf (exec (.mov .byte (.const .two) (.absolute 0)) (prepared [] [])) = some (.inr .ofieNotAdmitted) := by
  decide

/-! ### Interrupts (2.4) -/

/-- A P0.0 request with its enable, GIE set, the CPU in LPM1. -/
def p00Pending : State := { prepared [] [] with ifg1 := 0x06, ie1 := 0x04, sr := 0x0058, pc := 0xF012 }

theorem test_entry :
    outcomeOf (step p00Pending) (fun t => (t.pc, t.sr, t.sp, t.ifg1)) = some (0xF020, 0x0040, 0x02F8, 0x02) := by decide
theorem test_entry_frame :
    outcomeOf (step p00Pending) (fun t => [storedByte 0x2FA t, storedByte 0x2FB t, storedByte 0x2F8 t, storedByte 0x2F9 t])
      = some [some 0x12, some 0xF0, some 0x58, some 0x00] := by decide
theorem test_nmi_without_gie :
    outcomeOf (step { prepared [] [] with ifg1 := 0x12 }) (fun t => (t.pc, t.ifg1)) = some (0xF030, 0x02) := by decide
theorem test_no_request_without_gie :
    acceptedSource false { p00Pending with sr := 0 } = none := by decide
theorem test_watchdog_mode_no_request :
    acceptedSource false { p00Pending with ifg1 := 1, ie1 := 1 } = none := by decide

/-- The words of the handler vectors of rows 5 and 4, GIE set, ADIFG or the Timer/Port flag set with its enables. -/
def moduleRequest (d : Device) (row : Row) : State :=
  { p00Pending with
    platform := { defaultPlatform with device := d, vectors := defaultVectors d }
    ifg1 := 0x02
    ifg2 := 0x00
    ie2 := 0x0C
    modules := ⟨(Vector.replicate 14 false).set row true, (Vector.replicate 14 false).set row true⟩
    mem := placeWords 0xFFE8 [0xF050, 0xF060] [] }

-- R125: the Timer/Port has row 5 in the '310 and row 4 in the others
theorem test_timer_port_vector :
    [outcomeOf (step (moduleRequest .d310 5)) (·.pc), outcomeOf (step (moduleRequest .d320 4)) (·.pc)]
      = [some 0xF060, some 0xF050] := by decide
-- R125: the '320 has no Timer/Port in row 5, and the module's own enable is needed
theorem test_timer_port_enables :
    acceptedSource false (moduleRequest .d320 5) = none ∧
      acceptedSource false { moduleRequest .d330 4 with
        modules := ⟨(Vector.replicate 14 false).set 4 true, Vector.replicate 14 false⟩ } = none := by decide

/-! ### WDTCTL, reset and pins (2.5 to 2.7) -/

theorem test_wdtctl_hold :
    outcomeOf (exec (.mov .word (.imm 0x5A88) (.absolute 0x120)) (prepared [] [])) (·.wdtctl) = some 0x80 := by decide
theorem test_wdtctl_read :
    outcomeOf (exec (.mov .word (.absolute 0x120) (.reg 5)) ((prepared [] []).setWdtctl 0x80)) (readReg 5)
      = some 0x6980 := by decide
theorem test_key_violation :
    outcomeOf (exec (.mov .word (.imm 0x1234) (.absolute 0x120)) ((prepared [] []).setWdtctl 0x80))
      (fun t => (t.ifg1, t.wdtctl, t.pc, t.sr)) = some (0x03, 0x00, 0xF000, 0x0000) := by decide
theorem test_wdtctl_byte_write :
    stopOf (exec (.mov .byte (.imm 0x80) (.absolute 0x120)) (prepared [] [])) = some (.inr .byteWriteToWdtctl) := by decide
theorem test_pin_low_holds :
    outcomeOf (envStep (.rstNmiPin .low) (prepared [] [])) (fun t => (t.hold, t.ifg1)) = some (some .rstPin, 0x02) := by decide
theorem test_nmi_rising_edge :
    outcomeOf (envStep (.rstNmiPin .high) { prepared [] [] with wdtctl := 0xA0, pin := .low }) (·.ifg1)
      = some 0x12 := by decide
theorem test_port_edge :
    outcomeOf (envStep (.portPin .p0 3 .high) (prepared [] [])) (fun t => (t.p0.ifg, t.p0.pins)) = some (0x08, 0x08) := by
  decide
theorem test_port_p00_falling_edge :
    outcomeOf (envStep (.portPin .p0 0 .low) { prepared [] [] with p0 := { Port.reset with ies := 1, pins := 1 } }) (·.ifg1)
      = some 0x06 := by decide

/-! ### Witnesses: for every statement with hypotheses, states and operands that meet them -/

/-- An outcome is a next state. -/
def completes {α : Type} (x : Result α) : Bool :=
  match x with
  | .next _ => true
  | .fault _ | .refused _ => false

/-- A value read at SP is known, so that a condition on it can be decided. -/
theorem known_value {a x : Word} {s : State} {p : Word → Prop} (h : readWord a s = .next x) (hp : p x) :
    ∀ v, readWord a s = .next v → p v := by
  intro v hv
  rw [h] at hv
  cases hv
  exact hp

theorem witness_DecodeOfEncodeGivesTheInstruction :
    (Instr.mov .word (.imm 0xFFFF) (.indexed 15 0x8000)).wellFormed = true ∧ (Instr.push (.const .minusOne)).wellFormed = true := by
  decide
theorem witness_EncodeOfDecodeGivesTheWords :
    decode [0x403F, 0xFFFF, 0x1300] = .ok (.mov .word (.imm 0xFFFF) (.reg 15), [0x1300]) := by decide
theorem witness_WordsOutOfScopeAreRefused :
    (cpuMoves (prepared [0x5405] []) [] ∧ runsNext (prepared [0x5405] []) = true ∧
      readWord 0xF000 (prepared [0x5405] []) = .next 0x5405 ∧ (0x5405 : Word).toNat / 0x1000 = 5 ∧
      (0x5405 : Word).toNat / 0x40 = 0x150) ∧
    (cpuMoves (prepared [0x127F] []) [] ∧ runsNext (prepared [0x127F] []) = true ∧
      readWord 0xF000 (prepared [0x127F] []) = .next 0x127F ∧ (0x127F : Word).toNat / 0x40 = 0x49) :=
  ⟨⟨.inl ⟨rfl, rfl⟩, by decide, rfl, by decide, by decide⟩, ⟨.inl ⟨rfl, rfl⟩, by decide, rfl, by decide⟩⟩
theorem witness_OperandFormsNotAdmittedAreRefused :
    (0x1240 : Word).toNat / 0x40 = 0x49 ∧ (Src.indirectInc 1).register? = some 1 ∧ (Dst.indexed 5 2).register? = some 5 ∧
      (0x4083 : Word).toNat / 0x1000 = 4 ∧ (0xD4F3 : Word).toNat / 0x1000 = 0xD ∧ (0xD4F3 : Word).getLsbD 7 = true ∧
      (0xD4F3 : Word).toNat % 0x10 = 3 := by decide
/-- Right after EINT, with a request of P0.0 and a NOP at PC. -/
def gieJustSet : State :=
  { prepared [0x4303] [] with ifg1 := 0x06, ie1 := 0x04, sr := 0x0008, gieFresh := true }
theorem witness_StepRunsTheDecodedInstruction :
    (cpuMoves (prepared [0xD032, 0x0018] []) [] ∧ runsNext (prepared [0xD032, 0x0018] []) = true ∧
      (prepared [0xD032, 0x0018] []).pc.getLsbD 0 = false ∧
      wordsAt 0xF000 [0xD032, 0x0018] (prepared [0xD032, 0x0018] []) ∧
      decode [0xD032, 0x0018] = .ok (.bis .word (.imm 0x18) (.reg 2), [])) ∧
    (runsNext { gieJustSet with ifg1 := 0x02 } = true ∧ wordsAt 0xF000 [0x4303] gieJustSet) :=
  ⟨⟨.inl ⟨rfl, rfl⟩, by decide, by decide, ⟨rfl, rfl, trivial⟩, by decide⟩, by decide, ⟨rfl, trivial⟩⟩
/-- `MOV &x,&y` at 02FCh, its last word outside RAM. -/
def atEndOfRam (x : Word) : State := { prepared [] [0x4292, x] with pc := 0x02FC }
theorem witness_SourceIsCompleteBeforeTheDestination :
    decode [0x4292, 0x0200, 0x0000] = .ok (.mov .word (.absolute 0x0200) (.absolute 0x0000), []) ∧
    (cpuMoves (atEndOfRam 0x0200) [] ∧ runsNext (atEndOfRam 0x0200) = true ∧
      wordsAt 0x02FC [0x4292, 0x0200] (atEndOfRam 0x0200) ∧
      stopOf ((resolveSource .word (.absolute 0x0200) (atEndOfRam 0x0200).advance).bind fun _ => .next (atEndOfRam 0))
        = some (.inl .unwrittenMemory)) ∧
    (stopOf ((resolveSource .word (.absolute 0x0000) (atEndOfRam 0x0000).advance).bind fun _ => .next (atEndOfRam 0))
        = some (.inr .wordAccessToSfr)) ∧
    (completes (resolveSource .word (.absolute 0x02FC) (atEndOfRam 0x02FC).advance) = true ∧
      readWord 0x0300 (atEndOfRam 0x02FC) = .refused .unmappedAddress) :=
  ⟨by decide, ⟨.inl ⟨rfl, rfl⟩, by decide, ⟨rfl, rfl, trivial⟩, by decide⟩, by decide, by decide, rfl⟩
theorem test_source_stops_first :
    [stopOf (step (atEndOfRam 0x0200)), stopOf (step (atEndOfRam 0x02FC))]
      = [some (.inl .unwrittenMemory), some (.inr .unmappedAddress)] := by decide
theorem witness_CpuWithoutAStepStays :
    (cpuMoves { prepared [] [] with schedule := [.cpu] } [] ∧
      ({ prepared [] [] with hold := some .rstPin } : State).hold.isSome = true) ∧
    acceptedSource false ((prepared [] []).setSr 0x0010) = none ∧ cpuOffBit 0x0010 = true ∧
    acceptedSource true { gieJustSet with sr := 0x0018 } = none ∧ cpuOffBit 0x0018 = true :=
  ⟨⟨.inr rfl, rfl⟩, by decide, by decide, by decide, by decide⟩
theorem witness_RequestIsServedAtTheBoundary :
    (cpuMoves p00Pending [] ∧ p00Pending.hold = none ∧ p00Pending.gieFresh = false ∧
      acceptedSource false p00Pending = some (.row 13)) ∧
    (acceptedSource false { gieJustSet with ifg1 := 0x16 } = some .nmi ∧ gieJustSet.gieFresh = true) :=
  ⟨⟨.inl ⟨rfl, rfl⟩, rfl, rfl, by decide⟩, by decide, rfl⟩
theorem witness_NewGieMayTakeOneInstruction :
    (cpuMoves gieJustSet [] ∧ gieJustSet.hold = none ∧ gieJustSet.gieFresh = true ∧ cpuOffBit gieJustSet.sr = false ∧
      acceptedSource false gieJustSet = some (.row 13) ∧ gieBit gieJustSet.sr = true ∧
      completes (executeNext { gieJustSet with gieFresh := false, draws := 1 }) = true) ∧
    (cpuOffBit 0x0018 = true ∧ acceptedSource false { gieJustSet with sr := 0x0018 } = some (.row 13)) :=
  ⟨⟨.inl ⟨rfl, rfl⟩, rfl, rfl, by decide, by decide, by decide, by decide⟩, by decide, by decide⟩
theorem witness_GieGatesMaskableSourcesOnly :
    gieBit 0 = false ∧ acceptedSource true { prepared [] [] with ifg1 := 0x12 } = some .nmi ∧
      (0x12 : Byte).getLsbD 4 = true := by decide
theorem witness_HighestPriorityIsServed :
    acceptedSource false { p00Pending with ifg1 := 0x0C, ie1 := 0x0C } = some (.row 13) ∧
      requests (.row 12) { p00Pending with ifg1 := 0x0C, ie1 := 0x0C } = true := by decide
theorem witness_SomeRequestIsServed :
    requests (.row 13) p00Pending = true ∧ acceptedSource false p00Pending = some (.row 13) := by decide
theorem witness_VectorsOfTheTable :
    (defaultVectors .d310)[(4 : Row)].name = .vacant ∧ (defaultVectors .d320)[(4 : Row)].name = .timerPort := by decide
theorem witness_RequestConditions :
    p00Pending.platform.vectors = defaultVectors p00Pending.platform.device ∧ p00Pending.ie1.getLsbD 1 = false ∧
      p00Pending.ifg1.getLsbD 4 = false ∧ p00Pending.ifg1.getLsbD 1 = true := by decide
theorem witness_WatchdogRequestsInTimerModeOnly :
    (tmselBit 0x00 = false ∧ ∀ g ∈ defaultPlatform.vectors[(10 : Row)].flags, g.flag = .ifg1 0) ∧
      tmselBit 0x10 = true ∧ requests (.row 10) { p00Pending with ifg1 := 1, ie1 := 1, wdtctl := 0x10 } = true := by
  decide
theorem witness_InterruptEntryPushesPcThenSr :
    (0x0204 : Word).getLsbD 0 = false ∧ wordInRam defaultPlatform (0x0204 - 2 : Word).toNat = true ∧
      wordInRam defaultPlatform (0x0204 - 4 : Word).toNat = true ∧
      wordReadable (vectorAddress (.row 13)) ((prepared [] []).setSp 0x0204) = true ∧
      ByteRegister.ie1.isFlags = false ∧ covers .word 0x0202 0x0204 = false ∧ covers .word 0x0200 0x0204 = false ∧
      registerAt 0x0204 (prepared [] []) = none ∧ registerAt 0x0015 (prepared [] []) = some (.port .p0 .enable) := by
  decide
theorem witness_InterruptEntryKeepsOnlyScg0 :
    p00Pending.sp - 2 ≠ wdtctlAddress ∧ p00Pending.sp - 4 ≠ wdtctlAddress ∧
      completes (interruptSequence (.row 13) p00Pending) = true := by decide
theorem witness_ServiceResetsSingleSourceFlags :
    completes (enterHandler (.row 13) p00Pending) = true ∧ completes (enterHandler .nmi p00Pending) = true ∧
      FlagBit.ifg1 2 ∈ (Source.row 13).flagsIn defaultPlatform.vectors ∧
      FlagBit.ifg1 3 ∉ (Source.row 13).flagsIn defaultPlatform.vectors ∧
      defaultPlatform.vectors[(13 : Row)].kind = .single ∧ defaultPlatform.vectors[(0 : Row)].kind = .multiple ∧
      FlagBit.port .p0 2 ∈ (Source.row 0).flagsIn defaultPlatform.vectors ∧
      completes (enterHandler (.row 0) { p00Pending with mem := placeWords 0xFFE0 [0xF040] [] }) = true := by decide
theorem witness_RetiPopsSrThenPc :
    wordReadable 0x02FC (prepared [] [0x0107, 0xF100]) = true ∧ wordReadable (0x02FC + 2) (prepared [] [0x0107, 0xF100]) = true ∧
      ∀ v, readWord 0x02FC (prepared [] [0x0107, 0xF100]) = .next v → hasReservedSrBit v = false :=
  ⟨by decide, by decide, known_value (x := 0x0107) rfl (by decide)⟩
theorem witness_RetiStopsByName :
    (0x02FD : Word).getLsbD 0 = true ∧ readWord 0x02FC (prepared [] [0x0218, 0xF100]) = .next 0x0218 ∧
      hasReservedSrBit 0x0218 = true := ⟨by decide, rfl, by decide⟩
theorem witness_RetiUndoesInterruptEntry :
    p00Pending.sp.getLsbD 0 = false ∧ wordInRam defaultPlatform (p00Pending.sp - 2).toNat = true ∧
      wordInRam defaultPlatform (p00Pending.sp - 4).toNat = true ∧ hasReservedSrBit p00Pending.sr = false ∧
      completes (interruptSequence (.row 13) p00Pending) = true ∧
      outcomeOf (interruptSequence (.row 13) p00Pending) (·.sp) = some 0x02F8 ∧
      outcomeOf (readWord 0x02F8 { prepared [] [] with mem := placeWords 0x02F8 [0x0058, 0xF012, 0xAAAA] [] })
        (fun v => decide (v = p00Pending.sr)) = some true ∧
      outcomeOf (readWord 0x02FA { prepared [] [] with mem := placeWords 0x02F8 [0x0058, 0xF012, 0xAAAA] [] })
        (fun v => decide (v = p00Pending.pc)) = some true := by decide
theorem witness_ResetTransitionLeavesTheResetValues :
    wordReadable resetVector (prepared [] []) = true ∧ ResetCause.keyViolation ≠ .powerUp ∧
      kindOf defaultPlatform 0xFFFF = .rom ∧ kindOf defaultPlatform 0x0200 ≠ .rom := by decide
theorem witness_EveryResetClearsSr : completes (resetTransition .wdtOverflow p00Pending) = true := by decide
theorem witness_WdtifgTellsTheResetSource :
    completes (step { prepared [] [] with schedule := [.env .powerUp] }) = true ∧
    (nmiBit (prepared [] []).wdtctl = false ∧
      completes (step { prepared [] [] with schedule := [.env (.rstNmiPin .low)] }) = true) ∧
    (watchdogMayExpire (prepared [] []) = true ∧ tmselBit (prepared [] []).wdtctl = false ∧
      completes (step { prepared [] [] with schedule := [.env .watchdogOverflow] }) = true) ∧
    (hiByte 0x5B00 ≠ defaultPlatform.wdtKey ∧
      completes (exec (.mov .word (.imm 0x5B00) (.absolute wdtctlAddress)) (prepared [] [])) = true) := by decide
theorem witness_LowPinHoldsUntilReleased :
    completes (resetTransition .rstPin { prepared [] [] with pin := .low }) = true ∧
      completes ((resetTransition .rstPin { prepared [] [] with pin := .low }).bind
        (envStep (.rstNmiPin .high))) = true := by decide
theorem witness_WdtctlWriteChecksThePassword :
    (hiByte 0x5B00 ≠ defaultPlatform.wdtKey ∧ completes (writeWord wdtctlAddress 0x5B00 (prepared [] [])) = true) ∧
    (hiByte 0x5A60 = defaultPlatform.wdtKey ∧ (0x5A60 : Word).getLsbD 5 = true ∧
      (0x5A60 : Word).getLsbD 6 ≠ nmiesBit (prepared [] []).wdtctl) ∧
    (hiByte 0x5A00 = defaultPlatform.wdtKey ∧ (0x5A00 : Word).getLsbD 5 = false ∧
      completes (writeWord wdtctlAddress 0x5A00 { prepared [] [] with pin := .low, wdtctl := 0x20 }) = true) := by decide
theorem witness_MovToWdtctlStoresOrResets :
    (hiByte 0x5A88 = defaultPlatform.wdtKey ∧ (0x5A88 : Word).getLsbD 6 = nmiesBit (prepared [] []).wdtctl ∧
      (prepared [] []).pin = .high) ∧
    (hiByte 0x5B00 ≠ defaultPlatform.wdtKey ∧ wordReadable resetVector (prepared [] []) = true) := by decide
theorem witness_WordsAreLittleEndian :
    kindOf defaultPlatform (0x0200 : Word).toNat = .ram ∧ completes (writeWord 0x0200 0xBEEF (prepared [] [])) = true ∧
      completes (writeWord 0x02FE 0xBEEF (prepared [] [])) = true := by decide
theorem witness_StoreLeavesEveryOtherByte :
    (0x02FE : Word) ≠ wdtctlAddress ∧ completes (writeMem .word 0x02FE 0xBEEF (prepared [] [])) = true ∧
      completes (writeMem .byte 0x0013 0x00FF (prepared [] [])) = true ∧ covers .word 0x02FE 0x02FD = false := by decide
theorem witness_MisalignedAccessesFault :
    (0x0201 : Word).getLsbD 0 = true ∧ runsNext ((prepared [] []).setPc 0xF001) = true ∧ (0xF001 : Word).getLsbD 0 = true ∧
      (0x02FD : Word).getLsbD 0 = true ∧ pushAdmitted (.const .one) = true ∧
      completes (resolveSource .word (.const .one) ((prepared [] []).setSp 0x02FD).advance) = true := by decide
/-- A platform whose RAM ends at an even address, with word peripherals at 0100h. -/
def oddMap : State :=
  { prepared [] [] with platform := { defaultPlatform with
      regions := [⟨0x0010, 0x002F, .peripheral8⟩, ⟨0x0100, 0x01FF, .peripheral16⟩, ⟨0x0201, 0x02FE, .ram⟩] } }
theorem witness_AccessesStopByName :
    kindOf defaultPlatform (0x0300 : Word).toNat = .unmapped ∧ kindOf defaultPlatform (0xF000 : Word).toNat = .rom ∧
      (0x000E : Word).getLsbD 0 = false ∧ kindOf defaultPlatform (0x0010 : Word).toNat = .peripheral8 ∧
      (0x02 : Byte).getLsbD 1 = true ∧ kindOf defaultPlatform (0x02FF : Word).toNat = .ram ∧
      (prepared [] []).mem.read 0x02FF = none ∧ wordInRam defaultPlatform (0x02FE : Word).toNat = true ∧
      kindOf defaultPlatform (0x0027 : Word).toNat = .peripheral8 ∧ portRegister? defaultPlatform 0x0027 = none ∧
      kindOf oddMap.platform (0x0102 : Word).toNat = .peripheral16 ∧
      kindOf oddMap.platform (0x0120 : Word).toNat = .peripheral16 ∧
      kindOf oddMap.platform (0x02FE : Word).toNat = .ram ∧ kindOf oddMap.platform (0x02FF : Word).toNat = .unmapped := by
  decide
theorem test_map_is_by_address :
    [kindOf oddMap.platform 0x0200, kindOf oddMap.platform 0x0201, kindOf oddMap.platform 0x0120]
      = [.unmapped, .ram, .peripheral16] := by decide
theorem witness_RegisterWriteIsReadBack :
    registerAt 0x0000 (prepared [] []) = some .ie1 ∧ ByteRegister.ie1.isInput = false ∧
      completes (writeByte 0x0000 0x0D (prepared [] [])) = true ∧ registerAt 0x002E (prepared [] []) = some .p2sel ∧
      completes (writeByte 0x002E 0xFF (prepared [] [])) = true ∧
      registerAt 0x0020 (prepared [] []) = some (.port .p1 .input) ∧ (ByteRegister.port .p1 .input).isInput = true ∧
      completes (writeByte 0x0020 0xFF (prepared [] [])) = true := by decide
theorem witness_RomNeverChanges :
    completes (step p00Pending) = true ∧ kindOf defaultPlatform 0xF000 = .rom := by decide
theorem witness_SourceOperandReadsAndIncrements :
    (Src.indirectInc 5).exists = true ∧
      completes (resolveSource .byte (.indirectInc 5) (setReg 5 0x02FC (prepared [] [0xBEEF]))) = true := by decide
/-- R5 points to a written word of RAM. -/
def pointed : State := setReg 5 0x02FC (prepared [] [0xBEEF])
theorem witness_MovPlacesTheSource :
    formatIAdmitted .word (.indirectInc 5) (.absolute 0x02FE) = true ∧
      sourceReadable .word (.indirectInc 5) pointed.advance = true ∧
      locWritable .word (.mem 0x02FE) 0xBEEF pointed = true := by decide
theorem witness_BicPlacesDestinationAndNotSource :
    formatIAdmitted .byte (.const .one) (.indexed 5 1) = true ∧ sourceReadable .byte (.const .one) pointed.advance = true ∧
      locReadable .byte (.mem 0x02FD) pointed = true ∧ locWritable .byte (.mem 0x02FD) 0x00BE pointed = true := by decide
theorem witness_BisPlacesDestinationOrSource :
    formatIAdmitted .word (.imm 0x5A00) (.absolute 0x0120) = true ∧ locReadable .word (.mem 0x0120) pointed = true ∧
      locWritable .word (.mem 0x0120) 0x7B00 pointed = true := by decide
theorem witness_RegisterFormsGiveAnExactNextState :
    (5 : Reg) ≠ 3 ∧ (3 : Reg) ≠ 2 ∧ (0 : Reg) ≠ 2 ∧ (5 : Reg) ≠ 1 ∧ (0x0202 : Word).getLsbD 0 = false ∧
      wordInRam defaultPlatform (0x0202 - 2 : Word).toNat = true := by decide
theorem witness_PushStoresBelowSp :
    pushAdmitted (.indirectInc 5) = true ∧ sourceReadable .word (.indirectInc 5) pointed.advance = true ∧
      wordWritable (0x02FC - 2) 0xBEEF pointed = true := by decide
theorem witness_PopLoadsFromSp :
    (2 : Reg) ≠ 1 ∧ wordReadable 0x02FC (prepared [] [0x0018]) = true ∧
      ∀ v, readWord 0x02FC (prepared [] [0x0018]) = .next v → hasReservedSrBit v = false :=
  ⟨by decide, by decide, known_value (x := 0x0018) rfl (by decide)⟩
theorem witness_EintSetsGie : hasReservedSrBit 0x01FF = false := by decide
theorem witness_EmulatedInstructionsAreTheirExpansions : (0 : Reg) ≠ 1 := by decide
theorem witness_SrDestinationTakesTheWholeResult :
    formatIAdmitted .word (.imm 0x0200) (.reg 2) = true ∧ formatIAdmitted .byte (.imm 0x01FF) (.reg 2) = true ∧
      resolveSource .word (.imm 0x0200) (prepared [] []).advance = .next (0x0200, (prepared [] []).advance.advance) ∧
      hasReservedSrBit 0x0200 = true ∧ hasReservedSrBit 0x01FF = false :=
  ⟨by decide, by decide, rfl, by decide, by decide⟩
theorem witness_PcDestinationBranches :
    formatIAdmitted .word (.imm 0xF040) (.reg 0) = true ∧
      resolveSource .word (.imm 0xF040) (prepared [] []).advance = .next (0xF040, (prepared [] []).advance.advance) :=
  ⟨by decide, rfl⟩
theorem witness_RegisterDestinationFrame :
    completes (exec (.bis .word (.indirectInc 5) (.reg 6)) pointed) = true := by decide
theorem witness_MemoryDestinationFrame :
    (completes (exec (.mov .word (.indirectInc 5) (.absolute 0x02FE)) pointed) = true ∧
      completes (resolveSource .word (.indirectInc 5) pointed.advance) = true) ∧
    (resolveDest (.absolute 0x0120) pointed).1 = .mem wdtctlAddress ∧
      completes (exec (.mov .word (.imm 0x5A80) (.absolute 0x0120)) pointed) = true := by decide
theorem witness_PushFrame :
    completes (exec (.push (.indirectInc 5)) pointed) = true ∧ (0x0122 : Word) - 2 = wdtctlAddress ∧
      completes (exec (.push (.imm 0x5A80)) (pointed.setSp 0x0122)) = true := by decide
theorem witness_PopEintRetiFrame :
    completes (exec (.pop 6) (prepared [] [0x0018, 0xF040])) = true ∧ completes (exec .eint (prepared [] [])) = true ∧
      completes (exec .reti (prepared [] [0x0018, 0xF040])) = true := by decide
theorem witness_PcMovesPastTheInstruction :
    completes (exec (.push (.const .one)) pointed) = true ∧ pointed.sp - 2 ≠ wdtctlAddress ∧
      Instr.push (.const .one) ≠ .pop 0 := by decide
theorem witness_ModeFromSr :
    cpuOffBit 0x0030 = true ∧ oscOffBit 0x0030 = true ∧ oscOffBit 0x0010 = false ∧ scg1Bit 0x0090 = true ∧
      scg0Bit 0x0090 = false ∧ scg0Bit 0x0050 = true ∧ scg1Bit 0x00D0 = true ∧ scg0Bit 0x00D0 = true := by decide
/-- In LPM4, on a platform that blocks some sources there: of P0.1, whose flag has two, the 8-bit Timer/Counter. -/
def filtered : State :=
  { prepared [] [] with
    sr := 0x0030
    platform := { defaultPlatform with
      wakeFilter := [(.lpm4, .nmiPin), (.lpm4, .pin .p0 3), (.lpm4, .moduleFlag .usartReceive),
        (.lpm4, .moduleFlag .timerCounter), (.lpm4, .watchdog), (.lpm4, .oscillator)] } }
theorem witness_PinChangeSetsNmiOrResets :
    (nmiBit 0x20 = true ∧ nmiesBit 0x20 = false) ∧ (nmiBit 0x60 = true ∧ nmiesBit 0x60 = true) ∧
      sourceBlocked .nmiPin (prepared [] []) = false ∧ sourceBlocked .nmiPin filtered = true ∧
      completes (envStep (.rstNmiPin .low) (prepared [] [])) = true := by decide
theorem witness_PortEdgeSetsTheFlag :
    (Port.reset.ies.getLsbD 7 = false ∧ Port.reset.pins.getLsbD 7 = false) ∧
      (({ Port.reset with ies := 1, pins := 1 } : Port).ies.getLsbD 0 = true) ∧
      sourceBlocked (.pin .p0 3) (prepared [] []) = false ∧ sourceBlocked (.pin .p0 3) filtered = true := by decide
theorem witness_FaultAndModuleEventsSetTheirFlags :
    sourceBlocked .oscillator (prepared [] []) = false ∧ sourceBlocked .oscillator filtered = true ∧
      sourceBlocked (.moduleFlag .usartReceive) (prepared [] []) = false ∧
      sourceBlocked (.moduleFlag .usartReceive) filtered = true ∧ (Mode.lpm4, FlagSource.nmiPin) ∈ filtered.platform.wakeFilter ∧
      modeOf filtered.sr = some .lpm4 := by decide
/-- R161, LPM4: an external pin sets the flag that it shares with the 8-bit Timer/Counter, which cannot. -/
theorem test_wake_filter_by_source :
    outcomeOf (envStep (.portPin .p0 1 .high) filtered) (·.ifg1) = some 0x0A ∧
      outcomeOf (envStep (.moduleFlag .timerCounter) filtered) (·.ifg1) = some 0x02 := by decide
theorem test_module_flag :
    outcomeOf (envStep (.moduleFlag .basicTimer) (prepared [] [])) (fun t => (t.ifg1, t.ifg2)) = some (0x02, 0x80) := by decide
theorem witness_WatchdogOverflowFlagsOrResets :
    (prepared [] []).platform.wdtMayExpire = defaultWdtMayExpire ∧
      watchdogMayExpire ((prepared [] []).setWdtctl 0x80) = false ∧
      (watchdogMayExpire ((prepared [] []).setWdtctl 0x10) = true ∧ tmselBit 0x10 = true ∧
        sourceBlocked .watchdog (prepared [] []) = false ∧ sourceBlocked .watchdog filtered = true ∧
        watchdogMayExpire (filtered.setWdtctl 0x10) = true) ∧
      (watchdogMayExpire (prepared [] []) = true ∧ wordReadable resetVector (prepared [] []) = true) := by decide
/-- R5: `WDT_MAY_EXPIRE` is a predicate on the state; here HOLD = 0 and not in reset. -/
theorem test_watchdog_predicate :
    ([none, some ResetCause.rstPin].map fun held => watchdogMayExpire { prepared [] [] with
      hold := held
      platform := { defaultPlatform with
        wdtMayExpire := .and (.not (.bit (.wdtctl 7))) (.not (.bit .inReset)) } }) = [true, false] := by decide
theorem witness_EventsLeaveTheCpuAlone :
    completes (envStep (.rstNmiPin .low) { prepared [] [] with wdtctl := 0x20 }) = true ∧
      completes (envStep .watchdogOverflow { prepared [] [] with wdtctl := 0x10 }) = true ∧
      EnvEvent.oscillatorFault ≠ .modules ⟨Vector.replicate 14 true, Vector.replicate 14 true⟩ := by decide
theorem witness_EveryStepKeepsTheInvariant :
    (prepared [0x4303] []).Inv ∧ completes (step (prepared [0x4303] [])) = true := by
  refine ⟨⟨by decide, by decide, by decide, by decide, ?_, by decide, by decide, ?_, ?_⟩, by decide⟩
  · intro r
    cases r with
    | port p f => cases p <;> cases f <;> decide
    | ie1 | ie2 | ifg1 | ifg2 | me1 | me2 | p1sel | p2sel => decide
  · intro c hc
    cases hc
  · intro h
    cases h

end Sys2Proof.Tests
end

/-! # The invariant of every step (10_state.md)

Each operation keeps `State.Inv` because of what it leaves alone. One lemma per operation says so, and the step puts them
together. -/

namespace Sys2Proof.Machine

variable {s t u : State} {w : Width} {a v x : Word} {src : Src} {dst : Dst}

/-! ### Bits that are reserved -/

/-- No bit of `b` outside `known` is set exactly when every bit of `b` that is set is one of `known`. -/
theorem and_not_eq_zero_iff (b known : Byte) :
    b &&& ~~~known = 0 ↔ ∀ i, b.getLsbD i = true → known.getLsbD i = true := by
  constructor
  · intro h i hi
    have hlt : i < 8 := BitVec.lt_of_getLsbD hi
    have hz : (b &&& ~~~known).getLsbD i = false := by rw [h]; exact BitVec.getLsbD_zero
    rw [BitVec.getLsbD_and, BitVec.getLsbD_not, hi] at hz
    simpa [hlt] using hz
  · intro h
    apply BitVec.eq_of_getLsbD_eq
    intro i hi
    rw [BitVec.getLsbD_and, BitVec.getLsbD_not]
    cases hb : b.getLsbD i
    · simp
    · simp [h i hb]

/-- A byte masked with bits of `known` has no other bit. -/
theorem masked_and_not_eq_zero (b : Byte) {mask known : Byte} (h : mask &&& ~~~known = 0) :
    (b &&& mask) &&& ~~~known = 0 := by
  rw [BitVec.and_assoc, h]
  exact BitVec.and_zero

/-- A register whose bits are all defined has no reserved bit. -/
theorem and_not_full (b : Byte) : b &&& ~~~0xFF = 0 := BitVec.and_zero

/-- The flag is no reserved bit of its register (R29, R30, R39); a module's flag stands in no register. -/
def FlagBit.isDefined (d : Device) : FlagBit → Bool
  | .ifg1 n => (definedBits d .ifg1).getLsbD n.val
  | .ifg2 n => (definedBits d .ifg2).getLsbD n.val
  | .port p n => (definedBits d (.port p .flags)).getLsbD n.val
  | .module _ => true

/-- Every source sets a flag that is defined. -/
theorem FlagSource.flag_isDefined (d : Device) (src : FlagSource) : src.flag.isDefined d = true := by
  cases src with
  | nmiPin | oscillator | watchdog | row _ => cases d <;> rfl
  | moduleFlag f => cases d <;> cases f <;> rfl
  | pin p n => cases d <;> cases p <;> revert n <;> decide

/-- In a state that meets the invariant a flag that is set is defined. -/
theorem State.Inv.isDefined_of_get (h : s.Inv) {f : FlagBit} (hf : f.get s = true) :
    f.isDefined s.platform.device = true := by
  cases f with
  | ifg1 n => exact (and_not_eq_zero_iff _ _).1 (h.reservedClear .ifg1) _ hf
  | ifg2 n => exact (and_not_eq_zero_iff _ _).1 (h.reservedClear .ifg2) _ hf
  | port p n => exact (and_not_eq_zero_iff _ _).1 (h.reservedClear (.port p .flags)) _ hf
  | module _ => rfl

/-- Defined flags are the bits of the flag registers that are not reserved. -/
theorem reservedClear_of_isDefined {d : Device} (h : ∀ f : FlagBit, f.get s = true → f.isDefined d = true)
    {r : ByteRegister} (hr : r.isFlags = true) : r.get s &&& ~~~definedBits d r = 0 := by
  rw [and_not_eq_zero_iff]
  intro i hi
  have hlt : i < 8 := BitVec.lt_of_getLsbD hi
  cases r with
  | ifg1 => exact h (.ifg1 ⟨i, hlt⟩) hi
  | ifg2 => exact h (.ifg2 ⟨i, hlt⟩) hi
  | port p f =>
    cases f with
    | flags => exact h (.port p ⟨i, hlt⟩) hi
    | input | output | direction | edgeSelect | enable => cases hr
  | ie1 | ie2 | me1 | me2 | p1sel | p2sel => cases hr

/-! ### States that agree on what the invariant reads -/

/-- The invariant does not read PC, SP, the general registers, the module bits, the count of draws or the schedule. -/
theorem State.Inv.congr (h : s.Inv) (hp : t.platform = s.platform) (hm : t.mem = s.mem)
    (hsr : hasReservedSrBit t.sr = false) (hr : ∀ r : ByteRegister, r.get t = r.get s) (hw : t.wdtctl = s.wdtctl)
    (hpin : t.pin = s.pin) (hh : t.hold = s.hold) (hf : t.gieFresh = true → gieBit t.sr = true) : t.Inv where
  memWf := hm ▸ h.memWf
  memBacked := by rw [hm, hp]; exact h.memBacked
  srReserved := hsr
  ofieClear := by rw [show t.ie1 = s.ie1 from hr .ie1]; exact h.ofieClear
  reservedClear r := by rw [hr, hp]; exact h.reservedClear r
  cntclClear := hw ▸ h.cntclClear
  heldIffPinLow := by rw [hh, hpin, hw]; exact h.heldIffPinLow
  holdIsPor := by rw [hh]; exact h.holdIsPor
  freshMeansGie := hf

/-- The invariant stays when nothing but flags changes and those that are set are defined. -/
theorem State.Inv.of_sameButFlags (h : s.Inv) (hs : SameButFlags s t)
    (hf : ∀ f : FlagBit, f.get t = true → f.isDefined s.platform.device = true) : t.Inv where
  memWf := hs.mem ▸ h.memWf
  memBacked := by rw [hs.mem, hs.platform]; exact h.memBacked
  srReserved := by rw [show t.sr = s.sr from hs.cpu 2]; exact h.srReserved
  ofieClear := by rw [show t.ie1 = s.ie1 from hs.byteRegs .ie1 rfl]; exact h.ofieClear
  reservedClear r := by
    rw [hs.platform]
    cases hr : r.isFlags
    · rw [hs.byteRegs r hr]; exact h.reservedClear r
    · exact reservedClear_of_isDefined hf hr
  cntclClear := hs.wdtctl ▸ h.cntclClear
  heldIffPinLow := by rw [hs.hold, hs.pin, hs.wdtctl]; exact h.heldIffPinLow
  holdIsPor := by rw [hs.hold]; exact h.holdIsPor
  freshMeansGie := by rw [hs.gieFresh, show t.sr = s.sr from hs.cpu 2]; exact h.freshMeansGie

/-- A defined flag may be set. -/
theorem State.Inv.setFlag (h : s.Inv) {f : FlagBit} (hd : f.isDefined s.platform.device = true) :
    (f.put true s).Inv := by
  refine h.of_sameButFlags (f.put_same true s) fun g hg => ?_
  by_cases he : g = f
  · rw [he]; exact hd
  · rw [FlagBit.get_put_other _ _ he] at hg; exact h.isDefined_of_get hg

theorem raiseFlag_inv (h : s.Inv) (src : FlagSource) : (raiseFlag src s).Inv := by
  rw [raiseFlag_eq]
  split
  · exact h
  · exact h.setFlag (src.flag_isDefined _)

/-- Flags that are served stay or are reset. -/
theorem get_of_get_serveFlags {keep : Bool} {l : List GatedFlag} {f : FlagBit}
    (h : f.get (serveFlags keep l s) = true) : f.get s = true := by
  rw [serveFlags_get] at h
  split at h
  · exact (Bool.and_eq_true_iff.1 h).2
  · exact h

/-- Service sets no flag. -/
theorem get_of_get_acknowledge {src : Source} {f : FlagBit} (h : f.get (acknowledge src s) = true) : f.get s = true := by
  cases src with
  | nmi =>
    by_cases he : f = nmiifg
    · rw [he, acknowledge, FlagBit.get_put_same] at h; cases h
    · rwa [acknowledge, FlagBit.get_put_other _ _ he] at h
  | row n =>
    simp only [acknowledge] at h
    split at h
    · exact get_of_get_serveFlags h
    · exact h
    · simpa using get_of_get_serveFlags h

theorem acknowledge_inv (h : s.Inv) (src : Source) : (acknowledge src s).Inv :=
  h.of_sameButFlags (acknowledge_same src s) fun _ hf => h.isDefined_of_get (get_of_get_acknowledge hf)

theorem State.Inv.setSchedule (h : s.Inv) (l : List Turn) : (s.setSchedule l).Inv :=
  h.congr rfl rfl h.srReserved (by simp) rfl rfl rfl h.freshMeansGie

theorem State.Inv.setModules (h : s.Inv) (m : Modules) : (s.setModules m).Inv :=
  h.congr rfl rfl h.srReserved (by simp) rfl rfl rfl h.freshMeansGie

/-- An instruction remembers a new GIE only while GIE is set. -/
theorem markGie_inv (h : t.Inv) : (markGie s t).Inv :=
  h.congr rfl rfl h.srReserved (by simp [markGie]) rfl rfl rfl (by simp [markGie])

/-! ### Reset (R177) -/

/-- What a reset leaves in a port has no reserved bit. -/
theorem Port.get_afterReset_reserved (cause : ResetCause) (known : Byte) (n : Nat) (p : Port) {f : PortField}
    (hf : f = .flags ∨ f = .enable) : (p.afterReset cause known n).get f &&& ~~~known = 0 := by
  rcases hf with rfl | rfl
  · simp only [Port.get, Port.afterReset]
    split
    · exact BitVec.zero_and
    · exact masked_and_not_eq_zero _ (BitVec.and_not_self _)
  · exact masked_and_not_eq_zero _ (BitVec.and_not_self _)

theorem resetState_reservedClear (cause : ResetCause) (s : State) (d : Device) (r : ByteRegister) :
    r.get (resetState cause s) &&& ~~~definedBits d r = 0 := by
  cases r with
  | ie1 | ie2 | me1 => exact BitVec.zero_and
  | p1sel | p2sel => exact and_not_full _
  | ifg1 =>
    change resetIfg1 cause &&& ~~~0x1F = 0
    cases cause <;> decide
  | me2 => exact masked_and_not_eq_zero _ (by cases d <;> decide)
  | ifg2 =>
    have hu : ∀ b : Byte, b &&& 0x03 &&& ~~~definedBits d .ifg2 = 0 := fun b =>
      masked_and_not_eq_zero b (by cases d <;> decide)
    have hb : ∀ b : Byte, b &&& 0x80 &&& ~~~definedBits d .ifg2 = 0 := fun b =>
      masked_and_not_eq_zero b (by cases d <;> decide)
    simp only [ByteRegister.get, resetState, resetIfg2, BitVec.and_or_distrib_right]
    rw [hu, hb]
    rfl
  | port p f =>
    cases f with
    | flags | enable => cases p <;> exact Port.get_afterReset_reserved _ _ _ _ (by simp)
    | input | output | direction | edgeSelect => cases p <;> exact and_not_full _

/-- A reset gives the invariant, whatever it ends: of the old state only the order of memory counts. -/
theorem resetState_inv (cause : ResetCause) (h : s.mem.wf = true) : (resetState cause s).Inv where
  memWf := Memory.keepRom_wf _ h
  memBacked c hc := .inr (beq_iff_eq.1 (List.mem_filter.1 hc).2)
  srReserved := (by decide : hasReservedSrBit 0 = false)
  ofieClear := BitVec.getLsbD_zero
  reservedClear := resetState_reservedClear cause s s.platform.device
  cntclClear := BitVec.getLsbD_zero
  heldIffPinLow := by
    cases hp : s.pin <;> simp [resetState, resetHold, hp, nmiBit]
    split <;> rfl
  holdIsPor c hc := by
    simp only [resetState, resetHold] at hc
    split at hc
    · cases hc
    · split at hc <;> cases hc <;> rfl
  freshMeansGie := nofun

/-- A completed reset gives the invariant. -/
theorem resetTransition_inv {cause : ResetCause} (h : s.mem.wf = true) (ht : resetTransition cause s = .next t) :
    t.Inv := by
  obtain ⟨v, -, rfl⟩ := resetTransition_eq_next.1 ht
  have hi := resetState_inv cause h
  exact hi.congr rfl rfl hi.srReserved (by simp) rfl rfl rfl hi.freshMeansGie

/-! ### A CPU that runs -/

/-- What an instruction or the interrupt sequence starts in, and keeps up to a reset: the invariant, with the CPU not held
and the boundary past. -/
structure State.Running (s : State) : Prop where
  inv      : s.Inv
  notHeld  : s.hold = none
  notFresh : s.gieFresh = false

theorem State.Running.setSr (h : s.Running) (hv : hasReservedSrBit v = false) : (s.setSr v).Running :=
  ⟨h.inv.congr rfl rfl hv (by simp) rfl rfl rfl (by simp [h.notFresh]), h.notHeld, h.notFresh⟩

/-- A register write that is no write of SR, or that puts no reserved bit into it, keeps the invariant (R25). -/
theorem State.Running.setReg (h : s.Running) {r : Reg} (hv : ¬(r = 2 ∧ hasReservedSrBit v = true)) :
    (setReg r v s).Running := by
  by_cases hr : r = 2
  · subst hr
    exact h.setSr (by simpa using hv)
  · have hsr : (Machine.setReg r v s).sr = s.sr := readReg_setReg_other s v (Ne.symm hr)
    exact ⟨h.inv.congr (by simp) (by simp) (by rw [hsr]; exact h.inv.srReserved) (by simp) (by simp) (by simp) (by simp)
      (by simp [h.notFresh]), by simp [h.notHeld], by simp [h.notFresh]⟩

theorem State.Running.setPc (h : s.Running) (v : Word) : (s.setPc v).Running := h.setReg (r := 0) (by simp)

theorem State.Running.setSp (h : s.Running) (v : Word) : (s.setSp v).Running := h.setReg (r := 1) (by simp)

theorem State.Running.advance (h : s.Running) : s.advance.Running := h.setPc _

theorem State.Running.setDraws (h : s.Running) (n : Nat) : (s.setDraws n).Running :=
  ⟨h.inv.congr rfl rfl h.inv.srReserved (by simp) rfl rfl rfl h.inv.freshMeansGie, h.notHeld, h.notFresh⟩

theorem writeReg_running {r : Reg} (h : s.Running) (ht : writeReg r v s = .next t) : t.Running := by
  obtain ⟨hv, rfl⟩ := writeReg_eq_next.1 ht
  exact h.setReg hv

/-- The boundary is past with the latitude of D10 used up. -/
theorem passBoundary_running (h : s.Inv) (hh : s.hold = none) : (passBoundary s).Running := by
  unfold passBoundary
  split
  · exact ⟨h.congr rfl rfl h.srReserved (by simp) rfl rfl rfl nofun, hh, rfl⟩
  · exact ⟨h, hh, Bool.eq_false_iff.2 ‹_›⟩

/-! ### Stores -/

/-- A byte stored in RAM keeps the canonical form and the kinds of address (R55). -/
theorem State.Inv.writeRam (h : s.Inv) {a : Nat} (b : Byte) (ha : kindOf s.platform a = .ram) :
    (s.setMem (s.mem.write a b)).Inv where
  memWf := Memory.write_wf a b h.memWf
  memBacked c hc := by
    rcases Memory.mem_write hc with rfl | hc
    · exact .inl ha
    · exact h.memBacked c hc
  srReserved := h.srReserved
  ofieClear := h.ofieClear
  reservedClear := by simpa using h.reservedClear
  cntclClear := h.cntclClear
  heldIffPinLow := h.heldIffPinLow
  holdIsPor := h.holdIsPor
  freshMeansGie := h.freshMeansGie

/-- A word stored in RAM is two bytes stored in RAM. -/
theorem State.Inv.writeRamWord (h : s.Inv) {a : Nat} (lo hi : Byte) (ha : wordInRam s.platform a = true) :
    (s.setMem ((s.mem.write a lo).write (a + 1) hi)).Inv :=
  (h.writeRam lo (wordInRam_iff.1 ha).1).writeRam hi (wordInRam_iff.1 ha).2

/-- A byte register takes its defined bits, and IE1 no OFIE (R26, R117). -/
theorem State.Inv.setByteRegister (h : s.Inv) {r : ByteRegister} {b : Byte} (hr : ¬(r = .ie1 ∧ b.getLsbD 1 = true)) :
    (r.set (b &&& definedBits s.platform.device r) s).Inv where
  memWf := by simpa using h.memWf
  memBacked := by simpa using h.memBacked
  srReserved := by simpa using h.srReserved
  ofieClear := by
    change (ByteRegister.ie1.get _).getLsbD 1 = false
    by_cases he : r = .ie1
    · subst he
      have hb : b.getLsbD 1 = false := Bool.eq_false_iff.2 fun hb => hr ⟨rfl, hb⟩
      rw [ByteRegister.get_set_same _ _ _ rfl, BitVec.getLsbD_and, hb, Bool.false_and]
    · rw [ByteRegister.get_set_other _ _ _ (Ne.symm he)]
      exact h.ofieClear
  reservedClear x := by
    rw [ByteRegister.set_platform]
    cases hi : r.isInput
    · by_cases hx : x = r
      · subst hx
        rw [ByteRegister.get_set_same _ _ _ hi]
        exact masked_and_not_eq_zero _ (BitVec.and_not_self _)
      · rw [ByteRegister.get_set_other _ _ _ hx]
        exact h.reservedClear x
    · rw [ByteRegister.set_input _ _ _ hi]
      exact h.reservedClear x
  cntclClear := by simpa using h.cntclClear
  heldIffPinLow := by simpa using h.heldIffPinLow
  holdIsPor := by simpa using h.holdIsPor
  freshMeansGie := by simpa using h.freshMeansGie

/-- The store in WDTCTL may set NMIIFG, and changes nothing else but WDTCTL and the count of draws (R112, R120). -/
theorem storeWdtctl_cases (b : Byte) (s : State) : ∃ s', (s' = s ∨ s' = nmiifg.put true s) ∧
    ∃ n, storeWdtctl b s = (s'.setDraws n).setWdtctl (b &&& wdtctlStored) := by
  unfold storeWdtctl
  split
  · have hd : Config.freeByte s.draws &&& 0x10 =
        if (Config.freeByte s.draws).getLsbD 4 then bitMask 4 else 0 := BitVec.and_twoPow _ 4
    rw [hd]
    split
    · exact ⟨_, .inr rfl, _, rfl⟩
    · exact ⟨s, .inl rfl, s.draws + 1, by rw [show s.ifg1 ||| 0 = s.ifg1 from BitVec.or_zero]; rfl⟩
  · exact ⟨s, .inl rfl, s.draws, rfl⟩

/-- WDTCTL takes a value without CNTCL that keeps a low pin from being a reset input, so that a CPU that is not held stays
so (R34, R174). -/
theorem State.Running.setWdtctl (h : s.Running) {b : Byte} (hc : b.getLsbD 3 = false)
    (hb : nmiBit b = true ∨ s.pin = .high) : (s.setWdtctl b).Running := by
  have hi := h.inv
  refine ⟨⟨hi.memWf, hi.memBacked, hi.srReserved, hi.ofieClear, ?_, hc, ?_, hi.holdIsPor, hi.freshMeansGie⟩,
    h.notHeld, h.notFresh⟩
  · simpa using hi.reservedClear
  · rcases hb with hb | hb <;> simp [h.notHeld, hb]

/-- A store in WDTCTL that makes no low pin a reset input leaves the CPU running. -/
theorem storeWdtctl_running (h : s.Running) {b : Byte} (hb : nmiBit b = true ∨ s.pin = .high) :
    (storeWdtctl b s).Running := by
  obtain ⟨s', hs, n, he⟩ := storeWdtctl_cases b s
  have hr : s'.Running ∧ s'.pin = s.pin := by
    rcases hs with rfl | rfl
    · exact ⟨h, rfl⟩
    · exact ⟨⟨h.inv.setFlag (FlagSource.nmiPin.flag_isDefined _), h.notHeld, h.notFresh⟩, rfl⟩
  have hn : nmiBit (b &&& wdtctlStored) = nmiBit b := by
    rw [nmiBit, nmiBit, BitVec.getLsbD_and]; exact Bool.and_true _
  rw [he]
  refine (hr.1.setDraws n).setWdtctl ?_ ?_
  · rw [BitVec.getLsbD_and]; exact Bool.and_false _
  · rw [hn]; exact hr.2 ▸ hb

/-- A word written to WDTCTL is stored and the CPU runs on, or the machine is reset (R112). -/
theorem writeWdtctl_cases (h : s.Running) (ht : writeWdtctl v s = .next t) :
    t.Inv ∧ (writeCausesReset wdtctlAddress v s = false → t.Running) := by
  unfold writeWdtctl at ht
  split at ht
  · rename_i hk
    exact ⟨resetTransition_inv h.inv.memWf ht, fun hc => by simp [writeCausesReset, hk] at hc⟩
  · split at ht
    · rename_i hl
      refine ⟨resetTransition_inv ?_ ht, fun hc => by simp [writeCausesReset, hl] at hc⟩
      rw [storeWdtctl_eq]
      exact h.inv.memWf
    · rename_i hl
      cases ht
      have hb : nmiBit (loByte v) = true ∨ s.pin = .high := by
        cases hp : s.pin
        · exact .inl (by simpa [selectsLowResetPin, hp] using hl)
        · exact .inr rfl
      have hr := storeWdtctl_running h hb
      exact ⟨hr.inv, fun _ => hr⟩

/-- A completed word write keeps the invariant, and unless it resets the machine the CPU runs on. -/
theorem writeWord_cases (h : s.Running) (ht : writeWord a v s = .next t) :
    t.Inv ∧ (writeCausesReset a v s = false → t.Running) := by
  rcases writeWord_eq_next.1 ht with ⟨-, hk, rfl⟩ | ⟨rfl, ht⟩
  · have hi := h.inv.writeRamWord (loByte v) (hiByte v) hk
    exact ⟨hi, fun _ => ⟨hi, h.notHeld, h.notFresh⟩⟩
  · exact writeWdtctl_cases h ht

theorem writeByte_inv {b : Byte} (h : s.Inv) (ht : writeByte a b s = .next t) : t.Inv := by
  rcases writeByte_eq_next.1 ht with ⟨hk, rfl⟩ | ⟨r, -, hr, rfl⟩
  · exact h.writeRam b hk
  · exact h.setByteRegister hr

theorem writeLoc_inv {l : Loc} (h : s.Running) (ht : writeLoc w l v s = .next t) : t.Inv := by
  cases l with
  | reg r => exact (writeReg_running h ht).inv
  | mem a =>
    cases w with
    | word => exact (writeWord_cases h ht).1
    | byte => exact writeByte_inv h.inv ht

/-- A push keeps the invariant if what follows it does: a push that resets the machine is followed by nothing. -/
theorem pushThen_inv {k : State → Result State} (h : s.Running) (ht : pushThen v s k = .next t)
    (hk : ∀ u, u.Running → k u = .next t → t.Inv) : t.Inv := by
  simp only [pushThen] at ht
  split at ht
  · exact (writeWord_cases (h.setSp _) ht).1
  · rename_i hc
    obtain ⟨u, hu, ht⟩ := Result.bind_eq_next.1 ht
    exact hk u ((writeWord_cases (h.setSp _) hu).2 (Bool.eq_false_iff.2 hc)) ht

/-! ### Instructions (R90, R96 to R101) -/

theorem exists_of_formatIAdmitted (h : formatIAdmitted w src dst = true) : src.exists = true := by
  simp only [formatIAdmitted, Bool.and_eq_true] at h
  exact h.1.1.1.1

theorem exists_of_pushAdmitted (h : pushAdmitted src = true) : src.exists = true := by
  simp only [pushAdmitted, Bool.and_eq_true] at h
  exact h.1.1

/-- No source form that exists increments SR (R74). -/
theorem ne_sr_of_indirectInc_exists {r : Reg} (h : (Src.indirectInc r).exists = true) : r ≠ 2 := by
  rintro rfl
  cases h

theorem resolveSource_running (h : s.Running) (he : src.exists = true) (hs : resolveSource w src s = .next (v, t)) :
    t.Running := by
  obtain ⟨n, rfl⟩ := resolveSource_state hs
  cases src with
  | reg _ | indirect _ | const _ => exact h.setDraws n
  | indexed _ _ | symbolic _ | absolute _ | imm _ => exact (h.setDraws n).advance
  | indirectInc r => exact (h.setDraws n).setReg fun hr => ne_sr_of_indirectInc_exists he hr.1

theorem resolveDest_running (h : s.Running) (dst : Dst) : (resolveDest dst s).2.Running := by
  rcases resolveDest_state dst s with e | e <;> rw [e]
  · exact h
  · exact h.advance

theorem exec_formatI_inv {i : Instr} (hi : i = .mov w src dst ∨ i = .bic w src dst ∨ i = .bis w src dst)
    (h : s.Running) (ht : exec i s = .next t) : t.Inv := by
  obtain ⟨ha, v, s1, x, n, hs, ht⟩ := exec_formatI_cases hi ht
  have hs1 := resolveSource_running h.advance (exists_of_formatIAdmitted ha) hs
  exact writeLoc_inv ((resolveDest_running hs1 dst).setDraws n) ht

/-- A return loads SR, PC and SP, and SR takes no reserved bit (R90, R25). -/
theorem returnFromInterrupt_inv (h : s.Running) (ht : returnFromInterrupt s = .next t) : t.Inv := by
  obtain ⟨sr, pc, -, hr, -, rfl⟩ := returnFromInterrupt_eq_next.1 ht
  exact (((h.setSr hr).setPc pc).setSp (s.sp + 4)).inv

/-- Every instruction keeps the invariant. -/
theorem exec_inv (i : Instr) (h : s.Running) (ht : exec i s = .next t) : t.Inv := by
  cases i with
  | mov w src dst => exact exec_formatI_inv (.inl rfl) h ht
  | bic w src dst => exact exec_formatI_inv (.inr (.inl rfl)) h ht
  | bis w src dst => exact exec_formatI_inv (.inr (.inr rfl)) h ht
  | push src =>
    obtain ⟨ha, v, s1, hs, hp⟩ := exec_push_eq_next.1 ht
    refine pushThen_inv (resolveSource_running h.advance (exists_of_pushAdmitted ha) hs) hp fun u hu hn => ?_
    cases hn
    exact hu.inv
  | reti => exact returnFromInterrupt_inv h ht
  | pop d =>
    obtain ⟨-, v, -, hw⟩ := exec_pop_eq_next.1 ht
    exact (writeReg_running (h.advance.setSp _) hw).inv
  | eint => exact (writeReg_running h.advance ht).inv

/-! ### The step -/

/-- SR after interrupt entry has no bit but SCG0 (R130). -/
theorem entrySr_reserved (sr : Word) : hasReservedSrBit (entrySr sr) = false := by
  have h : entrySr sr &&& reservedSrBits = 0 := by rw [entrySr, BitVec.and_assoc]; exact BitVec.and_zero
  rw [hasReservedSrBit, h]
  rfl

theorem enterHandler_inv {src : Source} (h : s.Running) (ht : enterHandler src s = .next t) : t.Inv := by
  obtain ⟨v, -, rfl⟩ := enterHandler_eq_next.1 ht
  have hs := acknowledge_same src s
  have ha : (acknowledge src s).Running :=
    ⟨acknowledge_inv h.inv src, hs.hold.trans h.notHeld, hs.gieFresh.trans h.notFresh⟩
  have hr := ha.setSr (entrySr_reserved s.sr)
  have hf := hr.notFresh
  rw [← hf, State.setGieFresh_self]
  exact (hr.setPc v).inv

theorem interruptSequence_inv {src : Source} (h : s.Running) (ht : interruptSequence src s = .next t) : t.Inv :=
  pushThen_inv h ht fun _ h1 ht1 => pushThen_inv h1 ht1 fun _ h2 ht2 => enterHandler_inv h2 ht2

theorem cpuStep_inv (h : s.Inv) (ht : cpuStep s = .next t) : t.Inv := by
  rcases cpuStep_cases ht with rfl | ⟨hh, rfl⟩ | ⟨src, -, hh, ht⟩ | ⟨hh, ht⟩
  · exact h
  · exact (passBoundary_running h hh).inv
  · exact interruptSequence_inv (passBoundary_running h hh) ht
  · obtain ⟨i, u, -, hu, rfl⟩ := executeNext_cases ht
    exact markGie_inv (exec_inv i (passBoundary_running h hh) hu)

/-! ### Events of the environment (R119, R144, R152) -/

theorem ByteRegister.get_withPin (r : ByteRegister) (level : Level) : r.get { s with pin := level } = r.get s := by
  rcases r with _ | _ | _ | _ | _ | _ | ⟨_ | _ | _, _⟩ | _ | _ <;> rfl

/-- A level at the RST/NMI pin that does not hold the CPU, and leaves none held. -/
theorem State.Inv.withPin (h : s.Inv) (hh : s.hold = none) {level : Level}
    (hl : nmiBit s.wdtctl = true ∨ level = .high) : State.Inv { s with pin := level } where
  memWf := h.memWf
  memBacked := h.memBacked
  srReserved := h.srReserved
  ofieClear := h.ofieClear
  reservedClear r := by rw [ByteRegister.get_withPin]; exact h.reservedClear r
  cntclClear := h.cntclClear
  heldIffPinLow := by rcases hl with hl | hl <;> simp [hh, hl]
  holdIsPor := h.holdIsPor
  freshMeansGie := h.freshMeansGie

/-- In NMI mode the pin holds nothing (R121, R174). -/
theorem State.Inv.hold_of_nmi (h : s.Inv) (hn : nmiBit s.wdtctl = true) : s.hold = none := by
  simpa [hn] using h.heldIffPinLow

theorem pinChange_inv (h : s.Inv) {level : Level} (ht : pinChange level s = .next t) : t.Inv := by
  unfold pinChange at ht
  split at ht
  · rename_i hn
    have hp := h.withPin (level := level) (h.hold_of_nmi hn) (.inl hn)
    cases ht
    split
    · exact raiseFlag_inv hp .nmiPin
    · exact hp
  · split at ht
    · exact resetTransition_inv (s := { s with pin := .low }) h.memWf ht
    · split at ht
      · exact resetTransition_inv (s := { s with pin := .high }) h.memWf ht
      · rename_i hh
        cases ht
        exact h.withPin hh (.inr rfl)

theorem definedBits_of_isInput (d : Device) {r : ByteRegister} (h : r.isInput = true) : definedBits d r = 0xFF := by
  cases r with
  | port p f =>
    cases f with
    | input => cases p <;> rfl
    | output | direction | flags | edgeSelect | enable => cases h
  | ie1 | ie2 | ifg1 | ifg2 | me1 | me2 | p1sel | p2sel => cases h

/-- A level at a port pin is seen in the input register only (R39). -/
theorem ByteRegister.get_setPinLevel {r : ByteRegister} (hr : r.isInput = false) (id : PortId) (n : Fin 8)
    (level : Level) : r.get (setPinLevel id n level s) = r.get s := by
  cases r with
  | port p f =>
    cases f with
    | input => cases hr
    | output | direction | flags | edgeSelect | enable => cases p <;> cases id <;> rfl
  | ie1 | ie2 | ifg1 | ifg2 | me1 | me2 | p1sel | p2sel => cases id <;> rfl

theorem setPinLevel_inv (h : s.Inv) (id : PortId) (n : Fin 8) (level : Level) : (setPinLevel id n level s).Inv where
  memWf := by simpa [setPinLevel] using h.memWf
  memBacked := by simpa [setPinLevel] using h.memBacked
  srReserved := by simpa [setPinLevel] using h.srReserved
  ofieClear := by simpa [setPinLevel] using h.ofieClear
  reservedClear r := by
    cases hr : r.isInput
    · rw [ByteRegister.get_setPinLevel hr]
      simpa [setPinLevel] using h.reservedClear r
    · rw [definedBits_of_isInput _ hr]
      exact and_not_full _
  cntclClear := by simpa [setPinLevel] using h.cntclClear
  heldIffPinLow := by simpa [setPinLevel] using h.heldIffPinLow
  holdIsPor := by simpa [setPinLevel] using h.holdIsPor
  freshMeansGie := by simpa [setPinLevel] using h.freshMeansGie

theorem portPinChange_inv (h : s.Inv) (id : PortId) (n : Fin 8) (level : Level) :
    (portPinChange id n level s).Inv := by
  unfold portPinChange
  split
  · exact raiseFlag_inv (setPinLevel_inv h id n level) _
  · exact setPinLevel_inv h id n level

theorem watchdogOverflow_inv (h : s.Inv) (ht : watchdogOverflow s = .next t) : t.Inv := by
  unfold watchdogOverflow at ht
  split at ht
  · split at ht
    · cases ht
      exact raiseFlag_inv h .watchdog
    · exact resetTransition_inv h.memWf ht
  · cases ht
    exact h

theorem envStep_inv (h : s.Inv) {e : EnvEvent} (ht : envStep e s = .next t) : t.Inv := by
  cases e with
  | powerUp => exact resetTransition_inv h.memWf ht
  | rstNmiPin level => exact pinChange_inv h ht
  | watchdogOverflow => exact watchdogOverflow_inv h ht
  | portPin id n level => cases ht; exact portPinChange_inv h id n level
  | portFlag id n => cases ht; exact raiseFlag_inv h _
  | oscillatorFault => cases ht; exact raiseFlag_inv h _
  | moduleFlag f => cases ht; exact raiseFlag_inv h _
  | modules m => cases ht; exact h.setModules _

/-- Settles O60: every move is the CPU's or an event, and each keeps the invariant. -/
theorem everyStepKeepsTheInvariant : Obligations.EveryStepKeepsTheInvariant := by
  intro s t h ht
  rcases step_cases ht with ⟨rest, -, hc⟩ | ⟨e, rest, -, he⟩
  · exact cpuStep_inv (h.setSchedule rest) hc
  · exact envStep_inv (h.setSchedule rest) he

end Sys2Proof.Machine

/-! # Memory accesses (R26, R33, R47, R57 to R60, R68, R69, R112) -/

namespace Sys2Proof.Machine

variable {s t : State} {w : Width} {a v : Word} {b : Byte} {r : ByteRegister}

/-! ### When a write completes -/

theorem writeIoRegister_completes (r : ByteRegister) (b : Byte) (s : State) :
    (∃ t, writeIoRegister r b s = .next t) ↔ (!(r == .ie1 && b.getLsbD 1)) = true := by
  unfold writeIoRegister
  split
  · rename_i h
    simp [h]
  · rename_i h
    refine iff_of_true ⟨_, rfl⟩ ?_
    rwa [Bool.not_eq_true', ← Bool.not_eq_true, Bool.and_eq_true, beq_iff_eq]

theorem writeByte_completes (a : Word) (b : Byte) (s : State) :
    (∃ t, writeByte a b s = .next t) ↔ byteWritable a b s = true := by
  unfold writeByte byteWritable
  cases kindOf s.platform a.toNat <;> simp only
  case sfr =>
    cases sfrRegister? a.toNat with
    | none => simp
    | some r => exact writeIoRegister_completes r b s
  case peripheral8 =>
    cases hr : portRegister? s.platform a.toNat with
    | none => simp
    | some r =>
      have hne : r ≠ .ie1 := sfr_ne_port (a := 0) rfl hr
      simp [writeIoRegister, hne]
  case peripheral16 => split <;> simp
  case ram => simp
  case rom => simp
  case unmapped => simp

theorem writeWord_completes (a v : Word) (s : State) :
    (∃ t, writeWord a v s = .next t) ↔ wordWritable a v s = true := by
  by_cases ha : a = wdtctlAddress
  · subst ha
    have hk : kindOf s.platform wdtctlAddress.toNat = .peripheral16 := kindOf_wdtctl s.platform
    have ho : wdtctlAddress.getLsbD 0 = false := by decide
    rw [writeWord_wdtctl, writeWdtctl_completes]
    simp only [wordWritable, hk, ho, beq_self_eq_true, Bool.true_and, Bool.not_false]
  · simp only [writeWord_eq_next, ha, false_and, or_false, wordWritable, exists_and_left, Bool.and_eq_true,
      beq_false_of_ne ha, Bool.false_and, Bool.not_eq_true']
    refine and_congr_right fun _ => ?_
    have hr := wordInRam_iff (p := s.platform) (a := a.toNat)
    cases hk : kindOf s.platform a.toNat <;> simp [hk, hr]

theorem writeMem_completes (w : Width) (a v : Word) (s : State) :
    (∃ t, writeMem w a v s = .next t) ↔ memWritable w a v s = true := by
  cases w with
  | word => exact writeWord_completes a v s
  | byte => exact writeByte_completes a (loByte v) s

/-- Settles O31: reads and writes, by the width of the access. -/
theorem accessesCompleteExactlyWhen : Obligations.AccessesCompleteExactlyWhen :=
  fun w a v s => ⟨readMem_completes w a s, writeMem_completes w a v s⟩

/-! ### Byte registers (R26, R39, R143) -/

/-- A byte read at the address of a register reads the register. -/
theorem readByte_of_registerAt (h : registerAt a s = some r) : readByte a s = .next (readIoRegister r s) := by
  unfold registerAt at h
  unfold readByte
  cases hk : kindOf s.platform a.toNat <;> simp only [hk, reduceCtorEq] at h ⊢ <;> simp only [h]

/-- A completed byte write at the address of a register is a store of its defined bits. -/
theorem writeByte_of_registerAt (h : registerAt a s = some r) (ht : writeByte a b s = .next t) :
    t = r.set (b &&& definedBits s.platform.device r) s := by
  rcases writeByte_eq_next.1 ht with ⟨hk, -⟩ | ⟨x, hx, -, rfl⟩
  · simp [registerAt, hk] at h
  · cases h.symm.trans hx
    rfl

/-- An input register is a port's, and reads as its pins, without a draw. -/
theorem readIoRegister_of_isInput (h : r.isInput = true) (s : State) :
    ∃ p, r = .port p .input ∧ readIoRegister r s = ((s.port p).pins, s) := by
  have hd := definedBits_of_isInput s.platform.device h
  cases r with
  | port p f =>
    cases f with
    | input => exact ⟨p, rfl, by simp only [readIoRegister, hd, if_true]; rfl⟩
    | output | direction | flags | edgeSelect | enable => cases h
  | ie1 | ie2 | ifg1 | ifg2 | me1 | me2 | p1sel | p2sel => cases h

/-- Settles O34: the write is a store of the defined bits in the register that the address names. -/
theorem registerWriteIsReadBack : Obligations.RegisterWriteIsReadBack := by
  intro a b s t r hr ht
  have he := writeByte_of_registerAt hr ht
  refine ⟨fun hi => ?_, fun hi => ?_⟩
  · have hg : r.get t = b &&& definedBits s.platform.device r := by rw [he, ByteRegister.get_set_same _ _ _ hi]
    have hp : t.platform = s.platform := by rw [he, ByteRegister.set_platform]
    have hat : registerAt a t = some r := by rw [← hr, registerAt, registerAt, hp]
    have hread := (readIoRegister_spec r t).2
    rw [hp, hg, BitVec.and_assoc, BitVec.and_self] at hread
    exact ⟨hg, _, _, readByte_of_registerAt hat, hread⟩
  · obtain ⟨p, hp, hread⟩ := readIoRegister_of_isInput hi s
    exact ⟨by rw [he, ByteRegister.set_input _ _ _ hi], p, hp, by rw [readByte_of_registerAt hr, hread]⟩

/-! ### Accesses that stop -/

/-- A RAM or ROM byte that is not listed cannot be read (R47). -/
theorem readCell_of_unwritten {n : Nat} (h : s.mem.read n = none) : readCell n s = .fault .unwrittenMemory := by
  rw [readCell, h]

/-- A word in RAM with an unlisted byte cannot be read (R47). -/
theorem readWord_of_unwritten (ho : a.getLsbD 0 = false) (hk : wordInRam s.platform a.toNat = true)
    (hm : s.mem.read a.toNat = none ∨ s.mem.read (a.toNat + 1) = none) :
    readWord a s = .fault .unwrittenMemory := by
  simp only [readWord, ho, (wordInRam_iff.1 hk).1, secondByteRefusal?_of_wordInRam hk, Bool.false_eq_true, if_false]
  cases hl : s.mem.read a.toNat with
  | none => rw [readCell_of_unwritten hl, Result.bind_fault]
  | some lo =>
    rw [readCell_eq_next.2 hl, Result.bind_next, readCell_of_unwritten (hm.resolve_left (by simp [hl])),
      Result.bind_fault]

/-- A word whose first byte is in RAM and whose second is unmapped has no meaning (R69; entry 14). -/
theorem word_across_unmapped (ho : a.getLsbD 0 = false) (hk : kindOf s.platform a.toNat = .ram)
    (hu : kindOf s.platform (a.toNat + 1) = .unmapped) :
    readWord a s = .refused .unmappedAddress ∧ writeWord a v s = .refused .unmappedAddress := by
  simp [readWord, writeWord, secondByteRefusal?, ho, hk, hu, -BitVec.getLsbD_eq_getElem]

/-- There is no register at 0006h to 000Fh (R33). -/
theorem sfrRegister?_eq_none {n : Nat} (h : 6 ≤ n) : sfrRegister? n = none := by
  cases hr : sfrRegister? n with
  | none => rfl
  | some r => have := sfrRegister?_lt hr; omega

/-- A byte write of WDTCTL is refused (R35; entry 15). -/
theorem writeByte_wdtctl (h : a = 0x0120 ∨ a = 0x0121) : writeByte a b s = .refused .byteWriteToWdtctl := by
  rcases h with rfl | rfl
  · simp [writeByte, kindOf_wdtctl, wdtctlAddress]
  · simp [writeByte, kindOf_wdtctl_high, wdtctlAddress]

/-- Settles O33: each stop is the branch of the access that the kind of the address selects. -/
theorem accessesStopByName : Obligations.AccessesStopByName := by
  intro a v b s
  refine ⟨fun hk => ?_, fun ho hk => ?_, word_across_unmapped, fun hk => ?_, fun hk ho => ?_, fun hl ho => ?_,
    fun hg hl => ?_, fun hk ho => ?_, fun hk hp => ?_, fun hk => ?_, fun hk h0 h1 => ?_, fun hk ho h0 => ?_,
    writeByte_wdtctl, fun h0 hb => ?_, fun hk hm => ?_, readWord_of_unwritten⟩
  · simp only [readByte, writeByte, hk, and_self]
  · simp only [readWord, writeWord, ho, hk, Bool.false_eq_true, if_false, and_self]
  · simp only [writeByte, hk]
  · simp only [writeWord, ho, hk, Bool.false_eq_true, if_false]
  · have hk : kindOf s.platform a.toNat = .sfr := kindOf_sfr_iff (by omega)
    simp only [readWord, writeWord, ho, hk, Bool.false_eq_true, if_false, and_self]
  · have hk : kindOf s.platform a.toNat = .sfr := kindOf_sfr_iff (by omega)
    simp only [readByte, writeByte, hk, sfrRegister?_eq_none hg, and_self]
  · simp only [readWord, writeWord, ho, hk, Bool.false_eq_true, if_false, and_self]
  · simp only [readByte, writeByte, hk, hp, and_self]
  · simp only [readByte, hk]
  · have hne : ¬(a = wdtctlAddress ∨ a = wdtctlAddress + 1) := not_or.2 ⟨h0, h1⟩
    simp only [writeByte, hk, hne, if_false]
  · have hne : a ≠ wdtctlAddress := h0
    simp only [readWord, writeWord, ho, hk, hne, Bool.false_eq_true, if_false, and_self]
  · subst h0
    have hk : kindOf s.platform (0 : Word).toNat = .sfr := kindOf_sfr_iff (by decide)
    have hr : sfrRegister? (0 : Word).toNat = some .ie1 := rfl
    simp only [writeByte, hk, hr, writeIoRegister, hb, and_self, if_true]
  · simp only [readByte, hk, readCell_of_unwritten hm, Result.bind_fault]

end Sys2Proof.Machine

/-! # Instructions: the exact next state, and where PC goes (R13, R15, R73, R96 to R99) -/

namespace Sys2Proof.Machine

variable {s t s1 : State} {w : Width} {v x : Word} {src : Src} {dst : Dst} {d : Reg}

/-! ### A register as the destination -/

theorem narrow_and_of_narrow (hx : narrow w x = x) (v : Word) : narrow w (x &&& v) = x &&& v := by
  cases w with
  | word => rfl
  | byte =>
    change x &&& 0x00FF = x at hx
    change x &&& v &&& 0x00FF = x &&& v
    rw [BitVec.and_assoc, BitVec.and_comm v, ← BitVec.and_assoc, hx]

theorem narrow_or_of_narrow (hx : narrow w x = x) (hv : narrow w v = v) : narrow w (x ||| v) = x ||| v := by
  cases w with
  | word => rfl
  | byte =>
    change x &&& 0x00FF = x at hx
    change v &&& 0x00FF = v at hv
    change (x ||| v) &&& 0x00FF = x ||| v
    rw [BitVec.and_or_distrib_right, hx, hv]

theorem writeReg_of_ne_sr (h : d ≠ 2) (v : Word) (s : State) : writeReg d v s = .next (setReg d v s) :=
  writeReg_eq_next.2 ⟨fun hr => h hr.1, rfl⟩

/-- With a resolved source and a register other than SR as the destination, MOV, BIC and BIS complete (R96 to R98). -/
theorem exec_to_register (ha : formatIAdmitted w src (.reg d) = true) (hd : d ≠ 2)
    (hs : resolveSource w src s.advance = .next (v, s1)) :
    exec (.mov w src (.reg d)) s = .next (setReg d v s1) ∧
    exec (.bic w src (.reg d)) s = .next (setReg d (narrow w (readReg d s1) &&& ~~~v) s1) ∧
    exec (.bis w src (.reg d)) s = .next (setReg d (narrow w (readReg d s1) ||| v) s1) := by
  have hv := resolveSource_width hs
  have hr := narrow_narrow w (readReg d s1)
  refine ⟨?_, ?_, ?_⟩
  · simp only [exec, execMov, ha, if_true, hs, Result.bind_next, storeTo, resolveDest, writeLoc, hv,
      writeReg_of_ne_sr hd]
  · simp only [exec, execBic, ha, if_true, hs, Result.bind_next, modify, resolveDest, readLoc, writeLoc,
      narrow_and_of_narrow hr, writeReg_of_ne_sr hd]
  · simp only [exec, execBis, ha, if_true, hs, Result.bind_next, modify, resolveDest, readLoc, writeLoc,
      narrow_or_of_narrow hr hv, writeReg_of_ne_sr hd]

/-- A source form that exists, is not `@PC` and increments nothing goes to every register, a byte not to PC (R105). -/
theorem formatIAdmitted_to_register (he : src.exists = true) (hp : src.isIndirectPc = false)
    (hi : src.increments? = none) (hb : d = 0 → w = .word) : formatIAdmitted w src (.reg d) = true := by
  have hbyte : byteToPc w (.reg d) = false := by
    cases w with
    | word => rfl
    | byte => simpa [byteToPc] using fun h => nomatch hb h
  simp [formatIAdmitted, he, hp, hbyte, incrementsDestination, hi, Dst.exists]

theorem even_sub_two (h : v.getLsbD 0 = false) : (v - 2).getLsbD 0 = false := by
  rw [even_iff] at h ⊢
  rw [BitVec.toNat_sub]
  simp
  omega

/-- WDTCTL is not in RAM. -/
theorem ne_wdtctl_of_wordInRam {p : Platform} (h : wordInRam p v.toNat = true) : v ≠ wdtctlAddress := by
  rintro rfl
  cases (wordInRam_iff.1 h).1.symm.trans (kindOf_wdtctl p)

/-- Settles O41: both source forms resolve in every state, and a push to RAM is two bytes stored. -/
theorem registerFormsGiveAnExactNextState : Obligations.RegisterFormsGiveAnExactNextState := by
  intro w n a d s ha hd hb
  have hreg := formatIAdmitted_to_register (src := .reg a) (by simpa [Src.exists] using ha) rfl rfl hb
  have himm := formatIAdmitted_to_register (src := .imm n) rfl rfl rfl hb
  obtain ⟨m1, b1, o1⟩ := exec_to_register (s := s) hreg hd rfl
  obtain ⟨m2, b2, o2⟩ := exec_to_register (s := s) himm hd rfl
  refine ⟨m1, m2, b1, b2, o1, o2, fun h1 ho hk => ?_⟩
  have hp : pushAdmitted (.reg a) = true := by
    simp [pushAdmitted, Src.exists, Src.isIndirectPc, Src.register?, ha, h1]
  exact exec_push_eq_next.2 ⟨hp, _, _, rfl,
    (pushThen_eq_next (s := s.advance) (ne_wdtctl_of_wordInRam hk)).2 ⟨even_sub_two ho, hk, rfl⟩⟩

/-! ### PC (R15) -/

/-- PC after the source operand is past its extension word. -/
theorem resolveSource_pc (he : src.exists = true) (h : resolveSource w src s = .next (v, s1)) :
    s1.pc = s.pc + 2 * BitVec.ofNat 16 src.fields.2.2.length := by
  obtain ⟨n, rfl⟩ := resolveSource_state h
  cases src with
  | reg _ | indirect _ => simp [Src.fields]
  | const c => cases c <;> simp [Src.fields]
  | indexed _ _ | symbolic _ | absolute _ | imm _ => simp [Src.fields]
  | indirectInc r =>
    have h0 : r ≠ 0 := by rintro rfl; cases he
    have := readReg_setReg_other (x := 0) (s.setDraws n) (readReg r s + incrementOf w r) h0.symm
    simpa [Src.fields] using this

/-- PC after the destination operand is past its extension word. -/
theorem resolveDest_pc (dst : Dst) (s : State) :
    (resolveDest dst s).2.pc = s.pc + 2 * BitVec.ofNat 16 dst.fields.2.2.length := by
  cases dst <;> simp [resolveDest, Dst.fields]

/-- A write of another register leaves PC. -/
theorem writeReg_pc (hd : d ≠ 0) (h : writeReg d v s = .next t) : t.pc = s.pc := by
  obtain ⟨-, rfl⟩ := writeReg_eq_next.1 h
  exact readReg_setReg_other (x := 0) s v hd.symm

/-- A store that is none to PC and none to WDTCTL leaves PC. -/
theorem writeLoc_pc {l : Loc} (h0 : l ≠ .reg 0) (hw : l ≠ .mem wdtctlAddress) (h : writeLoc w l v s = .next t) :
    t.pc = s.pc := by
  cases l with
  | reg r => exact writeReg_pc (fun e => h0 (e ▸ rfl)) h
  | mem a =>
    rcases (writeMem_eq_next fun e => hw (e ▸ rfl)).1 h with ⟨-, -, -, rfl⟩ | ⟨-, -, rfl⟩ | ⟨-, r, -, -, rfl⟩
    · rfl
    · rfl
    · exact ByteRegister.set_pc _ _ _

/-- Two bytes for each word, summed. -/
theorem pc_past_words (p : Word) (m n : Nat) :
    p + 2 + 2 * BitVec.ofNat 16 m + 2 * BitVec.ofNat 16 n = p + 2 * BitVec.ofNat 16 (m + n + 1) := by
  apply BitVec.eq_of_toNat_eq
  simp [BitVec.toNat_add, BitVec.toNat_mul]
  omega

theorem exec_formatI_pc {i : Instr} (hi : i = .mov w src dst ∨ i = .bic w src dst ∨ i = .bis w src dst)
    (ht : exec i s = .next t)
    (hd : ∀ v s1, resolveSource w src s.advance = .next (v, s1) →
      (resolveDest dst s1).1 ≠ .reg 0 ∧ (resolveDest dst s1).1 ≠ .mem wdtctlAddress) :
    t.pc = s.pc + 2 * BitVec.ofNat 16 (encode i).length := by
  obtain ⟨ha, v, s1, x, n, hs, hw⟩ := exec_formatI_cases hi ht
  have hl : (encode i).length = src.fields.2.2.length + dst.fields.2.2.length + 1 := by
    rcases hi with rfl | rfl | rfl <;> simp [encode, encodeFormatI]
  obtain ⟨h0, hwdt⟩ := hd v s1 hs
  rw [writeLoc_pc h0 hwdt hw, State.setDraws_pc, resolveDest_pc,
    resolveSource_pc (exists_of_formatIAdmitted ha) hs, advance_pc, hl, pc_past_words]

theorem exec_push_pc (ht : exec (.push src) s = .next t) (hsp : s.sp - 2 ≠ wdtctlAddress) :
    t.pc = s.pc + 2 * BitVec.ofNat 16 (encode (.push src)).length := by
  obtain ⟨ha, v, s1, hs, hp⟩ := exec_push_eq_next.1 ht
  rw [← resolveSource_sp ha hs] at hsp
  obtain ⟨-, -, hn⟩ := (pushThen_eq_next hsp).1 hp
  cases hn
  have := pc_past_words s.pc src.fields.2.2.length 0
  simpa [resolveSource_pc (exists_of_pushAdmitted ha) hs, encode] using this

/-- Settles O52: the operands move PC past the words, and the store that follows leaves it. -/
theorem pcMovesPastTheInstruction : Obligations.PcMovesPastTheInstruction := by
  intro i s t ht hreti hpop hdest hpush
  cases i with
  | mov w src dst => exact exec_formatI_pc (.inl rfl) ht (hdest w src dst (.inl rfl))
  | bic w src dst => exact exec_formatI_pc (.inr (.inl rfl)) ht (hdest w src dst (.inr (.inl rfl)))
  | bis w src dst => exact exec_formatI_pc (.inr (.inr rfl)) ht (hdest w src dst (.inr (.inr rfl)))
  | push src => exact exec_push_pc ht (hpush src rfl)
  | reti => exact absurd rfl hreti
  | pop d =>
    obtain ⟨-, v, -, hw⟩ := exec_pop_eq_next.1 ht
    exact writeReg_pc (fun h => hpop (h ▸ rfl)) hw
  | eint => exact writeReg_pc (d := 2) (by decide) ht

end Sys2Proof.Machine

/-! # The step runs the decoded instruction (R15, R70, R77, R128) -/

namespace Sys2Proof

variable {w : Word} {ws rest : List Word} {i j : Instr}

theorem ifAdmitted_eq_ok : ifAdmitted i ws = .ok (j, rest) ↔ i.admitted = true ∧ i = j ∧ ws = rest := by
  unfold ifAdmitted
  split
  · rename_i h
    simp [h]
  · rename_i h
    simp [h]

/-- A source operand that decodes had its extension word. -/
theorem sourceExtends_le_length {as : Nat} {r : Reg} {ws1 : List Word} {src : Src} (ha : as < 4)
    (h : decodeSource as r ws = .ok (src, ws1)) : (if sourceExtends as r.val then 1 else 0) ≤ ws.length := by
  obtain ⟨he, h1, h2, h3⟩ := decodeSource_inv ha h
  rw [← h1, ← h2, ← Laws.EncodeLength.sourceExtends_fields he, ← h3, List.length_append]
  exact Nat.le_add_right _ _

theorem regField_val (w : Word) (lo : Nat) : (regField w lo).val = bitField w lo 4 := by
  simp only [regField, bitField, Fin.ofNat]
  omega

theorem decodeFormatI_ok {mk : Width → Src → Dst → Instr} (h : decodeFormatI mk w ws = .ok (i, rest)) :
    i.admitted = true ∧ (if sourceExtends (bitField w 4 2) (bitField w 8 4) then 1 else 0) ≤ ws.length := by
  unfold decodeFormatI at h
  split at h
  · cases h
  · rename_i src ws1 hs
    split at h
    · cases h
    · obtain ⟨ha, rfl, -⟩ := ifAdmitted_eq_ok.1 h
      exact ⟨ha, regField_val w 8 ▸ sourceExtends_le_length (by unfold bitField; omega) hs⟩

theorem decodePush_ok (h : decodePush w ws = .ok (i, rest)) :
    i.admitted = true ∧ (if sourceExtends (bitField w 4 2) (bitField w 0 4) then 1 else 0) ≤ ws.length := by
  unfold decodePush at h
  split at h
  · cases h
  · rename_i src ws1 hs
    obtain ⟨ha, rfl, -⟩ := ifAdmitted_eq_ok.1 h
    exact ⟨ha, regField_val w 0 ▸ sourceExtends_le_length (by unfold bitField; omega) hs⟩

/-- What the decoder answers is admitted, and had the source's extension words that its instruction word says (R84). -/
theorem decode_ok (h : decode (w :: ws) = .ok (i, rest)) : i.admitted = true ∧ sourceExtensionWords w ≤ ws.length := by
  unfold sourceExtensionWords
  cases hl : lookupOpcode w with
  | none =>
    simp only [decode, hl] at h
    split at h <;> cases h
  | some o =>
    cases o <;> simp only [decode, hl] at h ⊢
    case mov | bic | bis => exact decodeFormatI_ok h
    case push => exact decodePush_ok h
    case pop => exact ⟨by obtain ⟨ha, rfl, -⟩ := ifAdmitted_eq_ok.1 h; exact ha, Nat.zero_le _⟩
    case reti | eint => cases h; exact ⟨rfl, Nat.zero_le _⟩

end Sys2Proof

namespace Sys2Proof.Machine

variable {s : State} {rest : List Turn} {ws : List Word} {i : Instr}

theorem wordsAt_atBoundary {a : Word} : wordsAt a ws (atBoundary rest s) ↔ wordsAt a ws s := by
  induction ws generalizing a with
  | nil => rfl
  | cons w ws ih => simp only [wordsAt, readWord_atBoundary, ih]

/-- The words of an instruction at PC are fetched unless the source operand stops. -/
theorem fetchInstr_of_decode (hp : s.pc.getLsbD 0 = false) (hw : wordsAt s.pc ws s) (hd : decode ws = .ok (i, [])) :
    fetchInstr s = (sourceResolves i s).bind fun _ => .next i := by
  cases ws with
  | nil => cases hd
  | cons w ws =>
    have hlen : (ws.take (sourceExtensionWords w)).length = sourceExtensionWords w :=
      List.length_take_of_le (decode_ok hd).2
    have hcat : w :: ws = w :: ws.take (sourceExtensionWords w) ++ ws.drop (sourceExtensionWords w) := by simp
    rw [hcat] at hw hd
    exact fetchInstr_of_wordsAt hp hw hlen hd

theorem admitted_of_decode {l : List Word} (h : decode ws = .ok (i, l)) : i.admitted = true := by
  cases ws with
  | nil => cases h
  | cons w ws => exact (decode_ok h).1

/-- Settles O6: the fetch stops only where the source operand does, and there `exec` gives the same stop. -/
theorem stepRunsTheDecodedInstruction : Obligations.StepRunsTheDecodedInstruction := by
  intro s rest ws i hc hr hp hw hd
  have hf := fetchInstr_of_decode (s := atBoundary rest s) (by simpa using hp)
    (by rw [atBoundary_pc]; exact wordsAt_atBoundary.2 hw) hd
  have hsr : (atBoundary rest s).sr = s.sr := by rw [atBoundary_eq]
  rw [step_of_runsNext hc hr, executeNext, hf, sourceResolves_bind_exec _ (admitted_of_decode hd)]
  simp only [markGie, hsr]

end Sys2Proof.Machine

/-! # Resets and events of the environment (R18, R43, R114, R122, R125, R144, R160, R161) -/

namespace Sys2Proof.Machine

variable {s t u : State}

/-- Settles O24: a reset ends in the state it prepares, with SR 0000h, and PC from the vector. -/
theorem everyResetClearsSr : Obligations.EveryResetClearsSr := by
  intro cause s t ht
  obtain ⟨v, -, rfl⟩ := resetTransition_eq_next.1 ht
  have hsr : ((resetState cause s).setPc v).sr = 0x0000 := rfl
  rw [hsr]
  decide

/-! ### Which sources are blocked (R161) -/

/-- What `WAKE_FILTER` blocks depends on SR and the platform only. -/
theorem sourceBlocked_congr (hsr : t.sr = s.sr) (hp : t.platform = s.platform) (src : FlagSource) :
    sourceBlocked src t = sourceBlocked src s := by
  simp only [sourceBlocked, hsr, hp]

/-- A source is blocked in a low power mode that the filter lists with it. -/
theorem sourceBlocked_iff (src : FlagSource) (s : State) : sourceBlocked src s = true ↔
    ∃ mode, modeOf s.sr = some mode ∧ mode ≠ .active ∧ (mode, src) ∈ s.platform.wakeFilter := by
  unfold sourceBlocked
  cases hm : modeOf s.sr with
  | none => simp
  | some m => cases m <;> simp

theorem raiseFlag_of_blocked {src : FlagSource} (h : sourceBlocked src s = true) : raiseFlag src s = s := by
  rw [raiseFlag_eq, if_pos h]

theorem raiseFlag_of_not_blocked {src : FlagSource} (h : sourceBlocked src s = false) :
    raiseFlag src s = src.flag.put true s := by
  rw [raiseFlag_eq, h, if_neg Bool.false_ne_true]

/-! ### Faults and modules (R114, R122, R125) -/

/-- A module sets its flag in IFG1 or IFG2, and leaves the other register. -/
theorem moduleFlag_put (f : ModuleFlag) (s : State) : f.flag.put true s = { s with
    ifg1 := s.ifg1 ||| (if f = .timerCounter then 0x08 else 0x00)
    ifg2 := s.ifg2 ||| (match f with
      | .timerCounter => 0x00 | .usartReceive => 0x01 | .usartTransmit => 0x02 | .adc => 0x04
      | .basicTimer => 0x80) } := by
  have h0 (v : Byte) : v ||| 0x00 = v := BitVec.or_zero
  cases f <;> simp only [reduceCtorEq, if_true, if_false, h0] <;> rfl

/-- Settles O56: raising a flag that is not blocked is the OR of its bit into its register. -/
theorem faultAndModuleEventsSetTheirFlags : Obligations.FaultAndModuleEventsSetTheirFlags := by
  intro s m f
  refine ⟨fun h => ?_, fun h => ?_, fun h => ?_, fun h => ?_, ⟨_, rfl, fun r => ?_⟩, fun src => sourceBlocked_iff src s⟩
  · rw [envStep, raiseFlag_of_not_blocked h]
    rfl
  · rw [envStep, raiseFlag_of_blocked h]
  · rw [envStep, raiseFlag_of_blocked h]
  · rw [envStep, raiseFlag_of_not_blocked h]
    exact congrArg Host.Outcome.next (moduleFlag_put f s)
  · cases hb : sourceBlocked (.row r) s <;> simp [hb]

/-! ### Port pins (R39, R144) -/

theorem setPinLevel_eq (id : PortId) (n : Fin 8) (level : Level) (s : State) : setPinLevel id n level s =
    s.setPort id { s.port id with pins := putBit (s.port id).pins n (level == .high) } := by
  cases level <;> rfl

theorem setPinLevel_pins (id id' : PortId) (n : Fin 8) (m : Nat) (level : Level) (s : State) :
    ((setPinLevel id n level s).port id').pins.getLsbD m =
      if id' = id ∧ m = n.val then level == .high else (s.port id').pins.getLsbD m := by
  rw [setPinLevel_eq]
  by_cases hid : id' = id
  · subst hid
    simp only [State.setPort_port, putBit_getLsbD, true_and]
  · rw [State.setPort_port_other _ _ hid, if_neg fun h => hid h.1]

/-- A level at a pin is no flag. -/
theorem get_setPinLevel (f : FlagBit) (id : PortId) (n : Fin 8) (level : Level) (s : State) :
    f.get (setPinLevel id n level s) = f.get s := by
  cases f with
  | ifg1 m => exact congrArg (BitVec.getLsbD · m.val) (ByteRegister.get_setPinLevel (r := .ifg1) rfl id n level)
  | ifg2 m => exact congrArg (BitVec.getLsbD · m.val) (ByteRegister.get_setPinLevel (r := .ifg2) rfl id n level)
  | port p m =>
    exact congrArg (BitVec.getLsbD · m.val) (ByteRegister.get_setPinLevel (r := .port p .flags) rfl id n level)
  | module row => simp [FlagBit.get, setPinLevel_eq]

theorem sourceBlocked_setPinLevel (src : FlagSource) (id : PortId) (n : Fin 8) (level : Level) (s : State) :
    sourceBlocked src (setPinLevel id n level s) = sourceBlocked src s :=
  sourceBlocked_congr (by simp [setPinLevel_eq]) (by simp [setPinLevel_eq]) src

/-- Raising a flag moves no pin. -/
theorem raiseFlag_pins (src : FlagSource) (id : PortId) (s : State) :
    ((raiseFlag src s).port id).pins = (s.port id).pins :=
  (raiseFlag_same src s).byteRegs (.port id .input) rfl

/-- The pin sees the transition that its edge select bit names (R39, R144). -/
def pinEdge (id : PortId) (n : Fin 8) (level : Level) (s : State) : Bool :=
  selectedEdge ((s.port id).ies.getLsbD n.val) (pinLevel id n s) level

theorem pinEdge_iff (id : PortId) (n : Fin 8) (level : Level) (s : State) : pinEdge id n level s = true ↔
    ((s.port id).ies.getLsbD n.val = false ∧ (s.port id).pins.getLsbD n.val = false ∧ level = .high) ∨
      ((s.port id).ies.getLsbD n.val = true ∧ (s.port id).pins.getLsbD n.val = true ∧ level = .low) := by
  unfold pinEdge pinLevel
  cases (s.port id).ies.getLsbD n.val <;> cases (s.port id).pins.getLsbD n.val <;> cases level <;> decide

theorem portPinChange_eq (id : PortId) (n : Fin 8) (level : Level) (s : State) : portPinChange id n level s =
    if pinEdge id n level s = true then raiseFlag (.pin id n) (setPinLevel id n level s)
    else setPinLevel id n level s := rfl

theorem portPinChange_pins (id id' : PortId) (n : Fin 8) (m : Nat) (level : Level) (s : State) :
    ((portPinChange id n level s).port id').pins.getLsbD m =
      if id' = id ∧ m = n.val then level == .high else (s.port id').pins.getLsbD m := by
  rw [portPinChange_eq, ← setPinLevel_pins]
  split
  · rw [raiseFlag_pins]
  · rfl

/-- Without the selected transition, or blocked, a level at a pin sets no flag, and otherwise no flag but the pin's. -/
theorem portPinChange_get_other {f : FlagBit} {id : PortId} {n : Fin 8} {level : Level}
    (h : f ≠ pinFlag id n ∨ sourceBlocked (.pin id n) s = true ∨ ¬pinEdge id n level s = true) :
    f.get (portPinChange id n level s) = f.get s := by
  rw [portPinChange_eq]
  split
  · rename_i he
    rw [raiseFlag_get_other, get_setPinLevel]
    rw [sourceBlocked_setPinLevel]
    exact h.imp_right fun hb => hb.resolve_right fun hn => hn he
  · exact get_setPinLevel f id n level s

theorem portPinChange_get_pinFlag {id : PortId} {n : Fin 8} {level : Level} (he : pinEdge id n level s = true)
    (hb : sourceBlocked (.pin id n) s = false) : (pinFlag id n).get (portPinChange id n level s) = true := by
  rw [portPinChange_eq, if_pos he]
  exact raiseFlag_get_same (src := .pin id n) (by rw [sourceBlocked_setPinLevel, hb])

/-- Where the flag of a pin stands: P0.0 and P0.1 in IFG1, every other in its port (R39). -/
theorem pinFlag_stands {id : PortId} {n : Fin 8} (h : (pinFlag id n).get s = true) :
    (id = .p0 → n = 0 → s.ifg1.getLsbD 2 = true) ∧ (id = .p0 → n = 1 → s.ifg1.getLsbD 3 = true) ∧
      (id ≠ .p0 ∨ 2 ≤ n.val → (s.port id).ifg.getLsbD n.val = true) := by
  refine ⟨by rintro rfl rfl; exact h, by rintro rfl rfl; exact h, fun hn => ?_⟩
  have h0 : ¬(id = .p0 ∧ n = 0) := by rintro ⟨rfl, rfl⟩; simp at hn
  have h1 : ¬(id = .p0 ∧ n = 1) := by rintro ⟨rfl, rfl⟩; simp at hn
  rwa [pinFlag, if_neg h0, if_neg h1] at h

/-- Settles O55: `edge` is the transition that the pin's edge select bit names. -/
theorem portEdgeSetsTheFlag : Obligations.PortEdgeSetsTheFlag := by
  intro s id n level
  refine ⟨portPinChange id n level s, raiseFlag (.pin id n) s, pinEdge id n level s = true, rfl, rfl,
    pinEdge_iff id n level s, ?_, fun id' m h => ?_, fun f => portPinChange_get_other,
    fun f => raiseFlag_get_other (src := .pin id n), fun x hx hb => pinFlag_stands ?_⟩
  · rw [portPinChange_pins, if_pos ⟨rfl, rfl⟩]
  · rw [portPinChange_pins, if_neg fun hc => h.elim (· hc.1) (· hc.2)]
  · rcases hx with rfl | ⟨rfl, he⟩
    · exact raiseFlag_get_same (src := .pin id n) hb
    · exact portPinChange_get_pinFlag he hb

/-! ### What an event that is no reset leaves alone (R43, R144, R160) -/

/-- The CPU, memory, WDTCTL and every byte register but flags and pin levels are the same. -/
structure CpuUntouched (s t : State) : Prop where
  cpu      : ∀ r, readReg r t = readReg r s
  mem      : t.mem = s.mem
  byteRegs : ∀ r : ByteRegister, r.isFlags = false → r.isInput = false → r.get t = r.get s
  wdtctl   : t.wdtctl = s.wdtctl
  hold     : t.hold = s.hold
  gieFresh : t.gieFresh = s.gieFresh
  draws    : t.draws = s.draws
  platform : t.platform = s.platform

theorem CpuUntouched.refl (s : State) : CpuUntouched s s := by constructor <;> intros <;> rfl

theorem CpuUntouched.raiseFlag (h : CpuUntouched s t) (src : FlagSource) : CpuUntouched s (raiseFlag src t) := by
  have hs := raiseFlag_same src t
  exact ⟨fun r => (hs.cpu r).trans (h.cpu r), hs.mem.trans h.mem,
    fun r hf hi => (hs.byteRegs r hf).trans (h.byteRegs r hf hi), hs.wdtctl.trans h.wdtctl, hs.hold.trans h.hold,
    hs.gieFresh.trans h.gieFresh, raiseFlag_draws.trans h.draws, hs.platform.trans h.platform⟩

theorem CpuUntouched.withPin (s : State) (level : Level) : CpuUntouched s { s with pin := level } :=
  ⟨fun _ => rfl, rfl, fun r _ _ => r.get_withPin level, rfl, rfl, rfl, rfl, rfl⟩

theorem CpuUntouched.setPinLevel (s : State) (id : PortId) (n : Fin 8) (level : Level) :
    CpuUntouched s (setPinLevel id n level s) := by
  refine ⟨readReg_congr ?_ ?_ ?_ ?_, ?_, fun r _ hi => ByteRegister.get_setPinLevel hi id n level, ?_, ?_, ?_, ?_, ?_⟩
  all_goals simp [setPinLevel_eq]

theorem CpuUntouched.setModules (s : State) (m : Modules) : CpuUntouched s (s.setModules m) :=
  ⟨fun _ => rfl, rfl, fun r _ _ => r.get_setModules s m, rfl, rfl, rfl, rfl, rfl⟩

theorem raiseFlag_enables (src : FlagSource) (s : State) : (raiseFlag src s).modules.enables = s.modules.enables :=
  (raiseFlag_same src s).enables

/-- In NMI mode a level at the RST/NMI pin is seen in the pin and perhaps NMIIFG (R119). -/
theorem pinChange_untouched {level : Level} (hn : nmiBit s.wdtctl = true) (ht : pinChange level s = .next t) :
    CpuUntouched s t ∧ t.modules.enables = s.modules.enables := by
  unfold pinChange at ht
  simp only [hn, if_true, Host.Outcome.next.injEq] at ht
  subst ht
  have hp := CpuUntouched.withPin s level
  split
  · exact ⟨hp.raiseFlag _, raiseFlag_enables _ _⟩
  · exact ⟨hp, rfl⟩

theorem portPinChange_untouched (id : PortId) (n : Fin 8) (level : Level) (s : State) :
    CpuUntouched s (portPinChange id n level s) ∧
      (portPinChange id n level s).modules.enables = s.modules.enables := by
  have hp := CpuUntouched.setPinLevel s id n level
  have he : (setPinLevel id n level s).modules.enables = s.modules.enables := by simp [setPinLevel_eq]
  rw [portPinChange_eq]
  split
  · exact ⟨hp.raiseFlag _, (raiseFlag_enables _ _).trans he⟩
  · exact ⟨hp, he⟩

/-- A watchdog overflow that is no reset sets WDTIFG or does nothing (R152). -/
theorem watchdogOverflow_untouched (h : watchdogMayExpire s = false ∨ tmselBit s.wdtctl = true)
    (ht : watchdogOverflow s = .next t) : CpuUntouched s t ∧ t.modules.enables = s.modules.enables := by
  unfold watchdogOverflow at ht
  split at ht
  · rename_i hm
    have htm : tmselBit s.wdtctl = true := h.resolve_left (by simp [hm])
    rw [if_pos htm] at ht
    cases ht
    exact ⟨(CpuUntouched.refl s).raiseFlag _, raiseFlag_enables _ _⟩
  · cases ht
    exact ⟨.refl s, rfl⟩

/-- An event that is no reset leaves the CPU alone, and unless the modules act, their enables. -/
theorem envStep_untouched {e : EnvEvent} (ht : envStep e s = .next t) (h0 : e ≠ .powerUp)
    (hpin : ∀ level, e = .rstNmiPin level → nmiBit s.wdtctl = true)
    (hwdt : e = .watchdogOverflow → watchdogMayExpire s = false ∨ tmselBit s.wdtctl = true) :
    CpuUntouched s t ∧ ((∀ m, e ≠ .modules m) → t.modules.enables = s.modules.enables) := by
  have hraise (src : FlagSource) : CpuUntouched s (raiseFlag src s) := (CpuUntouched.refl s).raiseFlag src
  cases e with
  | powerUp => exact absurd rfl h0
  | rstNmiPin level => exact (pinChange_untouched (hpin level rfl) ht).imp_right fun h _ => h
  | watchdogOverflow => exact (watchdogOverflow_untouched (hwdt rfl) ht).imp_right fun h _ => h
  | portPin id n level => cases ht; exact (portPinChange_untouched id n level s).imp_right fun h _ => h
  | portFlag id n => cases ht; exact ⟨hraise _, fun _ => raiseFlag_enables _ _⟩
  | oscillatorFault => cases ht; exact ⟨hraise _, fun _ => raiseFlag_enables _ _⟩
  | moduleFlag f => cases ht; exact ⟨hraise _, fun _ => raiseFlag_enables _ _⟩
  | modules m => cases ht; exact ⟨.setModules s _, fun h => absurd rfl (h m)⟩

/-- Settles O58, from what each event leaves alone. -/
theorem eventsLeaveTheCpuAlone : Obligations.EventsLeaveTheCpuAlone := by
  intro e s t ht h0 hpin hwdt
  obtain ⟨h, he⟩ := envStep_untouched ht h0 hpin hwdt
  exact ⟨h.cpu, h.mem, h.byteRegs, h.wdtctl, he, h.hold, h.gieFresh, h.draws, h.platform⟩

end Sys2Proof.Machine

/-! # Memory: byte order, ROM, and accesses at odd addresses (R16, R54, R56, R57, R60, R62, R68, R183) -/

namespace Sys2Proof.Machine

variable {s t u : State} {w : Width} {a v : Word} {b : Byte} {src : Src} {dst : Dst}

/-! ### What keeps ROM and the parameters (R54, R60, R183) -/

/-- ROM reads the same, and the parameters of the device are the same. -/
structure RomKept (s t : State) : Prop where
  platform : t.platform = s.platform
  read     : ∀ a, kindOf s.platform a = .rom → t.mem.read a = s.mem.read a

theorem RomKept.of_mem_eq (hp : t.platform = s.platform) (hm : t.mem = s.mem) : RomKept s t :=
  ⟨hp, fun _ _ => by rw [hm]⟩

theorem RomKept.refl (s : State) : RomKept s s := .of_mem_eq rfl rfl

theorem RomKept.trans (h : RomKept s t) (h' : RomKept t u) : RomKept s u :=
  ⟨h'.platform.trans h.platform, fun a ha => (h'.read a (h.platform ▸ ha)).trans (h.read a ha)⟩

theorem CpuUntouched.romKept (h : CpuUntouched s t) : RomKept s t := .of_mem_eq h.platform h.mem

/-- No address is both RAM and ROM. -/
theorem RomKept.writeRam {a : Nat} (b : Byte) (hk : kindOf s.platform a = .ram) :
    RomKept s (s.setMem (s.mem.write a b)) :=
  ⟨rfl, fun x hx => Memory.read_write_other _ _ (by rintro rfl; cases hk.symm.trans hx)⟩

/-- A reset forgets RAM only (R177). -/
theorem resetTransition_romKept {cause : ResetCause} (h : resetTransition cause s = .next t) : RomKept s t := by
  obtain ⟨v, -, rfl⟩ := resetTransition_eq_next.1 h
  exact ⟨rfl, fun a ha => (Memory.read_keepRom s.platform s.mem a).trans (if_pos ha)⟩

theorem storeWdtctl_romKept (b : Byte) (s : State) : RomKept s (storeWdtctl b s) := by
  rw [storeWdtctl_eq]
  exact .of_mem_eq rfl rfl

theorem writeWdtctl_romKept (h : writeWdtctl v s = .next t) : RomKept s t := by
  unfold writeWdtctl at h
  split_ifs at h
  · exact resetTransition_romKept h
  · exact (storeWdtctl_romKept _ s).trans (resetTransition_romKept h)
  · cases h
    exact storeWdtctl_romKept _ s

theorem writeWord_romKept (h : writeWord a v s = .next t) : RomKept s t := by
  rcases writeWord_eq_next.1 h with ⟨-, hk, rfl⟩ | ⟨-, h⟩
  · obtain ⟨h0, h1⟩ := wordInRam_iff.1 hk
    exact (RomKept.writeRam _ h0).trans (.writeRam (s := s.setMem _) _ h1)
  · exact writeWdtctl_romKept h

theorem writeByte_romKept (h : writeByte a b s = .next t) : RomKept s t := by
  rcases writeByte_eq_next.1 h with ⟨hk, rfl⟩ | ⟨r, -, -, rfl⟩
  · exact .writeRam b hk
  · exact .of_mem_eq (by simp) (by simp)

theorem writeReg_romKept {r : Reg} (h : writeReg r v s = .next t) : RomKept s t := by
  obtain ⟨-, rfl⟩ := writeReg_eq_next.1 h
  exact .of_mem_eq (by simp) (by simp)

theorem writeLoc_romKept {l : Loc} (h : writeLoc w l v s = .next t) : RomKept s t := by
  cases l with
  | reg r => exact writeReg_romKept h
  | mem a =>
    cases w with
    | word => exact writeWord_romKept h
    | byte => exact writeByte_romKept h

/-- A push keeps ROM if what follows it does. -/
theorem pushThen_romKept {k : State → Result State} (h : pushThen v s k = .next t)
    (hk : ∀ u, k u = .next t → RomKept u t) : RomKept s t := by
  have hsp : RomKept s (s.setSp (s.sp - 2)) := .of_mem_eq rfl rfl
  simp only [pushThen] at h
  split at h
  · exact hsp.trans (writeWord_romKept h)
  · obtain ⟨u, hu, h⟩ := Result.bind_eq_next.1 h
    exact hsp.trans ((writeWord_romKept hu).trans (hk u h))

/-! ### Instructions, the interrupt sequence and events keep ROM -/

theorem resolveSource_romKept (h : resolveSource w src s = .next (v, t)) : RomKept s t := by
  obtain ⟨n, rfl⟩ := resolveSource_state h
  cases src with
  | indirectInc r => exact .of_mem_eq (by simp) (by simp)
  | reg _ | indirect _ | const _ | indexed _ _ | symbolic _ | absolute _ | imm _ => exact .of_mem_eq rfl rfl

theorem resolveDest_romKept (dst : Dst) (s : State) : RomKept s (resolveDest dst s).2 := by
  rcases resolveDest_state dst s with e | e <;> rw [e]
  · exact .refl s
  · exact .of_mem_eq rfl rfl

theorem exec_formatI_romKept {i : Instr} (hi : i = .mov w src dst ∨ i = .bic w src dst ∨ i = .bis w src dst)
    (h : exec i s = .next t) : RomKept s t := by
  obtain ⟨-, v, s1, x, n, hs, hw⟩ := exec_formatI_cases hi h
  have hadv : RomKept s s.advance := .of_mem_eq rfl rfl
  have hdraw : RomKept (resolveDest dst s1).2 ((resolveDest dst s1).2.setDraws n) := .of_mem_eq rfl rfl
  exact hadv.trans <| (resolveSource_romKept hs).trans <| (resolveDest_romKept dst s1).trans <|
    hdraw.trans (writeLoc_romKept hw)

theorem exec_romKept (i : Instr) (h : exec i s = .next t) : RomKept s t := by
  have hadv : RomKept s s.advance := .of_mem_eq rfl rfl
  cases i with
  | mov w src dst => exact exec_formatI_romKept (.inl rfl) h
  | bic w src dst => exact exec_formatI_romKept (.inr (.inl rfl)) h
  | bis w src dst => exact exec_formatI_romKept (.inr (.inr rfl)) h
  | push src =>
    obtain ⟨-, v, s1, hs, hp⟩ := exec_push_eq_next.1 h
    have hpush : RomKept s1 t := pushThen_romKept hp fun _ hu => by cases hu; exact .refl _
    exact hadv.trans ((resolveSource_romKept hs).trans hpush)
  | reti =>
    obtain ⟨sr, pc, -, -, -, rfl⟩ := returnFromInterrupt_eq_next.1 h
    exact .of_mem_eq rfl rfl
  | pop d =>
    obtain ⟨-, v, -, hw⟩ := exec_pop_eq_next.1 h
    have hsp : RomKept s.advance (s.advance.setSp (s.sp + 2)) := .of_mem_eq rfl rfl
    exact hadv.trans (hsp.trans (writeReg_romKept hw))
  | eint => exact hadv.trans (writeReg_romKept h)

theorem enterHandler_romKept {src : Source} (h : enterHandler src s = .next t) : RomKept s t := by
  obtain ⟨v, -, rfl⟩ := enterHandler_eq_next.1 h
  exact .of_mem_eq (by simp) (by simp)

theorem interruptSequence_romKept {src : Source} (h : interruptSequence src s = .next t) : RomKept s t :=
  pushThen_romKept h fun _ h1 => pushThen_romKept h1 fun _ h2 => enterHandler_romKept h2

theorem passBoundary_romKept (s : State) : RomKept s (passBoundary s) := by
  unfold passBoundary
  split
  · exact .of_mem_eq rfl rfl
  · exact .refl s

theorem cpuStep_romKept (h : cpuStep s = .next t) : RomKept s t := by
  rcases cpuStep_cases h with rfl | ⟨-, rfl⟩ | ⟨src, -, -, h⟩ | ⟨-, h⟩
  · exact .refl t
  · exact passBoundary_romKept s
  · exact (passBoundary_romKept s).trans (interruptSequence_romKept h)
  · obtain ⟨i, u, -, hu, rfl⟩ := executeNext_cases h
    exact (passBoundary_romKept s).trans ((exec_romKept i hu).trans (.of_mem_eq rfl rfl))

/-- A level at the RST/NMI pin is no reset, or one of a state that differs in the pin. -/
theorem pinChange_romKept {level : Level} (h : pinChange level s = .next t) : RomKept s t := by
  have hpin := (CpuUntouched.withPin s level).romKept
  cases hn : nmiBit s.wdtctl with
  | true => exact (pinChange_untouched hn h).1.romKept
  | false =>
    simp only [pinChange, hn, Bool.false_eq_true, if_false] at h
    split at h
    · exact hpin.trans (resetTransition_romKept h)
    · split at h
      · exact hpin.trans (resetTransition_romKept h)
      · cases h
        exact hpin

/-- The watchdog sets its flag, or resets the machine with the flag set (R152). -/
theorem watchdogOverflow_romKept (h : watchdogOverflow s = .next t) : RomKept s t := by
  unfold watchdogOverflow at h
  split_ifs at h
  · cases h
    exact ((CpuUntouched.refl s).raiseFlag .watchdog).romKept
  · have hf := wdtifg.put_same true s
    exact (RomKept.of_mem_eq hf.platform hf.mem).trans (resetTransition_romKept h)
  · cases h
    exact .refl s

theorem envStep_romKept {e : EnvEvent} (h : envStep e s = .next t) : RomKept s t := by
  have hraise (src : FlagSource) : RomKept s (raiseFlag src s) := ((CpuUntouched.refl s).raiseFlag src).romKept
  cases e with
  | powerUp => exact resetTransition_romKept h
  | rstNmiPin level => exact pinChange_romKept h
  | watchdogOverflow => exact watchdogOverflow_romKept h
  | portPin id n level => cases h; exact (portPinChange_untouched id n level s).1.romKept
  | portFlag id n => cases h; exact hraise _
  | oscillatorFault => cases h; exact hraise _
  | moduleFlag f => cases h; exact hraise _
  | modules m => cases h; exact (CpuUntouched.setModules s _).romKept

/-- Settles O35: every move is the CPU's or an event, and each stores in RAM only or forgets it. -/
theorem romNeverChanges : Obligations.RomNeverChanges := by
  intro s t h
  have hsched (l : List Turn) : RomKept s (s.setSchedule l) := .of_mem_eq rfl rfl
  have hk : RomKept s t := by
    rcases step_cases h with ⟨rest, -, hc⟩ | ⟨e, rest, -, he⟩
    · exact (hsched rest).trans (cpuStep_romKept hc)
    · exact (hsched rest).trans (envStep_romKept he)
  exact ⟨hk.platform, hk.read⟩

/-! ### Byte order (R56) -/

theorem loByte_eq_extractLsb' (v : Word) : loByte v = v.extractLsb' 0 8 :=
  BitVec.setWidth_eq_extractLsb' (by decide)

theorem hiByte_eq_extractLsb' (v : Word) : hiByte v = v.extractLsb' 8 8 := by
  apply BitVec.eq_of_getLsbD_eq
  intro i hi
  simp [hiByte, hi]

/-- A byte of RAM that is listed is what a byte read gives. -/
theorem readByte_of_ram (hk : kindOf s.platform a.toNat = .ram) (hm : s.mem.read a.toNat = some b) :
    readByte a s = .next (b, s) := by
  simp only [readByte, hk, readCell_eq_next.2 hm, Result.bind_next]

/-- Settles O29: a word written to RAM is a byte stored at its address and one at the next. -/
theorem wordsAreLittleEndian : Obligations.WordsAreLittleEndian := by
  intro a v s t hk ht
  have hne : a ≠ wdtctlAddress := by rintro rfl; cases hk.symm.trans (kindOf_wdtctl _)
  obtain ⟨ho, hr, rfl⟩ := (writeWord_eq_next.1 ht).resolve_right fun h => hne h.1
  have hsucc : (a + 1).toNat = a.toNat + 1 := succ_toNat ((even_iff a).1 ho)
  refine ⟨readByte_of_ram hk ?_, readByte_of_ram ?_ ?_, readWord_setMem_write ho hr, loByte_eq_extractLsb' v,
    hiByte_eq_extractLsb' v⟩
  · rw [State.setMem_mem, Memory.read_write_other _ _ (by omega), Memory.read_write_same]
  · rw [State.setMem_platform, hsucc]
    exact (wordInRam_iff.1 hr).2
  · rw [State.setMem_mem, hsucc, Memory.read_write_same]

/-! ### The frame of a store (R62, R68) -/

/-- A byte that a word store does not cover is not one of its two. -/
theorem not_covers_word {b : Nat} : covers .word a b = false ↔ b ≠ a.toNat ∧ b ≠ a.toNat + 1 := by
  simp [covers]

theorem not_covers_byte {b : Nat} : covers .byte a b = false ↔ b ≠ a.toNat := by
  simp [covers]

/-- Settles O30: away from WDTCTL a store is one of RAM or of the byte register at the address. -/
theorem storeLeavesEveryOtherByte : Obligations.StoreLeavesEveryOtherByte := by
  intro w a v s t ha ht
  rcases (writeMem_eq_next ha).1 ht with ⟨rfl, -, -, rfl⟩ | ⟨rfl, -, rfl⟩ | ⟨rfl, r, hr, -, rfl⟩
  · refine ⟨fun b hb => storedByte_setMem ?_, fun _ => rfl, rfl, rfl, rfl, rfl, rfl, rfl⟩
    obtain ⟨h0, h1⟩ := not_covers_word.1 hb
    rw [Memory.read_write_other _ _ h1, Memory.read_write_other _ _ h0]
  · exact ⟨fun b hb => storedByte_setMem (Memory.read_write_other _ _ (not_covers_byte.1 hb)), fun _ => rfl,
      rfl, rfl, rfl, rfl, rfl, rfl⟩
  · exact ⟨fun b hb => storedByte_set_other _ hr (not_covers_byte.1 hb), readReg_set s r _, by simp [sameHidden]⟩

/-! ### Accesses at odd addresses (R16, R57) -/

theorem readWord_odd (h : a.getLsbD 0 = true) (s : State) : readWord a s = .fault .misalignedWordAccess := if_pos h

theorem writeWord_odd (h : a.getLsbD 0 = true) (v : Word) (s : State) :
    writeWord a v s = .fault .misalignedWordAccess := if_pos h

/-- The only fault of a byte read is that the byte holds no value. -/
theorem readByte_fault {r : Fault} (h : readByte a s = .fault r) : r = .unwrittenMemory := by
  unfold readByte at h
  cases hk : kindOf s.platform a.toNat <;> simp only [hk] at h
  case sfr => cases hr : sfrRegister? a.toNat <;> simp [hr] at h
  case peripheral8 => cases hr : portRegister? s.platform a.toNat <;> simp [hr] at h
  case ram | rom =>
    cases hm : s.mem.read a.toNat with
    | none => rw [readCell_of_unwritten hm] at h; cases h; rfl
    | some b => rw [readCell_eq_next.2 hm] at h; cases h
  case peripheral16 | unmapped => cases h

theorem writeIoRegister_ne_fault (r : ByteRegister) (b : Byte) (s : State) (f : Fault) :
    writeIoRegister r b s ≠ .fault f := by
  unfold writeIoRegister
  split <;> exact nofun

/-- No byte write faults. -/
theorem writeByte_ne_fault (a : Word) (b : Byte) (s : State) (f : Fault) : writeByte a b s ≠ .fault f := by
  unfold writeByte
  cases kindOf s.platform a.toNat <;> simp only
  case sfr =>
    cases sfrRegister? a.toNat with
    | none => exact nofun
    | some r => exact writeIoRegister_ne_fault r b s f
  case peripheral8 =>
    cases portRegister? s.platform a.toNat with
    | none => exact nofun
    | some r => exact writeIoRegister_ne_fault r b s f
  case peripheral16 => split <;> exact nofun
  case ram | rom | unmapped => exact nofun

theorem executeNext_odd (h : s.pc.getLsbD 0 = true) : executeNext s = .fault .misalignedFetch := by
  have hf : fetchInstr s = .fault .misalignedFetch := if_pos h
  rw [executeNext, hf, Result.bind_fault]

theorem odd_sub_two (h : v.getLsbD 0 = true) : (v - 2).getLsbD 0 = true := by
  rw [← Bool.not_eq_false, even_iff] at h ⊢
  rw [BitVec.toNat_sub]
  simp
  omega

/-- With SP odd a push faults, and WDTCTL is not where it goes. -/
theorem pushThen_odd (h : s.sp.getLsbD 0 = true) (v : Word) (k : State → Result State) :
    pushThen v s k = .fault .misalignedWordAccess := by
  have ho := odd_sub_two h
  have hne : s.sp - 2 ≠ wdtctlAddress := fun e => by rw [e] at ho; cases ho
  rw [pushThen_eq_bind hne, writeWord_odd ho, Result.bind_fault]

theorem popWord_odd (h : s.sp.getLsbD 0 = true) : popWord s = .fault .misalignedWordAccess := by
  rw [popWord, readWord_odd h, Result.bind_fault]

/-- Settles O32: words by the check of each access, the stack's by SP, bytes by their other stops. -/
theorem misalignedAccessesFault : Obligations.MisalignedAccessesFault := by
  intro s
  refine ⟨fun a v h => ⟨readWord_odd h s, writeWord_odd h v s⟩, fun a b => ⟨fun h => (nomatch readByte_fault h),
    writeByte_ne_fault a b s _⟩, fun rest hc hr hp => ?_, fun hsp => ⟨fun src => pushThen_odd hsp _ _, ?_,
    fun d hd => ?_, fun src v s1 ha hs => ?_⟩⟩
  · rw [step_of_runsNext hc hr]
    exact executeNext_odd (by rwa [atBoundary_pc])
  · rw [exec, execReti, returnFromInterrupt, popWord_odd hsp, Result.bind_fault]
  · rw [exec, execPop, if_neg hd, popWord_odd (s := s.advance) hsp, Result.bind_fault]
  · have hodd : s1.sp.getLsbD 0 = true := by rwa [resolveSource_sp ha hs]
    rw [exec, execPush, if_pos ha, hs, Result.bind_next]
    exact pushThen_odd hodd v _

end Sys2Proof.Machine

/-! # The encoding (R70 to R80, R84, R105)

The fields of an instruction word are its operands and back; whether a MOV or BIS word lies in the row of POP or EINT
is whether its spelling is canonical. Both directions of the round trip rest on these two facts. -/

namespace Sys2Proof

variable {opcode : Nat} {w : Word} {ws rest : List Word} {i : Instr} {wd : Width} {src src' : Src} {dst : Dst}

/-! ### Operands and their fields (R74 to R76) -/

/-- A source form without extension word is determined by `As` and its register number. -/
theorem Src.eq_of_fields (h : src.exists = true) (h' : src'.exists = true) (has : src.fields.1 = src'.fields.1)
    (hreg : src.fields.2.1 = src'.fields.2.1) (hext : src'.fields.2.2 = []) : src = src' := by
  have hlen : src.fields.2.2.length = src'.fields.2.2.length := by
    rw [Laws.EncodeLength.sourceExtends_fields h, Laws.EncodeLength.sourceExtends_fields h', has, hreg]
  have hnil : src.fields.2.2 = [] := List.eq_nil_of_length_eq_zero (by rw [hlen, hext, List.length_nil])
  have hd := decodeSource_fields h []
  rw [has, hreg, hnil, ← hext, decodeSource_fields h'] at hd
  cases hd
  rfl

/-- `Ad` is 0 exactly for a register. -/
theorem Dst.fields_fst_eq_zero : dst.fields.1 = 0 ↔ ∃ r, dst = .reg r := by
  cases dst <;> simp [Dst.fields]

theorem Width.bit_eq_zero : wd.bit = 0 ↔ wd = .word := by cases wd <;> simp [Width.bit]

theorem Width.bit_decodeWidth {n : Nat} (h : n < 2) : (decodeWidth n).bit = n := by
  interval_cases n <;> rfl

/-! ### The spelling of the emulated rows (R79) -/

/-- MOV is spelled otherwise only as `MOV @SP+,Rn`. -/
theorem canonical_mov : (Instr.mov wd src dst).canonical = true ↔
    ¬(wd = .word ∧ src = .indirectInc 1 ∧ ∃ r, dst = .reg r) := by
  cases dst <;> simp [Instr.canonical, imp_iff_not_or]

/-- BIS is spelled otherwise only as `BIS #8,SR`. -/
theorem canonical_bis : (Instr.bis wd src dst).canonical = true ↔
    ¬(wd = .word ∧ src = .const .eight ∧ dst = .reg 2) := by
  simp [Instr.canonical, imp_iff_not_or, or_assoc]

/-! ### Instruction words (R71, R72, R78) -/

/-- The instruction word of a double-operand instruction. -/
def formatIWordOf (opcode : Nat) (wd : Width) (src : Src) (dst : Dst) : Word :=
  formatIWord opcode src.fields.2.1 dst.fields.1 wd.bit src.fields.1 dst.fields.2.1

theorem encodeFormatI_eq : encodeFormatI opcode wd src dst =
    formatIWordOf opcode wd src dst :: (src.fields.2.2 ++ dst.fields.2.2) := rfl

theorem formatIWordOf_toNat (ho : opcode < 16) : (formatIWordOf opcode wd src dst).toNat =
    opcode * 4096 + src.fields.2.1 * 256 + dst.fields.1 * 128 + wd.bit * 64 + src.fields.1 * 16 + dst.fields.2.1 :=
  formatIWord_toNat ho src.fields_lt.2 dst.fields_lt.1 wd.bit_lt src.fields_lt.1 dst.fields_lt.2

theorem bitField_lt (w : Word) (lo n : Nat) : bitField w lo n < 2 ^ n := Nat.mod_lt _ (Nat.two_pow_pos n)

/-- A Format I word is the word of its fields. -/
theorem formatIWord_of_fields (w : Word) : formatIWord (w.toNat / 4096) (bitField w 8 4) (bitField w 7 1)
    (bitField w 6 1) (bitField w 4 2) (bitField w 0 4) = w := by
  apply BitVec.eq_of_toNat_eq
  have hlt := w.isLt
  rw [formatIWord_toNat (by omega) (bitField_lt w 8 4) (bitField_lt w 7 1) (bitField_lt w 6 1) (bitField_lt w 4 2)
    (bitField_lt w 0 4)]
  simp only [bitField]
  omega

/-- A word in the row of PUSH is the word of its fields. -/
theorem pushWord_of_fields (h : w.toNat / 64 = 0x48) :
    BitVec.ofNat 16 (0x48 * 64 + bitField w 4 2 * 16 + bitField w 0 4) = w := by
  apply BitVec.eq_of_toNat_eq
  rw [(pushWord_fields (bitField_lt w 4 2) (bitField_lt w 0 4)).1]
  simp only [bitField]
  omega

/-- A word in the row of POP is the word of its register. -/
theorem popInstrWord_of_field (h : w.toNat / 16 = 0x413) : BitVec.ofNat 16 (0x413 * 16 + (regField w 0).val) = w := by
  apply BitVec.eq_of_toNat_eq
  rw [BitVec.toNat_ofNat, regField_val]
  simp only [bitField]
  omega

/-! ### The row a Format I word lies in (R78, R79) -/

/-- A MOV word lies in the row of POP exactly when it is `MOV @SP+,Rn`. -/
theorem movWord_in_popRow (hs : src.exists = true) : (formatIWordOf 4 wd src dst).toNat / 16 = 0x413 ↔
    wd = .word ∧ src = .indirectInc 1 ∧ ∃ r, dst = .reg r := by
  have := src.fields_lt; have := dst.fields_lt; have := wd.bit_lt
  rw [formatIWordOf_toNat (by decide), ← Width.bit_eq_zero, ← Dst.fields_fst_eq_zero]
  constructor
  · intro h
    exact ⟨by omega, Src.eq_of_fields hs rfl (show _ = 3 by omega) (show _ = 1 by omega) rfl, by omega⟩
  · rintro ⟨hb, rfl, hd⟩
    simp only [Src.fields] at *
    omega

/-- A BIS word is the word of EINT exactly when it is `BIS #8,SR`. -/
theorem bisWord_eq_eint (hs : src.exists = true) : (formatIWordOf 0xD wd src dst).toNat = 0xD232 ↔
    wd = .word ∧ src = .const .eight ∧ dst = .reg 2 := by
  have := src.fields_lt; have := dst.fields_lt; have := wd.bit_lt
  rw [formatIWordOf_toNat (by decide), ← Width.bit_eq_zero]
  constructor
  · intro h
    obtain ⟨r, rfl⟩ := Dst.fields_fst_eq_zero.1 (show dst.fields.1 = 0 by omega)
    have hr : r.val = 2 := show (Dst.reg r).fields.2.1 = 2 by omega
    exact ⟨by omega, Src.eq_of_fields hs rfl (show _ = 3 by omega) (show _ = 2 by omega) rfl,
      congrArg Dst.reg (Fin.ext hr)⟩
  · rintro ⟨hb, rfl, rfl⟩
    simp [Src.fields, Dst.fields, hb]

theorem lookupOpcode_mov (hs : src.exists = true) : lookupOpcode (formatIWordOf 4 wd src dst) = some .mov ↔
    (Instr.mov wd src dst).canonical = true := by
  rw [canonical_mov, ← movWord_in_popRow hs, lookupOpcode_eq]
  have := src.fields_lt; have := dst.fields_lt; have := wd.bit_lt
  have hw := formatIWordOf_toNat (opcode := 4) (wd := wd) (src := src) (dst := dst) (by decide)
  rw [if_neg (by omega)]
  by_cases hpop : (formatIWordOf 4 wd src dst).toNat / 16 = 0x413
  · simp [hpop]
  · rw [if_neg hpop, if_neg (by omega), if_neg (by omega), if_pos (by omega)]
    simp [hpop]

theorem lookupOpcode_bic : lookupOpcode (formatIWordOf 0xC wd src dst) = some .bic := by
  have := src.fields_lt; have := dst.fields_lt; have := wd.bit_lt
  rw [lookupOpcode_eq, formatIWordOf_toNat (by decide), if_neg (by omega), if_neg (by omega), if_neg (by omega),
    if_neg (by omega), if_neg (by omega), if_pos (by omega)]

theorem lookupOpcode_bis (hs : src.exists = true) : lookupOpcode (formatIWordOf 0xD wd src dst) = some .bis ↔
    (Instr.bis wd src dst).canonical = true := by
  rw [canonical_bis, ← bisWord_eq_eint hs, lookupOpcode_eq]
  have := src.fields_lt; have := dst.fields_lt; have := wd.bit_lt
  have hw := formatIWordOf_toNat (opcode := 0xD) (wd := wd) (src := src) (dst := dst) (by decide)
  by_cases heint : (formatIWordOf 0xD wd src dst).toNat = 0xD232
  · simp [heint]
  · rw [if_neg heint, if_neg (by omega), if_neg (by omega), if_neg (by omega), if_neg (by omega), if_neg (by omega),
      if_pos (by omega)]
    simp [heint]

theorem lookupOpcode_push : lookupOpcode (BitVec.ofNat 16 (0x48 * 64 + src.fields.1 * 16 + src.fields.2.1)) =
    some .push := by
  have := src.fields_lt
  rw [lookupOpcode_eq, (pushWord_fields src.fields_lt.1 src.fields_lt.2).1, if_neg (by omega), if_neg (by omega),
    if_neg (by omega), if_pos (by omega)]

theorem lookupOpcode_pop (d : Reg) : lookupOpcode (BitVec.ofNat 16 (0x413 * 16 + d.val)) = some .pop := by
  have hn : (BitVec.ofNat 16 (0x413 * 16 + d.val)).toNat = 0x413 * 16 + d.val := by rw [BitVec.toNat_ofNat]; omega
  rw [lookupOpcode_eq, hn, if_neg (by omega), if_pos (by omega)]

/-! ### Decoding the words of an instruction -/

theorem formatIAdmitted_exists (h : formatIAdmitted wd src dst = true) : src.exists = true ∧ dst.exists = true := by
  simp only [formatIAdmitted, Bool.and_eq_true] at h
  exact ⟨h.1.1.1.1, h.1.1.1.2⟩

theorem regField_of_bitField {lo : Nat} {n : Nat} (h : bitField w lo 4 = n) : regField w lo = Fin.ofNat 16 n := by
  rw [regField, h]

/-- The Format I decoder undoes the Format I encoder. -/
theorem decodeFormatI_encode {mk : Width → Src → Dst → Instr} (ho : opcode < 16) (hs : src.exists = true)
    (hd : dst.exists = true) (ha : (mk wd src dst).admitted = true) (rest : List Word) :
    decodeFormatI mk (formatIWordOf opcode wd src dst) (src.fields.2.2 ++ dst.fields.2.2 ++ rest) =
      .ok (mk wd src dst, rest) := by
  obtain ⟨f1, f2, f3, f4, f5⟩ :=
    formatIWord_fields ho src.fields_lt.2 dst.fields_lt.1 wd.bit_lt src.fields_lt.1 dst.fields_lt.2
  simp only [decodeFormatI, formatIWordOf, f2, f3, f4, regField_of_bitField f1, regField_of_bitField f5,
    List.append_assoc, decodeSource_fields hs, decodeDest_fields hd, decodeWidth_bit, ifAdmitted_eq_ok, ha, and_self]

/-- The PUSH decoder undoes the encoder. -/
theorem decodePush_encode (hs : src.exists = true) (ha : (Instr.push src).admitted = true) (rest : List Word) :
    decodePush (BitVec.ofNat 16 (0x48 * 64 + src.fields.1 * 16 + src.fields.2.1)) (src.fields.2.2 ++ rest) =
      .ok (.push src, rest) := by
  obtain ⟨-, f1, f2⟩ := pushWord_fields src.fields_lt.1 src.fields_lt.2
  simp only [decodePush, f1, regField_of_bitField f2, decodeSource_fields hs, ifAdmitted_eq_ok, ha, and_self]

/-- Settles O2, by the rows: the word of each instruction lies in its own row, whose decoder undoes the fields. -/
theorem decodeOfEncodeGivesTheInstruction : Obligations.DecodeOfEncodeGivesTheInstruction := by
  intro i rest h
  obtain ⟨ha, hc⟩ := Bool.and_eq_true_iff.1 h
  cases i with
  | mov wd src dst =>
    obtain ⟨hs, hd⟩ := formatIAdmitted_exists ha
    simp only [encode, encodeFormatI_eq, List.cons_append, decode, (lookupOpcode_mov hs).2 hc]
    exact decodeFormatI_encode (by decide) hs hd ha rest
  | bic wd src dst =>
    obtain ⟨hs, hd⟩ := formatIAdmitted_exists ha
    simp only [encode, encodeFormatI_eq, List.cons_append, decode, lookupOpcode_bic]
    exact decodeFormatI_encode (by decide) hs hd ha rest
  | bis wd src dst =>
    obtain ⟨hs, hd⟩ := formatIAdmitted_exists ha
    simp only [encode, encodeFormatI_eq, List.cons_append, decode, (lookupOpcode_bis hs).2 hc]
    exact decodeFormatI_encode (by decide) hs hd ha rest
  | push src =>
    simp only [encode, List.cons_append, decode, lookupOpcode_push]
    exact decodePush_encode (Machine.exists_of_pushAdmitted ha) ha rest
  | pop d =>
    have hreg : regField (BitVec.ofNat 16 (0x413 * 16 + d.val)) 0 = d := by
      apply Fin.ext
      rw [regField_val, bitField, BitVec.toNat_ofNat]
      omega
    simp only [encode, List.cons_append, List.nil_append, decode, lookupOpcode_pop, hreg, ifAdmitted_eq_ok, ha, and_self]
  | reti | eint => rfl

/-! ### Encoding what was decoded -/

/-- What the Format I decoder answers is admitted, its operands exist, and its words under the same opcode are the words
that were read. -/
theorem decodeFormatI_inv {mk : Width → Src → Dst → Instr} (ho : w.toNat / 4096 = opcode)
    (h : decodeFormatI mk w ws = .ok (i, rest)) :
    ∃ wd src dst, i = mk wd src dst ∧ i.admitted = true ∧ src.exists = true ∧
      formatIWordOf opcode wd src dst = w ∧ src.fields.2.2 ++ dst.fields.2.2 ++ rest = ws := by
  unfold decodeFormatI at h
  split at h
  · cases h
  rename_i src ws1 hs
  split at h
  · cases h
  rename_i dst ws2 hd
  obtain ⟨ha, rfl, rfl⟩ := ifAdmitted_eq_ok.1 h
  obtain ⟨s0, s1, s2, rfl⟩ := decodeSource_inv (bitField_lt w 4 2) hs
  obtain ⟨-, d1, d2, rfl⟩ := decodeDest_inv (bitField_lt w 7 1) hd
  refine ⟨_, src, dst, rfl, ha, s0, ?_, List.append_assoc _ _ _⟩
  rw [formatIWordOf, s1, s2, d1, d2, regField_val, regField_val, Width.bit_decodeWidth (bitField_lt w 6 1), ← ho,
    formatIWord_of_fields]

/-- What the PUSH decoder answers is admitted, and its words are the words that were read. -/
theorem decodePush_inv (hw : w.toNat / 64 = 0x48) (h : decodePush w ws = .ok (i, rest)) :
    ∃ src, i = .push src ∧ i.admitted = true ∧ encode i ++ rest = w :: ws := by
  unfold decodePush at h
  split at h
  · cases h
  rename_i src ws1 hs
  obtain ⟨ha, rfl, rfl⟩ := ifAdmitted_eq_ok.1 h
  obtain ⟨-, s1, s2, rfl⟩ := decodeSource_inv (bitField_lt w 4 2) hs
  refine ⟨src, rfl, ha, ?_⟩
  rw [encode, s1, s2, regField_val, pushWord_of_fields hw, List.cons_append]

/-- The bits of the row a word lies in (R78). -/
theorem toNat_of_lookupOpcode {o : Opcode} (h : lookupOpcode w = some o) : match o with
    | .mov => w.toNat / 4096 = 4
    | .bic => w.toNat / 4096 = 0xC
    | .bis => w.toNat / 4096 = 0xD
    | .push => w.toNat / 64 = 0x48
    | .reti => w.toNat = 0x1300
    | .pop => w.toNat / 16 = 0x413
    | .eint => w.toNat = 0xD232 := by
  rw [lookupOpcode_eq] at h
  repeat' split at h
  all_goals cases h
  all_goals assumption

/-- Settles O3, by the rows: the decoder of a row keeps the fields, and a word of the emulated rows is never read as MOV or
BIS. -/
theorem encodeOfDecodeGivesTheWords : Obligations.EncodeOfDecodeGivesTheWords := by
  intro ws rest i h
  cases ws with
  | nil => cases h
  | cons w ws =>
    cases hl : lookupOpcode w with
    | none =>
      simp only [decode, hl] at h
      split at h <;> cases h
    | some o =>
      have hw := toNat_of_lookupOpcode hl
      cases o <;> simp only [decode, hl] at h hw
      case mov =>
        obtain ⟨wd, src, dst, rfl, ha, hs, rfl, rfl⟩ := decodeFormatI_inv hw h
        exact ⟨Bool.and_eq_true_iff.2 ⟨ha, (lookupOpcode_mov hs).1 hl⟩, rfl⟩
      case bic =>
        obtain ⟨wd, src, dst, rfl, ha, -, rfl, rfl⟩ := decodeFormatI_inv hw h
        exact ⟨Bool.and_eq_true_iff.2 ⟨ha, rfl⟩, rfl⟩
      case bis =>
        obtain ⟨wd, src, dst, rfl, ha, hs, rfl, rfl⟩ := decodeFormatI_inv hw h
        exact ⟨Bool.and_eq_true_iff.2 ⟨ha, (lookupOpcode_bis hs).1 hl⟩, rfl⟩
      case push =>
        obtain ⟨src, rfl, ha, he⟩ := decodePush_inv hw h
        exact ⟨Bool.and_eq_true_iff.2 ⟨ha, rfl⟩, he⟩
      case pop =>
        obtain ⟨ha, rfl, rfl⟩ := ifAdmitted_eq_ok.1 h
        exact ⟨Bool.and_eq_true_iff.2 ⟨ha, rfl⟩, by rw [encode, popInstrWord_of_field hw]; rfl⟩
      case reti =>
        cases h
        obtain rfl : w = 0x1300 := BitVec.eq_of_toNat_eq hw
        exact ⟨rfl, rfl⟩
      case eint =>
        cases h
        obtain rfl : w = 0xD232 := BitVec.eq_of_toNat_eq hw
        exact ⟨rfl, rfl⟩

end Sys2Proof

/-! # The encoding in a step and in `exec` (R74 to R80, R100, R101) -/

namespace Sys2Proof

variable {w : Word} {ws rest : List Word} {i : Instr} {wd : Width} {src : Src} {dst : Dst}

/-! ### Words in no row (R80, R105) -/

/-- A word in no row is refused, whatever follows it. -/
theorem decode_of_lookupOpcode_none (h : lookupOpcode w = none) (ws : List Word) : decode (w :: ws) =
    .error (if w.toNat / 64 = 0x49 then .operandFormNotAdmitted else .instructionNotInScope) := by
  simp only [decode, h]
  split <;> rfl

/-- A word outside the five bit patterns of rule R78 lies in no row. -/
theorem lookupOpcode_eq_none (hmov : w.toNat / 0x1000 ≠ 0x4) (hbic : w.toNat / 0x1000 ≠ 0xC)
    (hbis : w.toNat / 0x1000 ≠ 0xD) (hpush : w.toNat / 0x40 ≠ 0x48) (hreti : w.toNat ≠ 0x1300) :
    lookupOpcode w = none := by
  rw [lookupOpcode_eq, if_neg (by omega), if_neg (by omega), if_neg (by omega), if_neg (by omega), if_neg (by omega),
    if_neg (by omega), if_neg (by omega)]

/-! ### The extension words of a double-operand instruction (R84) -/

/-- The instruction word in the rows of MOV, BIC and BIS says how many extension words each operand has. -/
theorem extensionWords_formatIWordOf {opcode : Nat} {o : Opcode} (ho : opcode < 16) (hs : src.exists = true)
    (hl : lookupOpcode (formatIWordOf opcode wd src dst) = some o) (h : o = .mov ∨ o = .bic ∨ o = .bis) :
    sourceExtensionWords (formatIWordOf opcode wd src dst) = src.fields.2.2.length ∧
      destExtensionWords (formatIWordOf opcode wd src dst) = dst.fields.2.2.length := by
  obtain ⟨f1, f2, -, f4, -⟩ :=
    formatIWord_fields ho src.fields_lt.2 dst.fields_lt.1 wd.bit_lt src.fields_lt.1 dst.fields_lt.2
  rw [Laws.EncodeLength.sourceExtends_fields hs, Laws.EncodeLength.dest_fields]
  rcases h with rfl | rfl | rfl <;>
    simp only [sourceExtensionWords, destExtensionWords, hl, formatIWordOf, f1, f2, f4, and_self] at hl ⊢

/-- What follows the instruction word of a decoded double-operand instruction: the source's extension words, and the
destination's, as many as the instruction word says. -/
theorem extensionWords_of_decode (hi : i = .mov wd src dst ∨ i = .bic wd src dst ∨ i = .bis wd src dst)
    (h : decode (w :: ws) = .ok (i, rest)) : src.fields.2.2 ++ dst.fields.2.2 ++ rest = ws ∧
      sourceExtensionWords w = src.fields.2.2.length ∧ destExtensionWords w = dst.fields.2.2.length := by
  obtain ⟨hwf, he⟩ := encodeOfDecodeGivesTheWords _ _ _ h
  obtain ⟨ha, hc⟩ := Bool.and_eq_true_iff.1 hwf
  rcases hi with rfl | rfl | rfl <;> obtain ⟨rfl, rfl⟩ := List.cons.inj he <;> refine ⟨rfl, ?_⟩
  · have hs := Machine.exists_of_formatIAdmitted ha
    exact extensionWords_formatIWordOf (by decide) hs ((lookupOpcode_mov hs).2 hc) (.inl rfl)
  · exact extensionWords_formatIWordOf (by decide) (Machine.exists_of_formatIAdmitted ha) lookupOpcode_bic
      (.inr (.inl rfl))
  · have hs := Machine.exists_of_formatIAdmitted ha
    exact extensionWords_formatIWordOf (by decide) hs ((lookupOpcode_bis hs).2 hc) (.inr (.inr rfl))

end Sys2Proof

namespace Sys2Proof.Machine

variable {s s1 : State} {rest : List Turn} {w v a : Word} {ws xs : List Word} {i : Instr} {wd : Width} {src : Src}
  {dst : Dst}

theorem Result.bind_assoc {α β γ : Type} (x : Result α) (f : α → Result β) (g : β → Result γ) :
    (x.bind f).bind g = x.bind fun a => (f a).bind g := by
  cases x <;> rfl

/-! ### Stops of the fetch (R77, R80) -/

/-- A word in no row stops the fetch, before any other word is read. -/
theorem fetchInstr_of_lookupOpcode_none (hp : s.pc.getLsbD 0 = false) (hw : readWord s.pc s = .next w)
    (h : lookupOpcode w = none) : fetchInstr s =
      .refused (if w.toNat / 64 = 0x49 then .operandFormNotAdmitted else .instructionNotInScope) := by
  simp only [fetchInstr, hp, Bool.false_eq_true, if_false, hw, Result.bind_next, decodeFetched,
    decode_of_lookupOpcode_none h]
  split <;> rfl

/-- Settles O4: the instruction word alone decides, by the row it lies in. -/
theorem wordsOutOfScopeAreRefused : Obligations.WordsOutOfScopeAreRefused := by
  intro s rest w hc hr hp hw
  have hstep (h : lookupOpcode w = none) : step s =
      .refused (if w.toNat / 64 = 0x49 then .operandFormNotAdmitted else .instructionNotInScope) := by
    rw [step_of_runsNext hc hr, executeNext, fetchInstr_of_lookupOpcode_none (by simpa using hp)
      (by rw [atBoundary_pc, readWord_atBoundary, hw]) h, Result.bind_refused]
  constructor
  · intro hmov hbic hbis hpush hpushb hreti
    rw [hstep (lookupOpcode_eq_none hmov hbic hbis hpush fun h => hreti (BitVec.eq_of_toNat_eq h)), if_neg hpushb]
  · intro hpushb
    rw [hstep (lookupOpcode_eq_none (by omega) (by omega) (by omega) (by omega) (by omega)), if_pos hpushb]

theorem sourceResolves_formatI (hi : i = .mov wd src dst ∨ i = .bic wd src dst ∨ i = .bis wd src dst) (s : State) :
    sourceResolves i s = (resolveSource wd src s.advance).bind fun _ => .next () := by
  rcases hi with rfl | rfl | rfl <;> rfl

/-- With a destination in memory the fetch is the source operand, then the destination's extension word (R77). -/
theorem fetchInstr_memoryDestination {x : Word} (hp : s.pc.getLsbD 0 = false) (hw : wordsAt s.pc (w :: xs) s)
    (hi : i = .mov wd src dst ∨ i = .bic wd src dst ∨ i = .bis wd src dst) (hx : dst.fields.2.2 = [x])
    (hd : decode (w :: xs ++ [x]) = .ok (i, [])) :
    fetchInstr s = (resolveSource wd src s.advance).bind fun _ =>
      (readWord (s.pc + 2 + 2 * BitVec.ofNat 16 xs.length) s).bind fun y => decodeFetched (w :: xs ++ [y]) := by
  obtain ⟨he, hsn, hdn⟩ := extensionWords_of_decode hi hd
  rw [hx, List.append_nil] at he
  have hxs : src.fields.2.2 = xs := List.append_cancel_right he
  rw [hx, List.length_singleton] at hdn
  rw [fetchInstr_eq hp hw (by rw [hsn, hxs]) hd, sourceResolves_formatI hi, hdn]
  simp only [fetchWords, Result.bind_assoc, Result.bind_next]

/-- Settles O7: the fetch resolves the source operand before it reads the destination's extension word. -/
theorem sourceIsCompleteBeforeTheDestination : Obligations.SourceIsCompleteBeforeTheDestination := by
  intro s rest wd src dst i w x xs hc hr hp hw hi hx hd
  have hf := fetchInstr_memoryDestination (s := atBoundary rest s) (by simpa using hp)
    (by rw [atBoundary_pc]; exact wordsAt_atBoundary.2 hw) hi hx hd
  rw [atBoundary_pc, readWord_atBoundary] at hf
  rw [step_of_runsNext hc hr, executeNext, hf]
  refine ⟨fun r h => ?_, fun r h => ?_, fun v h => ⟨fun r h' => ?_, fun r h' => ?_⟩⟩
  · rw [h]; rfl
  · rw [h]; rfl
  · rw [h, h']; rfl
  · rw [h, h']; rfl

/-! ### A source operand (R74, R77) -/

/-- Advancing PC and reading memory commute. -/
theorem readMem_advance (w : Width) (a : Word) (s : State) :
    readMem w a s.advance = (readMem w a s).bind fun p => .next (p.1, p.2.advance) := by
  have hio (r : ByteRegister) : readIoRegister r s.advance = ((readIoRegister r s).1, (readIoRegister r s).2.advance) := by
    have hget : r.get s.advance = r.get s := ByteRegister.get_setPc s r _
    simp only [readIoRegister, advance_platform, hget]
    split <;> rfl
  cases w with
  | word =>
    simp only [readMem, readWord_advance, Result.bind_assoc, Result.bind_next]
  | byte =>
    have hb : readByte a s.advance = (readByte a s).bind fun p => .next (p.1, p.2.advance) := by
      simp only [readByte, advance_platform, hio]
      cases kindOf s.platform a.toNat with
      | sfr => cases sfrRegister? a.toNat <;> rfl
      | peripheral8 => cases portRegister? s.platform a.toNat <;> rfl
      | ram | rom =>
        simp only [Result.bind_assoc, Result.bind_next]
        rfl
      | peripheral16 | unmapped => rfl
    simp only [readMem, hb, Result.bind_assoc, Result.bind_next]

/-- A source operand in memory is the read of its address, and then a change of the state alone. -/
theorem resolveSource_of_address (w : Width) (h : sourceAddress? src s = some a) :
    ∃ f : State → State, resolveSource w src s = (readMem w a s).bind fun p => .next (p.1, f p.2) := by
  cases src with
  | reg _ | imm _ | const _ => cases h
  | indexed _ _ | symbolic _ | absolute _ => cases h; exact ⟨_, readMem_advance w _ s⟩
  | indirect r =>
    cases h
    refine ⟨id, ?_⟩
    simp only [resolveSource]
    cases readMem w (readReg r s) s <;> rfl
  | indirectInc r => cases h; exact ⟨fun t => setReg r (readReg r t + incrementOf w r) t, rfl⟩

/-- A source operand that is no place in memory always resolves. -/
theorem resolveSource_of_no_address (w : Width) (h : sourceAddress? src s = none) :
    ∃ p, resolveSource w src s = .next p := by
  cases src with
  | reg _ | imm _ | const _ => exact ⟨_, rfl⟩
  | indexed _ _ | symbolic _ | absolute _ | indirect _ | indirectInc _ => cases h

theorem resolveSource_completes (w : Width) (src : Src) (s : State) :
    (∃ p, resolveSource w src s = .next p) ↔ sourceReadable w src s = true := by
  unfold sourceReadable
  cases h : sourceAddress? src s with
  | none => simpa using resolveSource_of_no_address w h
  | some a =>
    obtain ⟨f, hf⟩ := resolveSource_of_address w h
    simp only [hf, ← readMem_completes, Result.bind_eq_next]
    exact ⟨fun ⟨_, q, hq, _⟩ => ⟨q, hq⟩, fun ⟨q, hq⟩ => ⟨_, q, hq, rfl⟩⟩

/-- The value of a source operand in memory is what its address reads. -/
theorem readMem_of_resolveSource (ha : sourceAddress? src s = some a) (h : resolveSource wd src s = .next (v, s1)) :
    ∃ s2, readMem wd a s = .next (v, s2) := by
  obtain ⟨f, hf⟩ := resolveSource_of_address wd ha
  rw [hf, Result.bind_eq_next] at h
  obtain ⟨⟨v', s2⟩, hr, he⟩ := h
  cases he
  exact ⟨s2, hr⟩

/-- A completed source operand writes at most one register, and the count of draws. -/
theorem resolveSource_writes_one (h : resolveSource wd src s = .next (v, s1)) :
    ∃ n, s1 = s.setDraws n ∨ ∃ r x, s1 = setReg r x (s.setDraws n) := by
  obtain ⟨n, rfl⟩ := resolveSource_state h
  refine ⟨n, ?_⟩
  cases src with
  | reg _ | indirect _ | const _ => exact .inl rfl
  | indexed _ _ | symbolic _ | absolute _ | imm _ => exact .inr ⟨0, s.pc + 2, rfl⟩
  | indirectInc r => exact .inr ⟨r, _, rfl⟩

theorem resolveSource_storedByte (h : resolveSource wd src s = .next (v, s1)) (b : Nat) :
    storedByte b s1 = storedByte b s := by
  obtain ⟨n, rfl | ⟨r, x, rfl⟩⟩ := resolveSource_writes_one h <;> simp

theorem resolveSource_sameHidden (h : resolveSource wd src s = .next (v, s1)) : sameHidden s s1 := by
  obtain ⟨n, rfl | ⟨r, x, rfl⟩⟩ := resolveSource_writes_one h <;> simp [sameHidden]

/-- A completed source operand leaves every register but PC and the one it increments. -/
theorem resolveSource_readReg_other {r : Reg} (h : resolveSource wd src s = .next (v, s1)) (h0 : r ≠ 0)
    (hr : src.increments? ≠ some r) : readReg r s1 = readReg r s := by
  obtain ⟨n, rfl⟩ := resolveSource_state h
  cases src with
  | reg _ | indirect _ | const _ => rfl
  | indexed _ _ | symbolic _ | absolute _ | imm _ => exact readReg_advance h0
  | indirectInc r' => exact readReg_setReg_other _ _ fun e => hr (congrArg some e.symm)

/-- The register of `@Rn+` is incremented. -/
theorem resolveSource_readReg_increments {r : Reg} (he : src.exists = true)
    (h : resolveSource wd src s = .next (v, s1)) (hr : src.increments? = some r) :
    readReg r s1 = readReg r s + incrementOf wd r := by
  obtain ⟨n, rfl⟩ := resolveSource_state h
  cases src with
  | indirectInc r' =>
    cases hr
    exact readReg_setReg_same _ _ (by rintro rfl; cases he)
  | reg _ | indexed _ _ | symbolic _ | absolute _ | indirect _ | imm _ | const _ => cases hr

theorem incrementOf_eq (w : Width) (r : Reg) : incrementOf w r = if r = 1 ∨ w = .word then 2 else 1 := by
  cases w <;> simp [incrementOf, widthBytes]

/-- Settles O36: a source operand is a read, if it has an address, and a write of at most one register. -/
theorem sourceOperandReadsAndIncrements : Obligations.SourceOperandReadsAndIncrements := by
  intro w src s he
  refine ⟨resolveSource_completes w src s, fun v s1 h => ⟨(resolveSource_width h).symm, resolveSource_pc he h,
    fun r => resolveSource_readReg_other h, fun r hr => ?_, fun a ha => readMem_of_resolveSource ha h, ?_, ?_,
    resolveSource_storedByte h, resolveSource_sameHidden h⟩⟩
  · rw [resolveSource_readReg_increments he h hr, incrementOf_eq]
  · rintro r rfl
    cases h
    rfl
  · rintro n rfl
    cases h
    rfl

/-! ### Emulated instructions (R79, R100, R101) -/

/-- The source `@SP+` of a word is a pop. -/
theorem resolveSource_stackTop (s : State) : resolveSource .word (.indirectInc 1) s = popWord s := by
  simp only [resolveSource, readMem, popWord, readReg_sp, Result.bind_assoc, Result.bind_next]
  rfl

/-- Settles O45: the source `@SP+` is a pop, and `#8` is GIE. -/
theorem emulatedInstructionsAreTheirExpansions : Obligations.EmulatedInstructionsAreTheirExpansions := by
  constructor
  · intro d s hd
    have ha : formatIAdmitted .word (.indirectInc 1) (.reg d) = true := by
      simp [formatIAdmitted, Src.exists, Reg.isBase, Dst.exists, Src.isIndirectPc, incrementsDestination,
        Src.increments?, Dst.register?, byteToPc, hd]
    simp only [exec, execPop, hd, if_false, execMov, ha, if_true, resolveSource_stackTop]
    rfl
  · intro s
    have ha : formatIAdmitted .word (.const .eight) (.reg 2) = true := by decide
    simp only [exec, execEint, execBis, ha, if_true]
    rfl

/-! ### Fixed words and constants (R71, R72, R76) -/

/-- Settles O1. -/
theorem specWordsDecode : Obligations.SpecWordsDecode := by
  refine ⟨?_, ?_, ?_, ?_, ?_, ?_, ?_⟩ <;> decide

/-- Settles O37: a constant resolves in every state and leaves it. -/
theorem constantGeneratorValues : Obligations.ConstantGeneratorValues :=
  fun _ => ⟨by decide, by decide, rfl, rfl, rfl, rfl, rfl, rfl, rfl⟩

end Sys2Proof.Machine

/-! # Return from an interrupt, and the frame of the instructions that only write registers (R57, R90 to R92, R95, R100,
R101, R129, R134) -/

namespace Sys2Proof.Machine

variable {s t : State} {a b v sr pc : Word} {r : Reg} {written : List Reg} {src : Source}

/-! ### RETI (R25, R57, R90) -/

/-- With SR and PC on the stack and no reserved bit in SR, RETI completes with both popped. -/
theorem exec_reti_of_frame (hsr : readWord s.sp s = .next sr) (hr : hasReservedSrBit sr = false)
    (hpc : readWord (s.sp + 2) s = .next pc) : exec .reti s = .next { s with sr := sr, pc := pc, sp := s.sp + 4 } :=
  returnFromInterrupt_eq_next.2 ⟨sr, pc, hsr, hr, hpc, rfl⟩

/-- Settles O20: both words are there to be popped. -/
theorem retiPopsSrThenPc : Obligations.RetiPopsSrThenPc := by
  intro s h0 h2 hr
  obtain ⟨sr, hsr⟩ := (readWord_completes _ s).2 h0
  obtain ⟨pc, hpc⟩ := (readWord_completes _ s).2 h2
  exact ⟨sr, pc, hsr, hpc, exec_reti_of_frame hsr (hr sr hsr) hpc⟩

/-- Settles O21: an odd SP stops the first pop, a reserved bit the write of SR after it. -/
theorem retiStopsByName : Obligations.RetiStopsByName := by
  intro s
  obtain ⟨-, -, -, hstack⟩ := misalignedAccessesFault s
  refine ⟨fun ho => ?_, fun v hv hr => ?_⟩
  · obtain ⟨-, hreti, -⟩ := hstack ho
    exact hreti
  · have hw (u : State) : writeReg 2 v u = .refused .reservedSrBit := if_pos ⟨rfl, hr⟩
    simp only [exec, execReti, returnFromInterrupt, popWord, hv, Result.bind_next, hw, Result.bind_refused]

/-! ### The frame of an interrupt (R129, R131, R134) -/

/-- A word of RAM reads the same after a store of another word. -/
theorem readWord_setMem_write_other (ha : a.getLsbD 0 = false) (hb : b.getLsbD 0 = false) (hne : a ≠ b)
    (hk : wordInRam s.platform a.toNat = true) (v : Word) :
    readWord a (s.setMem ((s.mem.write b.toNat (loByte v)).write (b.toNat + 1) (hiByte v))) = readWord a s := by
  have hne' : a.toNat ≠ b.toNat := fun e => hne (BitVec.eq_of_toNat_eq e)
  rw [even_iff] at ha hb
  refine readWord_mem_congr rfl (.inl (wordInRam_iff.1 hk).1) ?_ ?_ <;>
    rw [State.setMem_mem, Memory.read_write_other _ _ (by omega), Memory.read_write_other _ _ (by omega)]

/-- The end of the interrupt sequence keeps SP and every word of memory. -/
theorem enterHandler_stack (h : enterHandler src s = .next t) :
    t.sp = s.sp ∧ ∀ a, readWord a t = readWord a s := by
  obtain ⟨v, -, rfl⟩ := enterHandler_eq_next.1 h
  exact ⟨acknowledge_sp, fun a => readWord_congr acknowledge_platform acknowledge_wdtctl acknowledge_mem⟩

/-- A push to RAM goes on with the word at the new SP, every other word of RAM as it was, and SR kept. -/
theorem pushThen_frame {k : State → Result State} (hk : wordInRam s.platform (s.sp - 2).toNat = true)
    (h : pushThen v s k = .next t) :
    ∃ u, k u = .next t ∧ u.platform = s.platform ∧ u.sp = s.sp - 2 ∧ u.sr = s.sr ∧
      readWord (s.sp - 2) u = .next v ∧
      ∀ a, a.getLsbD 0 = false → a ≠ s.sp - 2 → wordInRam s.platform a.toNat = true → readWord a u = readWord a s := by
  obtain ⟨ho, -, hu⟩ := (pushThen_eq_next (ne_wdtctl_of_wordInRam hk)).1 h
  refine ⟨_, hu, rfl, rfl, rfl, readWord_setMem_write (s := s.setSp (s.sp - 2)) ho hk, fun a ha hne hka => ?_⟩
  calc _ = readWord a (s.setSp (s.sp - 2)) :=
        readWord_setMem_write_other (s := s.setSp (s.sp - 2)) ha ho hne hka v
    _ = readWord a s := readWord_congr rfl rfl rfl

/-- After the interrupt sequence SR is at the new SP, and PC above it: the second push goes below the first. -/
theorem interruptSequence_frame (ho : s.sp.getLsbD 0 = false) (hk2 : wordInRam s.platform (s.sp - 2).toNat = true)
    (hk4 : wordInRam s.platform (s.sp - 4).toNat = true) (ht : interruptSequence src s = .next t) :
    t.sp = s.sp - 4 ∧ readWord (s.sp - 4) t = .next s.sr ∧ readWord (s.sp - 2) t = .next s.pc := by
  have h4 : s.sp - 2 - 2 = s.sp - 4 := by bv_omega
  obtain ⟨s1, ht1, hp1, hsp1, hsr1, hpc1, -⟩ := pushThen_frame hk2 ht
  obtain ⟨s2, ht2, -, hsp2, -, hsr2, hother⟩ := pushThen_frame (by rwa [hp1, hsp1, h4]) ht1
  rw [hsp1, h4] at hsp2 hsr2 hother
  obtain ⟨hsp, hword⟩ := enterHandler_stack ht2
  refine ⟨hsp.trans hsp2, by rw [hword, hsr2, hsr1], ?_⟩
  rw [hword, hother _ (even_sub_two ho) (by bv_omega) (by rwa [hp1]), hpc1]

/-- Settles O22: entry leaves the frame that RETI pops, and SP comes back by the two words it went down. -/
theorem retiUndoesInterruptEntry : Obligations.RetiUndoesInterruptEntry := by
  intro src s t ho hk2 hk4 hr ht
  obtain ⟨hsp, hsr, hpc⟩ := interruptSequence_frame ho hk2 hk4 ht
  have hsp2 : t.sp + 2 = s.sp - 2 := by rw [hsp]; bv_omega
  refine ⟨by rw [hsp, hsr], by rw [hsp2, hpc], fun u hu husr hupc => ?_⟩
  exact ⟨_, exec_reti_of_frame husr hr hupc, rfl, rfl, by rw [hu, hsp, BitVec.sub_add_cancel], rfl⟩

/-! ### Instructions that only write registers (R90, R95, R100, R101) -/

/-- Nothing is stored, nothing hidden changes, and no register but those listed. -/
structure OnlyRegsChange (written : List Reg) (s t : State) : Prop where
  regs   : ∀ r, r ∉ written → readReg r t = readReg r s
  stored : ∀ b, storedByte b t = storedByte b s
  hidden : sameHidden s t

theorem OnlyRegsChange.refl (written : List Reg) (s : State) : OnlyRegsChange written s s :=
  ⟨fun _ _ => rfl, fun _ => rfl, rfl, rfl, rfl, rfl, rfl, rfl⟩

theorem OnlyRegsChange.setReg (h : OnlyRegsChange written s t) (hr : r ∈ written) (v : Word) :
    OnlyRegsChange written s (setReg r v t) where
  regs x hx := (readReg_setReg_other t v (by rintro rfl; exact hx hr)).trans (h.regs x hx)
  stored b := (storedByte_setReg r v t b).trans (h.stored b)
  hidden := by simpa [sameHidden] using h.hidden

theorem exec_pop_onlyRegsChange {d : Reg} (h : exec (.pop d) s = .next t) : OnlyRegsChange [0, 1, d] s t := by
  obtain ⟨-, v, -, hw⟩ := exec_pop_eq_next.1 h
  obtain ⟨-, rfl⟩ := writeReg_eq_next.1 hw
  have hpc := (OnlyRegsChange.refl [0, 1, d] s).setReg (r := 0) (by simp) (s.pc + 2)
  exact (hpc.setReg (r := 1) (by simp) (s.sp + 2)).setReg (by simp) v

theorem exec_eint_onlyRegsChange (h : exec .eint s = .next t) : OnlyRegsChange [0, 2] s t := by
  obtain ⟨-, rfl⟩ := writeReg_eq_next.1 h
  have hpc := (OnlyRegsChange.refl [0, 2] s).setReg (r := 0) (by simp) (s.pc + 2)
  exact hpc.setReg (by simp) (enableInterrupts s.sr)

theorem exec_reti_onlyRegsChange (h : exec .reti s = .next t) : OnlyRegsChange [0, 1, 2] s t := by
  obtain ⟨sr, pc, -, -, -, rfl⟩ := returnFromInterrupt_eq_next.1 h
  have hsr := (OnlyRegsChange.refl [0, 1, 2] s).setReg (r := 2) (by simp) sr
  exact (hsr.setReg (r := 0) (by simp) pc).setReg (r := 1) (by simp) (s.sp + 4)

/-- Settles O51: each of the three is writes of its registers, one after the other. -/
theorem popEintRetiFrame : Obligations.PopEintRetiFrame := by
  refine fun s t => ⟨fun d h => ?_, fun h => ?_, fun h => ?_⟩
  · obtain ⟨hregs, hstored, hhidden⟩ := exec_pop_onlyRegsChange h
    exact ⟨fun r h0 h1 hd => hregs r (by simp [h0, h1, hd]), hstored, hhidden⟩
  · obtain ⟨hregs, hstored, hhidden⟩ := exec_eint_onlyRegsChange h
    exact ⟨fun r h0 h2 => hregs r (by simp [h0, h2]), hstored, hhidden⟩
  · obtain ⟨hregs, hstored, hhidden⟩ := exec_reti_onlyRegsChange h
    exact ⟨fun r h0 h1 h2 => hregs r (by simp [h0, h1, h2]), hstored, hhidden⟩

end Sys2Proof.Machine

/-! # Instructions: what they place, what they leave, and the forms refused (R75, R95 to R103, R105, R112, R128) -/

namespace Sys2Proof.Machine

variable {s t u s1 : State} {rest : List Turn} {i : Instr} {w : Width} {src : Src} {dst : Dst} {d : Reg} {l : Loc}
  {v a : Word}

/-! ### What a store places (R13, R25, R68, R75, R112) -/

theorem writeLoc_completes (w : Width) (l : Loc) (v : Word) (s : State) :
    (∃ t, writeLoc w l v s = .next t) ↔ locWritable w l v s = true := by
  cases l with
  | reg r => simp [writeLoc, locWritable, writeReg_eq_next, imp_iff_not_or]
  | mem a => exact writeMem_completes w a v s

theorem writeWdtctl_of_wrongKey (h : hiByte v ≠ s.platform.wdtKey) :
    writeWdtctl v s = resetTransition .keyViolation s := by
  simp [writeWdtctl, wrongKey, h]

/-- With the right password the low byte is stored, unless the pin is low and becomes a reset input. -/
theorem writeWdtctl_of_rightKey (h : hiByte v = s.platform.wdtKey) (hp : selectsLowResetPin v s = false) :
    writeWdtctl v s = .next (storeWdtctl (loByte v) s) := by
  simp [writeWdtctl, wrongKey, h, hp]

/-- A write of WDTCTL that ends in a reset leaves WDTCTL and SR clear, and PC from the reset vector. -/
theorem writeWdtctl_of_reset (hr : writeCausesReset wdtctlAddress v s = true) (h : writeWdtctl v s = .next t) :
    t.wdtctl = 0 ∧ t.sr = 0 ∧ readWord resetVector s = .next t.pc := by
  by_cases hk : hiByte v = s.platform.wdtKey
  · have hp : selectsLowResetPin v s = true := by simpa [writeCausesReset, wrongKey, hk] using hr
    have he : writeWdtctl v s = resetTransition .rstPin (storeWdtctl (loByte v) s) := by
      simp [writeWdtctl, wrongKey, hk, hp]
    obtain ⟨y, hy, rfl⟩ := resetTransition_eq_next.1 (he.symm.trans h)
    refine ⟨rfl, rfl, ?_⟩
    rw [storeWdtctl_eq] at hy
    rwa [readWord_resetVector_congr rfl fun _ _ => rfl] at hy
  · obtain ⟨y, hy, rfl⟩ := resetTransition_eq_next.1 ((writeWdtctl_of_wrongKey hk).symm.trans h)
    exact ⟨rfl, rfl, hy⟩

theorem writeWdtctl_placed (h : writeWdtctl v s = .next t) : placed w (.mem wdtctlAddress) v s t := by
  have hk : kindOf s.platform wdtctlAddress.toNat = .peripheral16 := kindOf_wdtctl s.platform
  simp only [placed, hk]
  split
  · rename_i hr
    exact writeWdtctl_of_reset hr h
  · rename_i hr
    obtain ⟨hkey, hpin⟩ : hiByte v = s.platform.wdtKey ∧ selectsLowResetPin v s = false := by
      simpa [writeCausesReset, wrongKey] using hr
    rw [writeWdtctl_of_rightKey hkey hpin] at h
    cases h
    rw [storeWdtctl_eq]

/-- WDTCTL takes no bytes (R35). -/
theorem writeMem_wdtctl (h : writeMem w wdtctlAddress v s = .next t) : w = .word ∧ writeWdtctl v s = .next t := by
  cases w with
  | word => exact ⟨rfl, (writeWord_wdtctl v s).symm.trans h⟩
  | byte => cases (writeByte_wdtctl (b := loByte v) (s := s) (.inl rfl)).symm.trans h

/-- A byte register is a special function register or one of a byte peripheral. -/
theorem kindOf_of_registerAt {r : ByteRegister} (h : registerAt a s = some r) :
    kindOf s.platform a.toNat = .sfr ∨ kindOf s.platform a.toNat = .peripheral8 := by
  unfold registerAt at h
  cases hk : kindOf s.platform a.toNat <;> simp [hk] at h ⊢

/-- What a completed store has written is there. -/
theorem placed_of_writeLoc (h : writeLoc w l v s = .next t) : placed w l v s t := by
  cases l with
  | reg r =>
    obtain ⟨-, rfl⟩ := writeReg_eq_next.1 h
    exact readReg_setReg_same s _
  | mem a =>
    by_cases ha : a = wdtctlAddress
    · subst ha
      exact writeWdtctl_placed (writeMem_wdtctl h).2
    · rcases (writeMem_eq_next ha).1 h with ⟨rfl, ho, hk, rfl⟩ | ⟨rfl, hk, rfl⟩ | ⟨rfl, r, hr, -, rfl⟩
      · simp only [placed, (wordInRam_iff.1 hk).1, readMem, readWord_setMem_write ho hk, Result.bind_next]
        rfl
      · have hb := readByte_of_ram (s := s.setMem (s.mem.write a.toNat (loByte v))) hk (Memory.read_write_same _ _ _)
        simp only [placed, hk, readMem, hb, Result.bind_next, loByte_zeroExtend, narrow]
      · have hreg : ∃ r', registerAt a s = some r' ∧ (r'.isInput = false →
            r'.get (r.set (loByte v &&& definedBits s.platform.device r) s) =
              loByte v &&& definedBits s.platform.device r') :=
          ⟨r, hr, ByteRegister.get_set_same s r _⟩
        rcases kindOf_of_registerAt hr with hk | hk <;> simpa only [placed, hk] using hreg

/-! ### MOV, BIC and BIS place their result (R96 to R98) -/

section Resolved

variable (ha : formatIAdmitted w src dst = true) (hs : resolveSource w src s.advance = .next (v, s1))
include ha hs

theorem exec_mov_of_source : exec (.mov w src dst) s = storeTo w dst v s1 := by
  simp only [exec, execMov, ha, if_true, hs, Result.bind_next]

theorem exec_bic_of_source : exec (.bic w src dst) s = modify w dst (fun d => d &&& ~~~v) s1 := by
  simp only [exec, execBic, ha, if_true, hs, Result.bind_next]

theorem exec_bis_of_source : exec (.bis w src dst) s = modify w dst (fun d => d ||| v) s1 := by
  simp only [exec, execBis, ha, if_true, hs, Result.bind_next]

end Resolved

theorem exists_resolved (h : sourceReadable w src s = true) : ∃ v s1, resolveSource w src s = .next (v, s1) := by
  obtain ⟨⟨v, s1⟩, hs⟩ := (resolveSource_completes w src s).2 h
  exact ⟨v, s1, hs⟩

theorem storeTo_places (h : locWritable w (resolveDest dst s).1 v (resolveDest dst s).2 = true) :
    ∃ t, storeTo w dst v s = .next t ∧ placed w (resolveDest dst s).1 v (resolveDest dst s).2 t := by
  obtain ⟨t, ht⟩ := (writeLoc_completes ..).2 h
  exact ⟨t, ht, placed_of_writeLoc ht⟩

/-- A destination that is read, combined and written back holds the result, if it can be read and takes it. -/
theorem modify_places (f : Word → Word) (h : locReadable w (resolveDest dst s).1 (resolveDest dst s).2 = true) :
    ∃ d s2, readLoc w (resolveDest dst s).1 (resolveDest dst s).2 = .next (d, s2) ∧
      (locWritable w (resolveDest dst s).1 (f d) s2 = true →
        ∃ t, modify w dst f s = .next t ∧ placed w (resolveDest dst s).1 (f d) s2 t) := by
  obtain ⟨⟨d, s2⟩, hd⟩ := (readLoc_completes ..).2 h
  refine ⟨d, s2, hd, fun hw => ?_⟩
  obtain ⟨t, ht⟩ := (writeLoc_completes ..).2 hw
  exact ⟨t, by rw [modify, hd]; exact ht, placed_of_writeLoc ht⟩

/-- Settles O38: the source resolves, and the destination is stored to. -/
theorem movPlacesTheSource : Obligations.MovPlacesTheSource := by
  intro w src dst s ha hr
  obtain ⟨v, s1, hs⟩ := exists_resolved hr
  exact ⟨v, s1, hs, fun hw => exec_mov_of_source ha hs ▸ storeTo_places hw⟩

/-- Settles O39: the source resolves, and the destination is modified with it. -/
theorem bicPlacesDestinationAndNotSource : Obligations.BicPlacesDestinationAndNotSource := by
  intro w src dst s ha hr
  obtain ⟨v, s1, hs⟩ := exists_resolved hr
  exact ⟨v, s1, hs, fun hl => exec_bic_of_source ha hs ▸ modify_places (fun d => d &&& ~~~v) hl⟩

/-- Settles O40: the source resolves, and the destination is modified with it. -/
theorem bisPlacesDestinationOrSource : Obligations.BisPlacesDestinationOrSource := by
  intro w src dst s ha hr
  obtain ⟨v, s1, hs⟩ := exists_resolved hr
  exact ⟨v, s1, hs, fun hl => exec_bis_of_source ha hs ▸ modify_places (fun d => d ||| v) hl⟩

/-! ### MOV to WDTCTL (R96, R112) -/

/-- A write that keeps NMIES changes WDTCTL alone (R120). -/
theorem storeWdtctl_of_same_edge {b : Byte} (h : nmiesBit b = nmiesBit s.wdtctl) :
    storeWdtctl b s = s.setWdtctl (b &&& wdtctlStored) := by
  simp [storeWdtctl, changesEdgeInNmiMode, h]

theorem exec_mov_imm_wdtctl (v : Word) (s : State) :
    exec (.mov .word (.imm v) (.absolute wdtctlAddress)) s = writeWdtctl v (s.setPc (s.pc + 6)) := by
  have hpc : s.pc + 2 + 2 + 2 = s.pc + 6 := by bv_omega
  have hadv : s.advance.advance.advance = s.setPc (s.pc + 6) := hpc ▸ rfl
  rw [exec_mov_of_source rfl rfl, ← hadv]
  exact writeWord_wdtctl v _

/-- Settles O28: MOV with both extension words behind it is the write of WDTCTL. -/
theorem movToWdtctlStoresOrResets : Obligations.MovToWdtctlStoresOrResets := by
  intro v s
  rw [exec_mov_imm_wdtctl]
  refine ⟨fun hk he hp => ?_, fun hk hr => ?_⟩
  · have hedge : nmiesBit (loByte v) = nmiesBit s.wdtctl := by simpa [nmiesBit, loByte] using he
    have hpin : selectsLowResetPin v (s.setPc (s.pc + 6)) = false := by simp [selectsLowResetPin, hp]
    have hw := writeWdtctl_of_rightKey (s := s.setPc (s.pc + 6)) hk hpin
    rwa [storeWdtctl_of_same_edge (s := s.setPc (s.pc + 6)) hedge] at hw
  · obtain ⟨y, hy⟩ := (readWord_completes _ s).2 hr
    have hy' : readWord resetVector (s.setPc (s.pc + 6)) = .next y := (readWord_congr rfl rfl rfl).trans hy
    rw [writeWdtctl_of_wrongKey (s := s.setPc (s.pc + 6)) hk]
    exact ⟨_, resetTransition_eq_next.2 ⟨y, hy', rfl⟩, hy, rfl, rfl, rfl⟩

/-! ### PUSH and POP (R99, R100) -/

theorem Result.bind_pure {α : Type} (x : Result α) : x.bind .next = x := by cases x <;> rfl

/-- A push is a word write at the new SP, whether or not it resets the machine. -/
theorem pushWord_eq (v : Word) (s : State) : pushWord v s = writeWord (s.sp - 2) v (s.setSp (s.sp - 2)) := by
  rw [pushWord, pushThen]
  split
  · rfl
  · exact Result.bind_pure _

theorem exec_push_of_source (ha : pushAdmitted src = true)
    (hs : resolveSource .word src s.advance = .next (v, s1)) :
    exec (.push src) s = writeWord (s1.sp - 2) v (s1.setSp (s1.sp - 2)) := by
  simp only [exec, execPush, ha, if_true, hs, Result.bind_next, pushWord_eq]

/-- Settles O42: the operand resolves with SP as it was, and the push is a word write below it. -/
theorem pushStoresBelowSp : Obligations.PushStoresBelowSp := by
  intro src s ha hr
  obtain ⟨v, s1, hs⟩ := exists_resolved hr
  have hsp := resolveSource_sp ha hs
  refine ⟨v, s1, hs, hsp, fun hw => ?_⟩
  obtain ⟨t, ht⟩ := (writeWord_completes _ _ _).2 hw
  refine ⟨t, ?_, placed_of_writeLoc (w := .word) (l := .mem _) ht, fun hk => ?_⟩
  · rw [exec_push_of_source ha hs, hsp, ht]
  · have hne : s.sp - 2 ≠ wdtctlAddress := fun e => by
      rw [e] at hk
      cases hk.symm.trans (kindOf_wdtctl _)
    obtain ⟨ho, hram, rfl⟩ := (writeWord_eq_next.1 ht).resolve_right fun h => hne h.1
    exact ⟨rfl, readWord_setMem_write ho hram⟩

/-- Settles O43: the word at SP is written to a register other than SP. -/
theorem popLoadsFromSp : Obligations.PopLoadsFromSp := by
  intro d s hd hr hsr
  obtain ⟨v, hv⟩ := (readWord_completes _ s).2 hr
  have hw : writeReg d v (s.advance.setSp (s.sp + 2)) = .next (setReg d v (s.advance.setSp (s.sp + 2))) :=
    writeReg_eq_next.2 ⟨fun h => by simp [hsr v hv h.1] at h, rfl⟩
  exact ⟨v, _, hv, exec_pop_eq_next.2 ⟨hd, v, hv, hw⟩, readReg_setReg_same _ v,
    readReg_setReg_other (x := 1) _ v hd.symm⟩

/-! ### SR and PC as destinations (R25, R101 to R103) -/

theorem writeReg_sr_of_reserved (h : hasReservedSrBit v = true) (s : State) :
    writeReg 2 v s = .refused .reservedSrBit := if_pos ⟨rfl, h⟩

theorem writeReg_sr_of_not_reserved (h : hasReservedSrBit v = false) (s : State) :
    writeReg 2 v s = .next (s.setSr v) := writeReg_eq_next.2 ⟨by simp [h], rfl⟩

theorem hasReservedSrBit_enableInterrupts (sr : Word) :
    hasReservedSrBit (enableInterrupts sr) = hasReservedSrBit sr := by
  have h : enableInterrupts sr &&& reservedSrBits = sr &&& reservedSrBits := by
    rw [enableInterrupts, BitVec.and_or_distrib_right]
    exact BitVec.or_zero
  rw [hasReservedSrBit, h, hasReservedSrBit]

/-- Settles O44: GIE is no reserved bit, so SR takes the result. -/
theorem eintSetsGie : Obligations.EintSetsGie := by
  intro s h
  have hr : hasReservedSrBit (enableInterrupts s.sr) = false := by rw [hasReservedSrBit_enableInterrupts, h]
  refine ⟨writeReg_sr_of_not_reserved hr s.advance, ?_⟩
  rw [gieBit, BitVec.getLsbD_or]
  exact Bool.or_true _

/-- With a register as the destination the result is written to it, at the width of the operation. -/
theorem exec_eq_writeReg (ha : formatIAdmitted w src (.reg d) = true)
    (hs : resolveSource w src s.advance = .next (v, s1)) :
    exec (.mov w src (.reg d)) s = writeReg d v s1 ∧
    exec (.bic w src (.reg d)) s = writeReg d (narrow w (readReg d s1) &&& ~~~v) s1 ∧
    exec (.bis w src (.reg d)) s = writeReg d (narrow w (readReg d s1) ||| v) s1 := by
  have hv := resolveSource_width hs
  have hr := narrow_narrow w (readReg d s1)
  rw [exec_mov_of_source ha hs, exec_bic_of_source ha hs, exec_bis_of_source ha hs]
  simp only [storeTo, modify, resolveDest, readLoc, writeLoc, Result.bind_next, hv, narrow_and_of_narrow hr,
    narrow_or_of_narrow hr hv, and_self]

/-- V is above the byte. -/
theorem overflowBit_of_narrow_byte (h : narrow .byte v = v) : overflowBit v = false := by
  rw [← h, narrow, overflowBit, BitVec.getLsbD_and]
  exact Bool.and_false _

/-- `@Rn+` is the source form that increments. -/
theorem eq_indirectInc_of_increments (h : src.increments? = some d) : src = .indirectInc d := by
  cases src with
  | indirectInc r =>
    cases h
    rfl
  | reg _ | indexed _ _ | symbolic _ | absolute _ | indirect _ | imm _ | const _ => cases h

/-- A source operand leaves SR: `@SR+` is a constant (R76). -/
theorem resolveSource_sr (he : src.exists = true) (hs : resolveSource w src s = .next (v, s1)) : s1.sr = s.sr :=
  resolveSource_readReg_other (r := 2) hs (by decide) fun hi =>
    ne_sr_of_indirectInc_exists (eq_indirectInc_of_increments hi ▸ he) rfl

/-- Settles O46: the result has the width of the operation, and SR takes it unless a bit is reserved. -/
theorem srDestinationTakesTheWholeResult : Obligations.SrDestinationTakesTheWholeResult := by
  intro w src s s1 v ha hs
  obtain ⟨hmov, hbic, hbis⟩ := exec_eq_writeReg ha hs
  have hsr : s1.sr = s.sr := resolveSource_sr (s := s.advance) (exists_of_formatIAdmitted ha) hs
  have hv := resolveSource_width hs
  have hn := narrow_narrow w s.sr
  rw [readReg_sr, hsr] at hbic hbis
  rw [hmov, hbic, hbis]
  refine ⟨(writeReg_sr_of_reserved · s1), (writeReg_sr_of_not_reserved · s1), (writeReg_sr_of_reserved · s1),
    (writeReg_sr_of_not_reserved · s1), (writeReg_sr_of_reserved · s1), (writeReg_sr_of_not_reserved · s1), ?_⟩
  rintro rfl
  exact ⟨overflowBit_of_narrow_byte hv, overflowBit_of_narrow_byte (narrow_and_of_narrow hn _),
    overflowBit_of_narrow_byte (narrow_or_of_narrow hn hv)⟩

/-- Settles O47: after the source operand PC is past every word, as a register destination has none. -/
theorem pcDestinationBranches : Obligations.PcDestinationBranches := by
  intro src s s1 v ha hs
  obtain ⟨hmov, hbic, hbis⟩ := exec_to_register ha (by decide) hs
  have hpc : s1.pc = s.pc + 2 * BitVec.ofNat 16 (src.fields.2.2.length + 1) := by
    simpa [resolveSource_pc (exists_of_formatIAdmitted ha) hs] using pc_past_words s.pc src.fields.2.2.length 0
  have hlen (o : Nat) : (encodeFormatI o .word src (.reg 0)).length = src.fields.2.2.length + 1 := by
    simp [encodeFormatI, Dst.fields]
  refine ⟨hmov, ?_, ?_⟩
  · rw [hbic, encode, hlen, ← hpc]
    rfl
  · rw [hbis, encode, hlen, ← hpc]
    rfl

/-! ### The frame of MOV, BIC, BIS and PUSH (R95 to R99) -/

/-- Only PC, the register of `@Rn+` and the count of draws differ: what the operands of an instruction change. -/
structure OperandsResolved (w : Width) (src : Src) (s u : State) : Prop where
  regs       : ∀ r, r ≠ 0 → src.increments? ≠ some r → readReg r u = readReg r s
  increments : ∀ r, src.increments? = some r → readReg r u = readReg r s + incrementOf w r
  stored     : ∀ b, storedByte b u = storedByte b s
  hidden     : sameHidden s u

theorem sameHidden.trans (h : sameHidden s t) (h' : sameHidden t u) : sameHidden s u := by
  obtain ⟨hp, hm, hpin, hh, hg, hs⟩ := h
  obtain ⟨hp', hm', hpin', hh', hg', hs'⟩ := h'
  exact ⟨hp'.trans hp, hm'.trans hm, hpin'.trans hpin, hh'.trans hh, hg'.trans hg, hs'.trans hs⟩

/-- `@PC+` is an immediate (R74). -/
theorem increments_ne_pc (he : src.exists = true) : src.increments? ≠ some 0 := by
  intro hi
  rw [eq_indirectInc_of_increments hi] at he
  cases he

theorem OperandsResolved.of_source (he : src.exists = true) (hs : resolveSource w src s.advance = .next (v, s1)) :
    OperandsResolved w src s s1 where
  regs _ h0 hr := (resolveSource_readReg_other hs h0 hr).trans (readReg_advance h0)
  increments r hr := by
    have h0 : r ≠ 0 := fun e => increments_ne_pc he (e ▸ hr)
    rw [resolveSource_readReg_increments he hs hr, readReg_advance h0]
  stored b := (resolveSource_storedByte hs b).trans (storedByte_advance b)
  hidden := resolveSource_sameHidden (s := s.advance) hs

theorem OperandsResolved.setDraws (h : OperandsResolved w src s u) (n : Nat) :
    OperandsResolved w src s (u.setDraws n) where
  regs := h.regs
  increments := h.increments
  stored b := (storedByte_setDraws n u b).trans (h.stored b)
  hidden := h.hidden

theorem OperandsResolved.dest (h : OperandsResolved w src s u) (he : src.exists = true) (dst : Dst) :
    OperandsResolved w src s (resolveDest dst u).2 := by
  rcases resolveDest_state dst u with e | e <;> rw [e]
  · exact h
  · exact ⟨fun r h0 hr => (readReg_advance h0).trans (h.regs r h0 hr),
      fun r hr => (readReg_advance fun e => increments_ne_pc he (e ▸ hr)).trans (h.increments r hr),
      fun b => (storedByte_advance b).trans (h.stored b), h.hidden⟩

/-- The register of `@Rn+` is not one that the destination names (R105). -/
theorem increments_ne_dest (ha : formatIAdmitted w src dst = true) (hd : dst.register? = some d) :
    src.increments? ≠ some d := by
  intro hi
  simp [formatIAdmitted, incrementsDestination, hi, hd] at ha

/-- Settles O48: after the operands, one register is written. -/
theorem registerDestinationFrame : Obligations.RegisterDestinationFrame := by
  intro i w src d s t hi h
  obtain ⟨ha, v, s1, x, n, hs, hw⟩ := exec_formatI_cases hi h
  obtain ⟨-, rfl⟩ := writeReg_eq_next.1 hw
  obtain ⟨hregs, hinc, hstored, hhidden⟩ :=
    (OperandsResolved.of_source (exists_of_formatIAdmitted ha) hs).setDraws n
  refine ⟨fun r h0 hd hr => ?_, fun r hr => ?_, fun b => ?_, ?_⟩
  · exact (readReg_setReg_other _ _ hd).trans (hregs r h0 hr)
  · have hd : r ≠ d := fun e => increments_ne_dest ha rfl (e ▸ hr)
    exact (readReg_setReg_other _ _ hd).trans (hinc r hr)
  · exact (storedByte_setReg _ _ _ b).trans (hstored b)
  · exact hhidden.trans (by simp [sameHidden, resolveDest])

/-- Reading a word draws nothing. -/
theorem readLoc_word_state (h : readLoc .word l s = .next (v, t)) : t = s := by
  cases l with
  | reg r =>
    cases h
    rfl
  | mem a =>
    obtain ⟨_, -, he⟩ := Result.bind_eq_next.1 h
    cases he
    rfl

/-- A completed MOV, BIC or BIS writes its destination after at most one draw, and after none if it moves a word. -/
theorem exec_formatI_writes (hi : i = .mov w src dst ∨ i = .bic w src dst ∨ i = .bis w src dst)
    (h : exec i s = .next t) (hs : resolveSource w src s.advance = .next (v, s1)) :
    ∃ x n, writeLoc w (resolveDest dst s1).1 x ((resolveDest dst s1).2.setDraws n) = .next t ∧
      (w = .word → writeLoc w (resolveDest dst s1).1 x (resolveDest dst s1).2 = .next t) := by
  have ha : formatIAdmitted w src dst = true := (exec_formatI_cases hi h).1
  have hmodify (f : Word → Word) (h : modify w dst f s1 = .next t) :
      ∃ x n, writeLoc w (resolveDest dst s1).1 x ((resolveDest dst s1).2.setDraws n) = .next t ∧
        (w = .word → writeLoc w (resolveDest dst s1).1 x (resolveDest dst s1).2 = .next t) := by
    obtain ⟨⟨d, u⟩, hd, hw⟩ := Result.bind_eq_next.1 h
    obtain ⟨⟨n, rfl⟩, -⟩ := readLoc_spec hd
    refine ⟨f d, n, hw, ?_⟩
    rintro rfl
    exact readLoc_word_state hd ▸ hw
  rcases hi with rfl | rfl | rfl
  · rw [exec_mov_of_source ha hs] at h
    exact ⟨v, (resolveDest dst s1).2.draws, h, fun _ => h⟩
  · exact hmodify _ (exec_bic_of_source ha hs ▸ h)
  · exact hmodify _ (exec_bis_of_source ha hs ▸ h)

/-- Settles O49: after the operands, one store is made, at the address of the destination. -/
theorem memoryDestinationFrame : Obligations.MemoryDestinationFrame := by
  intro i w src dst s s1 t v a hi h hs hl
  have he := exists_of_formatIAdmitted (exec_formatI_cases hi h).1
  obtain ⟨x, n, hw, hword⟩ := exec_formatI_writes hi h hs
  rw [hl] at hw hword
  refine ⟨fun ha => ?_, ?_⟩
  · obtain ⟨hregs, hinc, hstored, hhidden⟩ := ((OperandsResolved.of_source he hs).dest he dst).setDraws n
    obtain ⟨hother, hreg, hsame⟩ := storeLeavesEveryOtherByte w a x _ t ha hw
    exact ⟨fun r h0 hr => (hreg r).trans (hregs r h0 hr), fun r hr => (hreg r).trans (hinc r hr),
      fun b hb => (hother b hb).trans (hstored b), hhidden.trans hsame⟩
  · rintro rfl
    have hww := (writeMem_wdtctl hw).1
    exact ⟨hww, x, (writeMem_wdtctl (hword hww)).2⟩

/-- No admitted PUSH increments SP (R105). -/
theorem increments_ne_sp (ha : pushAdmitted src = true) : src.increments? ≠ some 1 := by
  intro hi
  rw [eq_indirectInc_of_increments hi] at ha
  cases ha

/-- Settles O50: after the operand, SP goes down by 2 and one word is stored there. -/
theorem pushFrame : Obligations.PushFrame := by
  intro src s s1 t v h hs
  have ha := (exec_push_eq_next.1 h).1
  have he := exists_of_pushAdmitted ha
  rw [exec_push_of_source ha hs] at h
  refine ⟨fun hne => ?_, fun heq => ?_⟩
  · obtain ⟨hregs, hinc, hstored, hhidden⟩ := OperandsResolved.of_source he hs
    obtain ⟨hother, hreg, hsame⟩ := storeLeavesEveryOtherByte .word (s1.sp - 2) v _ t hne h
    have hset {r : Reg} (h1 : r ≠ 1) : readReg r t = readReg r s1 := (hreg r).trans (readReg_setReg_other s1 _ h1)
    refine ⟨?_, fun r h0 h1 hr => (hset h1).trans (hregs r h0 hr), fun r hr => ?_, fun b hb => ?_,
      hhidden.trans hsame⟩
    · exact (hreg 1).trans (congrArg (· - 2) (resolveSource_sp ha hs))
    · have h1 : r ≠ 1 := fun e => increments_ne_sp ha (e ▸ hr)
      rw [hset h1, hinc r hr, incrementOf_eq, if_pos (.inr rfl)]
    · rw [hother b hb, storedByte_setSp, hstored]
  · rwa [heq, writeWord_wdtctl, ← heq] at h

/-! ### The latitude after a change of GIE (R128, D10; entry 18) -/

theorem acceptedSource_of_nmi (deferred : Bool) (h : requests .nmi s = true) :
    acceptedSource deferred s = some .nmi := by
  simp [acceptedSource, sources, h, Source.isMaskable]

/-- While maskable requests wait, one that would be served means that none is. -/
theorem acceptedSource_deferred {source : Source} (h : acceptedSource false s = some source) (hne : source ≠ .nmi) :
    acceptedSource true s = none := by
  have hnmi : requests .nmi s = false := by
    by_contra hr
    rw [acceptedSource_of_nmi false (by simpa using hr)] at h
    exact hne (Option.some.inj h).symm
  rw [acceptedSource, List.find?_eq_none]
  intro x _
  cases x with
  | nmi => simp [hnmi]
  | row n => simp [Source.isMaskable]

theorem cpuStep_of_accepted {source : Source} (hh : s.hold = none)
    (h : acceptedSource (defersMaskable s) s = some source) :
    cpuStep s = interruptSequence source (passBoundary s) := by
  simp only [cpuStep, hh, h]

theorem cpuStep_of_none (hh : s.hold = none) (h : acceptedSource (defersMaskable s) s = none) :
    cpuStep s = if cpuOffBit s.sr then .next (passBoundary s) else executeNext (passBoundary s) := by
  simp only [cpuStep, hh, h]

/-- A CPU that is not held serves what is accepted. -/
theorem step_of_accepted {source : Source} (hc : cpuMoves s rest) (hh : s.hold = none)
    (h : acceptedSource (defersMaskable s) s = some source) : step s = interruptSequence source (atBoundary rest s) :=
  (step_of_cpuMoves hc).trans (cpuStep_of_accepted (s := s.setSchedule rest) hh h)

/-- With nothing accepted a CPU that is not held is stopped, or runs its next instruction. -/
theorem step_of_none_accepted (hc : cpuMoves s rest) (hh : s.hold = none)
    (h : acceptedSource (defersMaskable s) s = none) :
    step s = if cpuOffBit s.sr then .next (atBoundary rest s) else executeNext (atBoundary rest s) :=
  (step_of_cpuMoves hc).trans (cpuStep_of_none (s := s.setSchedule rest) hh h)

/-- An instruction that starts with GIE set leaves no latitude. -/
theorem gieFresh_of_executeNext (h : executeNext s = .next t) (hg : gieBit s.sr = true) : t.gieFresh = false := by
  obtain ⟨i, u, -, -, rfl⟩ := executeNext_cases h
  simp [markGie, hg]

/-- Settles O10: the free bit decides whether maskable requests wait, and past the boundary they wait no more. -/
theorem newGieMayTakeOneInstruction : Obligations.NewGieMayTakeOneInstruction := by
  intro s rest src hc hh hf hacc hne
  have hdefer : defersMaskable s = Config.freeBit s.draws := by rw [defersMaskable, hf, Bool.true_and]
  have hwait (hb : Config.freeBit s.draws = true) : step s =
      if cpuOffBit s.sr then .next (atBoundary rest s) else executeNext (atBoundary rest s) :=
    step_of_none_accepted hc hh (by rw [hdefer, hb, acceptedSource_deferred hacc hne])
  have hs' : atBoundary rest s = { s with schedule := rest, gieFresh := false, draws := s.draws + 1 } := by
    rw [atBoundary_eq, hf, if_pos rfl]
  refine ⟨atBoundary rest s, hs', fun hb => ?_, fun hb hoff => ?_, fun t ht hg => ?_, fun hb hoff => ⟨?_, ?_⟩⟩
  · exact step_of_accepted hc hh (by rw [hdefer, hb, hacc])
  · rw [hwait hb, hoff, if_neg Bool.false_ne_true]
  · exact gieFresh_of_executeNext ht (by rwa [hs'])
  · rw [hwait hb, hoff, if_pos rfl]
  · rw [hs']
    exact fun rest' hc' => step_of_accepted hc' hh hacc

end Sys2Proof.Machine

/-! ### Operand forms that are refused (R75, R105) -/

namespace Sys2Proof

variable {w : Word}

/-- With a word to take, every source operand decodes. -/
theorem decodeSource_of_cons (as : Nat) (r : Reg) (x : Word) (ws : List Word) :
    ∃ src l, decodeSource as r (x :: ws) = .ok (src, l) := by
  unfold decodeSource
  split <;> (repeat' split) <;> exact ⟨_, _, rfl⟩

/-- Indexed mode with R3 is no destination (R75, R105 item 6). -/
theorem decodeFormatI_indexed_r3 (mk : Width → Src → Dst → Instr) (had : bitField w 7 1 = 1) (hr : regField w 0 = 3)
    (x : Word) (ws : List Word) : decodeFormatI mk w (x :: ws) = .error .operandFormNotAdmitted := by
  obtain ⟨src, l, hs⟩ := decodeSource_of_cons (bitField w 4 2) (regField w 8) x ws
  rw [decodeFormatI, hs, had, hr]
  rfl

/-- With `Ad` set, a word of the bit patterns of MOV, BIC and BIS lies in the row of one of them. -/
theorem lookupOpcode_of_ad (hop : w.toNat / 0x1000 = 0x4 ∨ w.toNat / 0x1000 = 0xC ∨ w.toNat / 0x1000 = 0xD)
    (had : bitField w 7 1 = 1) :
    lookupOpcode w = some .mov ∨ lookupOpcode w = some .bic ∨ lookupOpcode w = some .bis := by
  unfold bitField at had
  rw [lookupOpcode_eq, if_neg (by omega), if_neg (by omega), if_neg (by omega), if_neg (by omega)]
  rcases hop with h | h | h <;> simp [h]

theorem decode_indexed_r3 (hop : w.toNat / 0x1000 = 0x4 ∨ w.toNat / 0x1000 = 0xC ∨ w.toNat / 0x1000 = 0xD)
    (had : w.getLsbD 7 = true) (hr : w.toNat % 0x10 = 3) (x : Word) (ws : List Word) :
    decode (w :: x :: ws) = .error .operandFormNotAdmitted := by
  have had' : bitField w 7 1 = 1 := by
    rw [BitVec.getLsbD, Nat.testBit_eq_decide_div_mod_eq] at had
    exact of_decide_eq_true had
  have hr' : regField w 0 = 3 := Fin.ext (by rw [regField_val]; simpa [bitField] using hr)
  have hf (mk) := decodeFormatI_indexed_r3 mk had' hr' x ws
  rcases lookupOpcode_of_ad hop had' with h | h | h <;> simp only [decode, h, hf]

end Sys2Proof

namespace Sys2Proof.Machine

variable {w : Width} {src : Src} {dst : Dst} {r : Reg}

theorem exec_formatI_refused (h : formatIAdmitted w src dst = false) (s : State) :
    exec (.mov w src dst) s = .refused .operandFormNotAdmitted ∧
    exec (.bic w src dst) s = .refused .operandFormNotAdmitted ∧
    exec (.bis w src dst) s = .refused .operandFormNotAdmitted := by
  simp [exec, execMov, execBic, execBis, h]

theorem exec_push_refused (h : pushAdmitted src = false) (s : State) :
    exec (.push src) s = .refused .operandFormNotAdmitted := by
  simp [exec, execPush, h]

theorem not_formatIAdmitted_of_increment (h : dst.register? = some r) :
    formatIAdmitted w (.indirectInc r) dst = false := by
  simp [formatIAdmitted, incrementsDestination, Src.increments?, h]

theorem not_formatIAdmitted_indirect_pc (w : Width) (dst : Dst) : formatIAdmitted w (.indirect 0) dst = false := by
  simp [formatIAdmitted, Src.isIndirectPc]

theorem not_formatIAdmitted_byte_to_pc (src : Src) : formatIAdmitted .byte src (.reg 0) = false := by
  simp [formatIAdmitted, byteToPc]

/-- Settles O5: two items by the decoder, the others because no form of theirs is admitted. -/
theorem operandFormsNotAdmittedAreRefused : Obligations.OperandFormsNotAdmittedAreRefused := by
  refine ⟨fun w ws h => ?_, fun src s h => exec_push_refused (by simp [pushAdmitted, h]) s,
    fun w r dst s h => exec_formatI_refused (not_formatIAdmitted_of_increment h) s, fun s => rfl,
    fun w dst s => ?_, fun src s => exec_formatI_refused (not_formatIAdmitted_byte_to_pc src) s,
    fun w x ws hop had hr => decode_indexed_r3 hop had hr x ws⟩
  · rw [decode_of_lookupOpcode_none (lookupOpcode_eq_none (by omega) (by omega) (by omega) (by omega) (by omega)),
      if_pos h]
  · obtain ⟨hmov, hbic, hbis⟩ := exec_formatI_refused (not_formatIAdmitted_indirect_pc w dst) s
    exact ⟨hmov, hbic, hbis, exec_push_refused rfl s⟩

end Sys2Proof.Machine

/-! # Requests, their priority, and the mode of SR (R115 to R117, R123 to R127, R153, R158) -/

namespace Sys2Proof.Machine

variable {s t : State} {src : Source} {n : Row} {name : SourceName} {f : FlagBit} {e : EnableBit} {kind : FlagKind}

/-! ### The source that is accepted (R127, R128) -/

theorem mem_sources (src : Source) : src ∈ sources := by
  cases src with
  | nmi => decide
  | row n => revert n; decide

/-- The list of sources is in decreasing priority. -/
theorem sources_pairwise_priority : sources.Pairwise fun src other => priority other < priority src := by decide

/-- What is accepted requests, and does not wait. -/
theorem requests_of_acceptedSource {deferred : Bool} (h : acceptedSource deferred s = some src) :
    requests src s = true ∧ (deferred = true → src = .nmi) := by
  have hp := List.find?_some h
  cases deferred with
  | false => exact ⟨by simpa using hp, nofun⟩
  | true => simpa [Source.isMaskable] using hp

/-- A maskable source requests only while GIE is set (R115). -/
theorem eq_nmi_of_requests (h : requests src s = true) (hg : gieBit s.sr = false) : src = .nmi := by
  cases src with
  | nmi => rfl
  | row n => simp [requests_row, hg] at h

/-- Settles O11: what is accepted requests, and the NMI vector is looked at first. -/
theorem gieGatesMaskableSourcesOnly : Obligations.GieGatesMaskableSourcesOnly := by
  refine ⟨fun deferred s src hg h => ?_, fun deferred s h => acceptedSource_of_nmi deferred ?_⟩
  · obtain ⟨hr, -⟩ := requests_of_acceptedSource h
    exact eq_nmi_of_requests hr hg
  · rw [requests_nmi, h, Bool.true_or]

/-- Settles O12: the sources before the served one do not request, and those after it have a lower priority. -/
theorem highestPriorityIsServed : Obligations.HighestPriorityIsServed := by
  intro s src h
  refine ⟨(requests_of_acceptedSource h).1, fun other ho hne => ?_⟩
  obtain ⟨-, before, after, hsplit, hbefore⟩ := List.find?_eq_some_iff_append.1 h
  have hmem : other ∈ before ++ src :: after := hsplit ▸ mem_sources other
  have hord := sources_pairwise_priority
  rw [hsplit, List.pairwise_append, List.pairwise_cons] at hord
  obtain ⟨-, ⟨hafter, -⟩, -⟩ := hord
  rcases List.mem_append.1 hmem with hb | ha
  · have hno := hbefore other hb
    simp [ho] at hno
  · exact hafter other ((List.mem_cons.1 ha).resolve_left hne)

/-- Settles O13: the list of sources has them all. -/
theorem someRequestIsServed : Obligations.SomeRequestIsServed := by
  refine fun s => ⟨fun src h => ?_, fun src h => (requests_of_acceptedSource h).1⟩
  rw [← Option.isSome_iff_exists, acceptedSource, List.find?_isSome]
  exact ⟨src, mem_sources src, by simp [h]⟩

/-- Settles O14: the table has 15 rows for each of three devices. -/
theorem vectorsOfTheTable : Obligations.VectorsOfTheTable := by
  refine ⟨fun d => ?_, by decide, fun d => ?_, fun d => ?_⟩ <;> cases d <;> decide

/-! ### When a row requests, by its form (R115, R125, R153) -/

/-- A flag that is not WDTIFG, with one enable. -/
theorem requests_plainRow (h : s.platform.vectors[n] = plainRow name f e kind) (hf : f ≠ wdtifg) :
    requests (.row n) s = (gieBit s.sr && f.get s && e.get s) := by
  rw [requests_row, h, plainRow_requests, flagActive_of_ne hf, Bool.and_comm, Bool.and_assoc]

/-- WDTIFG with one enable. -/
theorem requests_watchdogRow (h : s.platform.vectors[n] = plainRow name wdtifg e kind) :
    requests (.row n) s = (gieBit s.sr && wdtifg.get s && e.get s && tmselBit s.wdtctl) := by
  have ha : flagActive wdtifg s = (wdtifg.get s && tmselBit s.wdtctl) := by simp [flagActive]
  rw [requests_row, h, plainRow_requests, ha]
  ac_rfl

theorem requests_timerPortRow {row : Row} {tpie : Fin 8} (h : s.platform.vectors[n] = timerPortRow row tpie) :
    requests (.row n) s =
      (gieBit s.sr && (s.modules.flags[row] && s.ie2.getLsbD tpie.val && s.modules.enables[row])) := by
  have ha : flagActive (.module row) s = s.modules.flags[row] := flagActive_of_ne (by simp [wdtifg]) s
  simp only [requests_row, h, timerPortRow, List.any_cons, List.any_nil, List.all_cons, List.all_nil,
    GatedFlag.requests, ha, EnableBit.get, Bool.or_false, Bool.and_true]
  ac_rfl

theorem requests_portRow {p : PortId} {pins : List (Fin 8)} (h : s.platform.vectors[n] = portRow name p pins) :
    requests (.row n) s = true ↔ gieBit s.sr = true ∧
      ∃ m ∈ pins, (s.port p).ifg.getLsbD m.val = true ∧ (s.port p).ie.getLsbD m.val = true := by
  rw [requests_row, h, Bool.and_eq_true, portRow_requests, and_comm]

theorem requests_vacantRow (h : s.platform.vectors[n] = vacantRow) : requests (.row n) s = false := by
  rw [requests_row, h]
  rfl

theorem usesDefaultVectors.row (h : usesDefaultVectors s) (n : Row) :
    s.platform.vectors[n] = (defaultVectors s.platform.device)[n] := by
  rw [show s.platform.vectors = defaultVectors s.platform.device from h]

/-- Every pin of a port is one of 0 to 7. -/
theorem mem_allPins : ∀ m : Fin 8, m ∈ ([0, 1, 2, 3, 4, 5, 6, 7] : List (Fin 8)) := by decide

theorem mem_pinsFromTwo : ∀ m : Fin 8, m ∈ ([2, 3, 4, 5, 6, 7] : List (Fin 8)) ↔ 2 ≤ m.val := by decide

/-- The default rows that no two devices share: the '310 has no ADC, and its Timer/Port stands in row 5. -/
theorem requests_deviceRows (h : usesDefaultVectors s) :
    requests (.row 5) s = (gieBit s.sr && (if s.platform.device = .d310
      then s.modules.flags[5] && s.ie2.getLsbD 2 && s.modules.enables[5]
      else s.ifg2.getLsbD 2 && s.ie2.getLsbD 2)) ∧
    requests (.row 4) s = (gieBit s.sr && (if s.platform.device = .d310
      then false else s.modules.flags[4] && s.ie2.getLsbD 3 && s.modules.enables[4])) := by
  have h5 := h.row 5
  have h4 := h.row 4
  cases hd : s.platform.device <;> rw [hd] at h5 h4
  case d310 =>
    refine ⟨requests_timerPortRow h5, ?_⟩
    rw [requests_vacantRow h4, if_pos rfl, Bool.and_false]
  case d320 | d330 =>
    refine ⟨?_, requests_timerPortRow h4⟩
    rw [requests_plainRow h5 (by decide), if_neg (by decide), Bool.and_assoc]
    rfl

/-- Settles O15, row by row of the default table. -/
theorem requestConditions : Obligations.RequestConditions := by
  refine fun s => ⟨requests_nmi s, fun ho hn => ?_, fun h => ?_⟩
  · rw [requests_nmi, ho, hn, Bool.and_false, Bool.or_false]
  obtain ⟨h5, h4⟩ := requests_deviceRows h
  refine ⟨requests_plainRow (h.row 13) (by decide), requests_plainRow (h.row 12) (by decide),
    requests_vacantRow (h.row 11), requests_watchdogRow (h.row 10), requests_plainRow (h.row 9) (by decide),
    requests_plainRow (h.row 8) (by decide), requests_plainRow (h.row 7) (by decide),
    requests_plainRow (h.row 6) (by decide), h5, h4, ?_, ?_, requests_plainRow (h.row 1) (by decide), ?_⟩
  · simpa only [mem_allPins, true_and, State.port] using requests_portRow (h.row 3)
  · simpa only [mem_allPins, true_and, State.port] using requests_portRow (h.row 2)
  · simpa only [mem_pinsFromTwo, State.port] using requests_portRow (h.row 0)

/-- In watchdog mode WDTIFG requests nothing, whatever enables stand with it (R153). -/
theorem not_requests_wdtifg {g : GatedFlag} (hg : g.flag = wdtifg) (h : tmselBit s.wdtctl = false) :
    g.requests s = false := by
  simp [GatedFlag.requests, flagActive, hg, h]

/-- Settles O16: in watchdog mode no flag of such a row requests. -/
theorem watchdogRequestsInTimerModeOnly : Obligations.WatchdogRequestsInTimerModeOnly := by
  refine fun s => ⟨fun ht n hall => ?_, fun ht h => ?_⟩
  · have hany : s.platform.vectors[n].flags.any (fun g => g.requests s) = false :=
      List.any_eq_false.2 fun g hg => Bool.eq_false_iff.1 (not_requests_wdtifg (hall g hg) ht)
    rw [requests_row, hany, Bool.false_and]
  · rw [requests_watchdogRow (h.row 10), ht, Bool.and_true, Bool.and_eq_true, Bool.and_eq_true, and_assoc]
    exact and_rotate

/-! ### Operating modes (R158) -/

/-- Active mode is the four control bits clear. -/
theorem modeOf_eq_active_iff (sr : Word) : modeOf sr = some .active ↔
    cpuOffBit sr = false ∧ oscOffBit sr = false ∧ scg0Bit sr = false ∧ scg1Bit sr = false := by
  unfold modeOf
  cases cpuOffBit sr <;> cases oscOffBit sr <;> cases scg0Bit sr <;> cases scg1Bit sr <;> decide

theorem and_eq_zero_iff (v mask : Word) :
    v &&& mask = 0 ↔ ∀ i : Fin 16, mask.getLsbD i = true → v.getLsbD i = false := by
  constructor
  · intro h i hi
    have hz : (v &&& mask).getLsbD i = false := by rw [h]; exact BitVec.getLsbD_zero
    rwa [BitVec.getLsbD_and, hi, Bool.and_true] at hz
  · intro h
    apply BitVec.eq_of_getLsbD_eq
    intro i hi
    rw [BitVec.getLsbD_and, show (0 : Word).getLsbD i = false from BitVec.getLsbD_zero]
    cases hm : mask.getLsbD i
    · exact Bool.and_false _
    · rw [h ⟨i, hi⟩ hm, Bool.false_and]

theorem controlBits_clear_iff (sr : Word) : sr &&& 0x00F0 = 0 ↔
    cpuOffBit sr = false ∧ oscOffBit sr = false ∧ scg0Bit sr = false ∧ scg1Bit sr = false := by
  have hmask : ∀ i : Fin 16, (0x00F0 : Word).getLsbD i = true ↔ i = 4 ∨ i = 5 ∨ i = 6 ∨ i = 7 := by decide
  simp only [and_eq_zero_iff, hmask, forall_eq_or_imp, forall_eq]
  rfl

/-- Settles O53: `modeOf` is that table, and active mode is the four bits clear. -/
theorem modeFromSr : Obligations.ModeFromSr := by
  refine fun sr => ⟨?_, ?_, ?_, ?_, ?_, (modeOf_eq_active_iff sr).trans (controlBits_clear_iff sr).symm⟩
  · intro hc ho
    cases h1 : scg1Bit sr <;> cases h0 : scg0Bit sr <;> simp only [modeOf, hc, ho, h1, h0]
  all_goals
    intro hc ho h1 h0
    simp only [modeOf, hc, ho, h1, h0]

end Sys2Proof.Machine

/-! # The interrupt sequence: the stack, SR and the flags (R116, R124 to R132) -/

namespace Sys2Proof.Machine

variable {s t u : State} {src : Source} {v a : Word}

/-! ### The two pushes (R129, R131, D19) -/

/-- PC and SR are in RAM below SP, and SP is down by two words. -/
def State.withFrame (s : State) : State :=
  (s.setSp (s.sp - 4)).setMem ((((s.mem.write (s.sp - 2).toNat (loByte s.pc)).write ((s.sp - 2).toNat + 1)
    (hiByte s.pc)).write (s.sp - 4).toNat (loByte s.sr)).write ((s.sp - 4).toNat + 1) (hiByte s.sr))

theorem withFrame_read_other {b : Nat} (h2 : covers .word (s.sp - 2) b = false)
    (h4 : covers .word (s.sp - 4) b = false) : s.withFrame.mem.read b = s.mem.read b := by
  obtain ⟨h2lo, h2hi⟩ := not_covers_word.1 h2
  obtain ⟨h4lo, h4hi⟩ := not_covers_word.1 h4
  rw [State.withFrame, State.setMem_mem, Memory.read_write_other _ _ h4hi, Memory.read_write_other _ _ h4lo,
    Memory.read_write_other _ _ h2hi, Memory.read_write_other _ _ h2lo]

theorem readReg_withFrame {r : Reg} (h : r ≠ 1) : readReg r s.withFrame = readReg r s :=
  readReg_setReg_other s (s.sp - 4) h

theorem get_withFrame (r : ByteRegister) (s : State) : r.get s.withFrame = r.get s := by
  rw [State.withFrame, ByteRegister.get_setMem, ByteRegister.get_setSp]

/-- No byte of ROM is one of a word in RAM. -/
theorem not_covers_of_rom {p : Platform} {b : Nat} (hk : wordInRam p a.toNat = true) (hb : kindOf p b = .rom) :
    covers .word a b = false := by
  obtain ⟨hlo, hhi⟩ := wordInRam_iff.1 hk
  refine not_covers_word.2 ⟨?_, ?_⟩ <;> rintro rfl
  · cases hb.symm.trans hlo
  · cases hb.symm.trans hhi

/-- The vectors lie in the table FFE0h to FFFFh (R54, R125). -/
theorem vectorAddress_mem_table (src : Source) :
    0xFFE0 ≤ (vectorAddress src).toNat ∧ (vectorAddress src).toNat + 1 < 0x10000 := by
  cases src with
  | nmi => decide
  | row n => revert n; decide

theorem readWord_vectorAddress_withFrame (hk2 : wordInRam s.platform (s.sp - 2).toNat = true)
    (hk4 : wordInRam s.platform (s.sp - 4).toNat = true) (src : Source) :
    readWord (vectorAddress src) s.withFrame = readWord (vectorAddress src) s := by
  obtain ⟨hlo, hhi⟩ := vectorAddress_mem_table src
  exact readWord_rom_congr rfl (kindOf_vectors _ hlo (by omega)) (kindOf_vectors _ (by omega) hhi) fun b hb =>
    withFrame_read_other (not_covers_of_rom hk2 hb) (not_covers_of_rom hk4 hb)

/-- With the stack in RAM and a vector in memory the interrupt sequence completes. -/
theorem interruptSequence_of_ram (ho : s.sp.getLsbD 0 = false) (hk2 : wordInRam s.platform (s.sp - 2).toNat = true)
    (hk4 : wordInRam s.platform (s.sp - 4).toNat = true) (hv : readWord (vectorAddress src) s = .next v) :
    interruptSequence src s = .next
      ((((acknowledge src s.withFrame).setSr (entrySr s.sr)).setGieFresh false).setPc v) := by
  have ho4 : (s.sp - 4).getLsbD 0 = false := by
    have h4 : s.sp - 2 - 2 = s.sp - 4 := by bv_omega
    exact h4 ▸ even_sub_two (even_sub_two ho)
  refine (interruptSequence_eq_next (ne_wdtctl_of_wordInRam hk2) (ne_wdtctl_of_wordInRam hk4)).2
    ⟨even_sub_two ho, hk2, ho4, hk4, enterHandler_eq_next.2 ⟨v, ?_, rfl⟩⟩
  exact (readWord_vectorAddress_withFrame hk2 hk4 src).trans hv

/-- A byte that is no register of flags is stored as before when nothing but flags changes. -/
theorem SameButFlags.storedByte (h : SameButFlags s t) (hr : ∀ r, registerAt a s = some r → r.isFlags = false) :
    storedByte a.toNat t = storedByte a.toNat s := by
  have hget (r : ByteRegister) (ha : registerAt a s = some r) : r.get t = r.get s := h.byteRegs r (hr r ha)
  unfold Machine.storedByte
  unfold registerAt at hget
  rw [h.platform, h.wdtctl, h.mem]
  cases hk : kindOf s.platform a.toNat <;> simp only [hk] at hget ⊢
  · exact Option.map_congr hget
  · exact Option.map_congr hget

/-- Settles O17: the two pushes change the stack only, service flags only, and the rest of the sequence PC and SR. -/
theorem interruptEntryPushesPcThenSr : Obligations.InterruptEntryPushesPcThenSr := by
  intro src s ho hk2 hk4 hv
  obtain ⟨v, hv⟩ := (readWord_completes _ s).2 hv
  have ht := interruptSequence_of_ram ho hk2 hk4 hv
  obtain ⟨hsp, hsr, hpc⟩ := interruptSequence_frame ho hk2 hk4 ht
  have hs := acknowledge_same src s.withFrame
  refine ⟨_, ht, hsp, hpc, hsr, hv, fun r h0 h1 h2 => ?_, fun r hr => ?_, fun b h2 h4 hb => ?_, hs.wdtctl, hs.enables,
    hs.platform, hs.pin, hs.hold, hs.schedule, rfl⟩
  · calc _ = readReg r ((acknowledge src s.withFrame).setSr (entrySr s.sr)) := readReg_setReg_other _ v h0
      _ = readReg r (acknowledge src s.withFrame) := readReg_setReg_other _ (entrySr s.sr) h2
      _ = readReg r s := (hs.cpu r).trans (readReg_withFrame h1)
  · simpa using (hs.byteRegs r hr).trans (get_withFrame r s)
  · calc _ = storedByte b.toNat (acknowledge src s.withFrame) := by simp
      _ = storedByte b.toNat s.withFrame := hs.storedByte hb
      _ = storedByte b.toNat (s.setSp (s.sp - 4)) := storedByte_setMem (withFrame_read_other h2 h4)
      _ = storedByte b.toNat s := storedByte_setSp _ _ _

/-! ### SR at entry (R130) -/

theorem entrySr_getLsbD_of_ne {i : Fin 16} (h : i ≠ 6) (sr : Word) : (entrySr sr).getLsbD i = false := by
  have hmask : ∀ i : Fin 16, i ≠ 6 → (0x0040 : Word).getLsbD i = false := by decide
  rw [entrySr, BitVec.getLsbD_and, hmask i h, Bool.and_false]

theorem scg0Bit_entrySr (sr : Word) : scg0Bit (entrySr sr) = scg0Bit sr := by
  rw [scg0Bit, entrySr, BitVec.getLsbD_and]
  exact Bool.and_true _

/-- Settles O18: after the two pushes SR is masked, and nothing later writes it. -/
theorem interruptEntryKeepsOnlyScg0 : Obligations.InterruptEntryKeepsOnlyScg0 := by
  intro src s t h2 h4 ht
  obtain ⟨-, -, -, -, he⟩ := (interruptSequence_eq_next h2 h4).1 ht
  obtain ⟨v, -, rfl⟩ := enterHandler_eq_next.1 he
  have hbit {i : Fin 16} (h : i ≠ 6) : (entrySr s.sr).getLsbD i = false := entrySr_getLsbD_of_ne h s.sr
  exact ⟨rfl, hbit (i := 3) (by decide), hbit (i := 4) (by decide), hbit (i := 5) (by decide),
    hbit (i := 7) (by decide), hbit (i := 8) (by decide), hbit (i := 2) (by decide), hbit (i := 1) (by decide),
    hbit (i := 0) (by decide), scg0Bit_entrySr s.sr, entrySr_reserved s.sr⟩

/-! ### Flags at service (R116, R125, R126) -/

/-- The flags that service of a source resets whatever the free values are. -/
def Source.resetsIn (t : Vector VectorRow 14) : Source → List FlagBit
  | .nmi => [nmiifg]
  | .row n => if t[n].kind = .single then t[n].flags.map (·.flag) else []

/-- The kind of the flags of a source is stated (R125). -/
def Source.kindStated (t : Vector VectorRow 14) : Source → Bool
  | .nmi => true
  | .row n => t[n].kind != .unstated

/-- A flag that service may not change by a free value goes if service resets it, and stays otherwise. -/
theorem acknowledge_get_eq {f : FlagBit}
    (h : f ∉ src.flagsIn s.platform.vectors ∨ src.kindStated s.platform.vectors = true) :
    f.get (acknowledge src s) = (f.get s && !decide (f ∈ src.resetsIn s.platform.vectors)) := by
  obtain ⟨hother, hnmi, hrow⟩ := acknowledge_get src s f
  by_cases hf : f ∈ src.flagsIn s.platform.vectors
  · have hstated := h.resolve_left (not_not_intro hf)
    cases src with
    | nmi =>
      have hmem : f ∈ Source.nmi.resetsIn s.platform.vectors := hf
      rw [hnmi rfl (List.mem_singleton.1 hf), decide_eq_true hmem, Bool.not_true, Bool.and_false]
    | row n =>
      obtain ⟨hsingle, hmultiple⟩ := hrow n rfl hf
      have hmem : f ∈ s.platform.vectors[n].flags.map (·.flag) := hf
      cases hk : s.platform.vectors[n].kind with
      | single => rw [hsingle hk, Source.resetsIn, if_pos hk, decide_eq_true hmem, Bool.not_true, Bool.and_false]
      | multiple =>
        rw [hmultiple hk, Source.resetsIn, if_neg (by rw [hk]; decide), decide_eq_false List.not_mem_nil,
          Bool.not_false, Bool.and_true]
      | unstated =>
        rw [Source.kindStated, hk] at hstated
        cases hstated
  · have hno : f ∉ src.resetsIn s.platform.vectors := by
      cases src with
      | nmi => exact hf
      | row n =>
        rw [Source.resetsIn]
        split
        · exact hf
        · exact List.not_mem_nil
    rw [hother hf, decide_eq_false hno, Bool.not_false, Bool.and_true]

/-- After service the end of the sequence changes no flag. -/
theorem enterHandler_get (h : enterHandler src s = .next t) (f : FlagBit) : f.get t = f.get (acknowledge src s) := by
  obtain ⟨v, -, rfl⟩ := enterHandler_eq_next.1 h
  rcases f with n | n | ⟨_ | _ | _, n⟩ | n <;> rfl

theorem enterHandler_byteRegs (h : enterHandler src s = .next t) {r : ByteRegister} (hr : r.isFlags = false) :
    r.get t = r.get s := by
  obtain ⟨v, -, rfl⟩ := enterHandler_eq_next.1 h
  simpa using (acknowledge_same src s).byteRegs r hr

/-- A byte is masked when each of its bits is. -/
theorem eq_and_of_getLsbD {b b' mask : Byte} (h : ∀ i : Fin 8, b'.getLsbD i = (b.getLsbD i && mask.getLsbD i)) :
    b' = b &&& mask := by
  apply BitVec.eq_of_getLsbD_eq
  intro i hi
  rw [BitVec.getLsbD_and]
  exact h ⟨i, hi⟩

/-- A port is its six registers, and its flag register its flags. -/
theorem port_eq_of_get {p : PortId} (hr : ∀ r : ByteRegister, r.isFlags = false → r.get t = r.get s)
    (hf : ∀ n, (FlagBit.port p n).get t = (FlagBit.port p n).get s) : t.port p = s.port p := by
  have hifg : (t.port p).ifg = (s.port p).ifg := BitVec.eq_of_getLsbD_eq fun i hi => hf ⟨i, hi⟩
  have hpins := hr (.port p .input) rfl
  have hout := hr (.port p .output) rfl
  have hdir := hr (.port p .direction) rfl
  have hies := hr (.port p .edgeSelect) rfl
  have hie := hr (.port p .enable) rfl
  simp only [ByteRegister.get, Port.get] at hpins hout hdir hies hie
  cases ht : t.port p
  cases hs : s.port p
  simp_all

/-! ### Flags at service, by the default table (R125, D14) -/

/-- The masks of the two registers that service of a source leaves by the default table. -/
theorem resetsIn_default_ifg1 (d : Device) (src : Source) (i : Fin 8) :
    (if src = .nmi then 0xEF else if src = .row 13 then 0xFB else if src = .row 12 then 0xF7
      else if src = .row 10 then 0xFE else 0xFF : Byte).getLsbD i =
      !decide (FlagBit.ifg1 i ∈ src.resetsIn (defaultVectors d)) := by
  cases src with
  | nmi => cases d <;> revert i <;> decide
  | row n => cases d <;> revert n i <;> decide

theorem resetsIn_default_ifg2 (d : Device) (src : Source) (i : Fin 8) :
    (if src = .row 7 then 0xFE else if src = .row 6 then 0xFD else if src = .row 5 ∧ d ≠ .d310 then 0xFB
      else if src = .row 1 then 0x7F else 0xFF : Byte).getLsbD i =
      !decide (FlagBit.ifg2 i ∈ src.resetsIn (defaultVectors d)) := by
  cases src with
  | nmi => cases d <;> revert i <;> decide
  | row n => cases d <;> revert n i <;> decide

/-- Only the Timer/Port row has no stated kind, and its flag is in the module. -/
theorem kindStated_default (d : Device) (src : Source) : src.kindStated (defaultVectors d) = true ∨
    ∃ n : Row, n ≠ 8 ∧ src.flagsIn (defaultVectors d) = [.module n] := by
  cases src with
  | nmi => exact .inl rfl
  | row n => cases d <;> revert n <;> decide

/-- The bits of IFG1 or IFG2, or of a port, that service leaves by the default table. -/
theorem acknowledge_get_default {f : FlagBit} (h : usesDefaultVectors s)
    (hf : ∀ n : Row, n ≠ 8 → f ≠ .module n) :
    f.get (acknowledge src s) = (f.get s && !decide (f ∈ src.resetsIn (defaultVectors s.platform.device))) := by
  have hv : s.platform.vectors = defaultVectors s.platform.device := h
  rw [← hv]
  refine acknowledge_get_eq ?_
  rw [hv]
  rcases kindStated_default s.platform.device src with hk | ⟨n, hn, hflags⟩
  · exact .inr hk
  · exact .inl (by rw [hflags]; simpa using hf n hn)

/-- No row but its own resets or may reset the flag inside a module. -/
theorem module_not_mem_flagsIn_default (d : Device) {r : Row} (h : src ≠ .row r) :
    FlagBit.module r ∉ src.flagsIn (defaultVectors d) := by
  cases src with
  | nmi => simp [Source.flagsIn, nmiifg]
  | row n => cases d <;> revert n r <;> decide

/-- TAIFG is a multiple source flag by the default table. -/
theorem taifg_not_mem_resetsIn_default (d : Device) (src : Source) :
    FlagBit.module 8 ∉ src.resetsIn (defaultVectors d) := by
  cases src with
  | nmi => simp [Source.resetsIn, nmiifg]
  | row n => cases d <;> revert n <;> decide

/-- Port flags are multiple source flags by the default table. -/
theorem port_not_mem_resetsIn_default (d : Device) (src : Source) (p : PortId) (i : Fin 8) :
    FlagBit.port p i ∉ src.resetsIn (defaultVectors d) := by
  cases src with
  | nmi => simp [Source.resetsIn, nmiifg]
  | row n => cases d <;> cases p <;> revert n i <;> decide

theorem enterHandler_modules_default (h : enterHandler src s = .next t) (hv : usesDefaultVectors s) {r : Row}
    (hr : src ≠ .row r ∨ r = 8) : t.modules.flags[r] = s.modules.flags[r] := by
  refine (enterHandler_get h (.module r)).trans ?_
  rcases hr with hr | rfl
  · refine (acknowledge_get src s (.module r)).1 ?_
    rw [show s.platform.vectors = defaultVectors s.platform.device from hv]
    exact module_not_mem_flagsIn_default _ hr
  · rw [acknowledge_get_default hv fun n hn he => hn (by cases he; rfl),
      decide_eq_false (taifg_not_mem_resetsIn_default _ src), Bool.not_false, Bool.and_true]
    rfl

theorem enterHandler_port_default (h : enterHandler src s = .next t) (hv : usesDefaultVectors s) (p : PortId) :
    t.port p = s.port p := by
  refine port_eq_of_get (fun r hr => enterHandler_byteRegs h hr) fun n => ?_
  rw [enterHandler_get h, acknowledge_get_default (f := .port p n) hv fun _ _ => nofun,
    decide_eq_false (port_not_mem_resetsIn_default _ src p n), Bool.not_false, Bool.and_true]

/-- Settles O19: each flag by the kind of its row, and the registers of flags bit by bit. -/
theorem serviceResetsSingleSourceFlags : Obligations.ServiceResetsSingleSourceFlags := by
  intro src s t h
  have hget := enterHandler_get h
  refine ⟨fun f hf => (hget f).trans ((acknowledge_get src s f).1 hf), ?_, ?_, fun hv => ⟨?_, ?_, ?_, ?_, ?_⟩⟩
  · rintro rfl
    obtain ⟨v, -, rfl⟩ := enterHandler_eq_next.1 h
    exact ⟨rfl, (hget ofifg).trans (FlagBit.get_put_other (f := nmiifg) (g := ofifg) false s (by decide))⟩
  · intro n hn f hf
    obtain ⟨-, -, hrow⟩ := acknowledge_get src s f
    rw [hget f]
    exact hrow n hn hf
  · refine eq_and_of_getLsbD fun i => ?_
    rw [resetsIn_default_ifg1 s.platform.device]
    exact (hget (.ifg1 i)).trans (acknowledge_get_default hv fun _ _ => nofun)
  · refine eq_and_of_getLsbD fun i => ?_
    rw [resetsIn_default_ifg2 s.platform.device]
    exact (hget (.ifg2 i)).trans (acknowledge_get_default hv fun _ _ => nofun)
  · rintro rfl
    obtain ⟨-, -, hrow⟩ := acknowledge_get (.row 9) s (.module 9)
    have h9 : s.platform.vectors[(9 : Row)] = plainRow .timerA0 (.module 9) (.module 9) .single := hv.row 9
    exact (hget (.module 9)).trans ((hrow 9 rfl (by simp only [Source.flagsIn, h9]; decide)).1 (by rw [h9]; rfl))
  · exact fun r hr => enterHandler_modules_default h hv hr
  · exact ⟨enterHandler_port_default h hv .p0, enterHandler_port_default h hv .p1,
      enterHandler_port_default h hv .p2⟩

end Sys2Proof.Machine

/-! # Idle turns, the RST/NMI pin, the watchdog and WDTCTL (R34, R35, R112, R119 to R121, R128, R152, R159, R174) -/

namespace Sys2Proof.Machine

variable {s t : State} {rest : List Turn} {level : Level} {cause : ResetCause} {v : Word}

/-! ### The CPU's turn (R128, R159, R174) -/

theorem step_of_held (hc : cpuMoves s rest) (hh : s.hold = some cause) : step s = .next (s.setSchedule rest) := by
  rw [step_of_cpuMoves hc, cpuStep, show (s.setSchedule rest).hold = some cause from hh]

/-- Settles O8: a held CPU passes the turn, and a stopped one the boundary. -/
theorem cpuWithoutAStepStays : Obligations.CpuWithoutAStepStays := by
  refine fun s rest hc => ⟨fun hh => ?_, fun hh hoff hacc => ?_⟩
  · obtain ⟨cause, hh⟩ := Option.isSome_iff_exists.1 hh
    exact step_of_held hc hh
  · rw [step_of_none_accepted hc hh hacc, if_pos hoff, atBoundary_eq]

/-- With no change of GIE before it a boundary defers nothing, and passing it changes nothing. -/
theorem atBoundary_of_not_fresh (h : s.gieFresh = false) (rest : List Turn) :
    atBoundary rest s = s.setSchedule rest := by
  simp [atBoundary, passBoundary, h]

/-- Settles O9: what is accepted is served at the boundary, and the NMI vector is accepted even while maskable
requests wait. -/
theorem requestIsServedAtTheBoundary : Obligations.RequestIsServedAtTheBoundary := by
  refine fun s rest hc hh => ⟨fun src hf hacc => ?_, fun hacc => ?_⟩
  · have hdefer : defersMaskable s = false := by rw [defersMaskable, hf, Bool.false_and]
    rw [step_of_accepted hc hh (by rw [hdefer, hacc]), atBoundary_of_not_fresh hf]
  · obtain ⟨hr, -⟩ := requests_of_acceptedSource hacc
    rw [step_of_accepted hc hh (acceptedSource_of_nmi _ hr), atBoundary_eq]

/-! ### The RST/NMI pin (R119, R121, R174) -/

/-- A reset holds the CPU exactly while the pin is low (R174). -/
theorem resetTransition_hold (h : resetTransition cause s = .next t) : t.hold.isSome = (s.pin == .low) := by
  obtain ⟨v, -, rfl⟩ := resetTransition_eq_next.1 h
  cases hp : s.pin with
  | high => simp [resetState, resetHold, hp]
  | low =>
    simp only [State.setPc_hold, resetState, resetHold, hp]
    split <;> rfl

theorem resetTransition_pin (h : resetTransition cause s = .next t) : t.pin = s.pin := by
  obtain ⟨v, -, rfl⟩ := resetTransition_eq_next.1 h
  rfl

theorem resetTransition_wdtctl (h : resetTransition cause s = .next t) : t.wdtctl = 0 := by
  obtain ⟨v, -, rfl⟩ := resetTransition_eq_next.1 h
  rfl

/-- A reset leaves WDTIFG set exactly when it is no POR (R171, R177). -/
theorem resetTransition_wdtifg (h : resetTransition cause s = .next t) : t.ifg1.getLsbD 0 = !cause.isPor := by
  obtain ⟨v, -, rfl⟩ := resetTransition_eq_next.1 h
  change (resetIfg1 cause).getLsbD 0 = !cause.isPor
  cases cause <;> decide

/-- In NMI mode a level sets NMIIFG on the selected edge, unless the pin is blocked. -/
theorem pinChange_of_nmi (hn : nmiBit s.wdtctl = true) (level : Level) : pinChange level s =
    .next (if selectedEdge (nmiesBit s.wdtctl) s.pin level then raiseFlag .nmiPin { s with pin := level }
      else { s with pin := level }) := if_pos hn

theorem pinChange_low (hn : nmiBit s.wdtctl = false) :
    pinChange .low s = resetTransition .rstPin { s with pin := .low } := by
  simp only [pinChange, hn, Bool.false_eq_true, if_false]

theorem pinChange_high (hn : nmiBit s.wdtctl = false) (hh : s.hold = none) :
    pinChange .high s = .next { s with pin := .high } := by
  simp only [pinChange, hn, hh, Bool.false_eq_true, if_false]

/-- The release of the pin resets a held CPU again (R174). -/
theorem pinChange_release (hn : nmiBit s.wdtctl = false) (hh : s.hold = some cause) :
    pinChange .high s = resetTransition cause { s with pin := .high } := by
  simp only [pinChange, hn, hh, Bool.false_eq_true, if_false]

theorem selectedEdge_iff (select : Bool) (old new : Level) : selectedEdge select old new = true ↔
    (select = false ∧ old = .low ∧ new = .high) ∨ (select = true ∧ old = .high ∧ new = .low) := by
  cases select <;> cases old <;> cases new <;> decide

/-- Settles O54: in NMI mode by the edge, in reset mode by the level. -/
theorem pinChangeSetsNmiOrResets : Obligations.PinChangeSetsNmiOrResets := by
  refine fun s level => ⟨fun hn => ?_, fun hn hl => ?_, fun hn hl hh => ?_⟩
  · simp only [envStep, pinChange_of_nmi hn, ← selectedEdge_iff]
    have hblocked : sourceBlocked .nmiPin { s with pin := level } = sourceBlocked .nmiPin s :=
      sourceBlocked_congr rfl rfl _
    refine ⟨fun he => ⟨fun hb => ?_, fun hb => ?_⟩, fun he => ?_⟩
    · rw [if_pos he, raiseFlag_of_not_blocked (hblocked.trans hb)]
      rfl
    · rw [if_pos he, raiseFlag_of_blocked (hblocked.trans hb)]
    · rw [if_neg he]
  · subst hl
    refine ⟨pinChange_low hn, fun t ht => ?_⟩
    have hr := (pinChange_low hn).symm.trans ht
    exact ⟨resetTransition_hold hr, resetTransition_pin hr⟩
  · subst hl
    exact pinChange_high hn hh

/-- Settles O26: the hold of the reset is what the release finds, and the reset left the pin a reset input. -/
theorem lowPinHoldsUntilReleased : Obligations.LowPinHoldsUntilReleased := by
  intro cause s t u hp ht
  have hh : t.hold.isSome = true := by rw [resetTransition_hold ht, hp]; rfl
  have hw := resetTransition_wdtctl ht
  refine ⟨hh, hw, fun hu => ?_⟩
  obtain ⟨held, hheld⟩ := Option.isSome_iff_exists.1 hh
  have hr := (pinChange_release (by rw [hw]; rfl) hheld).symm.trans hu
  obtain ⟨v, hv, rfl⟩ := resetTransition_eq_next.1 hr
  exact ⟨rfl, rfl, (readWord_congr rfl rfl rfl).symm.trans hv⟩

/-! ### The watchdog (R152) -/

/-- A flag is no part of the reset vector. -/
theorem readWord_put (f : FlagBit) (b : Bool) (a : Word) (s : State) : readWord a (f.put b s) = readWord a s := by
  have h := f.put_same b s
  exact readWord_congr h.platform h.wdtctl h.mem

theorem watchdogOverflow_of_reset (hm : watchdogMayExpire s = true) (ht : tmselBit s.wdtctl = false) :
    watchdogOverflow s = resetTransition .wdtOverflow (wdtifg.put true s) := by
  simp only [watchdogOverflow, hm, ht, Bool.false_eq_true, if_true, if_false]

theorem watchdogOverflow_of_timer (hm : watchdogMayExpire s = true) (ht : tmselBit s.wdtctl = true) :
    watchdogOverflow s = .next (raiseFlag .watchdog s) := by
  simp only [watchdogOverflow, hm, ht, if_true]

/-- Settles O57: a flag or a reset by the mode, and the reset of that cause leaves WDTIFG set. -/
theorem watchdogOverflowFlagsOrResets : Obligations.WatchdogOverflowFlagsOrResets := by
  refine fun s => ⟨watchdogMayExpire_of_default, fun hm => ?_, fun hm ht hb => ?_, fun hm ht hb => ?_,
    fun hm ht hv => ?_⟩
  · simp only [envStep, watchdogOverflow, hm, Bool.false_eq_true, if_false]
  · rw [envStep, watchdogOverflow_of_timer hm ht, raiseFlag_of_not_blocked hb]
    rfl
  · rw [envStep, watchdogOverflow_of_timer hm ht, raiseFlag_of_blocked hb]
  · obtain ⟨v, hv⟩ := (readWord_completes _ s).2 hv
    have hr := (resetTransition_eq_next (cause := .wdtOverflow)).2 ⟨v, (readWord_put wdtifg true _ s).trans hv, rfl⟩
    exact ⟨_, (watchdogOverflow_of_reset hm ht).trans hr, resetTransition_wdtifg hr, rfl, hv⟩

/-! ### WDTCTL (R35, R112, R120) -/

theorem loByte_getLsbD {i : Nat} (h : i < 8) (v : Word) : (loByte v).getLsbD i = v.getLsbD i := by
  rw [loByte, BitVec.getLsbD_setWidth, decide_eq_true h, Bool.true_and]

theorem selectsLowResetPin_iff (v : Word) (s : State) :
    selectsLowResetPin v s = true ↔ v.getLsbD 5 = false ∧ s.pin = .low := by
  simp only [selectsLowResetPin, nmiBit, loByte_getLsbD (show 5 < 8 by decide), Bool.and_eq_true, Bool.not_eq_true',
    beq_iff_eq]

/-- The right password with NMI clear while the pin is low is a reset by the pin. -/
theorem writeWdtctl_of_lowPin (h : hiByte v = s.platform.wdtKey) (hp : selectsLowResetPin v s = true) :
    writeWdtctl v s = resetTransition .rstPin (storeWdtctl (loByte v) s) := by
  simp [writeWdtctl, wrongKey, h, hp]

theorem changesEdgeInNmiMode_iff (old : Byte) (v : Word) : changesEdgeInNmiMode old (loByte v) = true ↔
    v.getLsbD 6 ≠ nmiesBit old ∧ (nmiBit old = true ∨ v.getLsbD 5 = true) := by
  have h6 : nmiesBit (loByte v) = v.getLsbD 6 := loByte_getLsbD (by decide) v
  have h5 : nmiBit (loByte v) = v.getLsbD 5 := loByte_getLsbD (by decide) v
  rw [changesEdgeInNmiMode, h6, h5, Bool.and_eq_true, bne_iff_ne, Bool.or_eq_true]

theorem readWord_wdtctl (s : State) :
    readWord wdtctlAddress s = .next (wordOfBytes s.wdtctl s.platform.wdtReadHigh) := by
  have hk : kindOf s.platform wdtctlAddress.toNat = .peripheral16 := kindOf_wdtctl s.platform
  have ho : wdtctlAddress.getLsbD 0 = false := by decide
  simp only [readWord, ho, hk, Bool.false_eq_true, if_true, if_false]

/-- Settles O27: the three cases of the write, by the password and the pin. -/
theorem wdtctlWriteChecksThePassword : Obligations.WdtctlWriteChecksThePassword := by
  intro v s
  rw [writeWord_wdtctl]
  refine ⟨fun hk => ?_, fun hk hp => ?_, fun hk h5 hp t ht => ?_, readWord_wdtctl s⟩
  · rw [writeWdtctl_of_wrongKey hk]
    exact ⟨rfl, fun t ht => ⟨resetTransition_wdtifg ht, resetTransition_wdtctl ht⟩⟩
  · have hsel : selectsLowResetPin v s = false := by
      rw [Bool.eq_false_iff, Ne, selectsLowResetPin_iff]
      rintro ⟨h5, hlow⟩
      rcases hp with hp | hp
      · cases hp.symm.trans h5
      · cases hp.symm.trans hlow
    refine ⟨changesEdgeInNmiMode s.wdtctl (loByte v), changesEdgeInNmiMode_iff s.wdtctl v, ?_⟩
    rw [writeWdtctl_of_rightKey hk hsel, storeWdtctl_eq]
    rfl
  · have hr := (writeWdtctl_of_lowPin hk ((selectsLowResetPin_iff v s).2 ⟨h5, hp⟩)).symm.trans ht
    have hpin : (storeWdtctl (loByte v) s).pin = .low := by rw [storeWdtctl_eq]; exact hp
    exact ⟨resetTransition_wdtifg hr, resetTransition_wdtctl hr, by rw [resetTransition_hold hr, hpin]; rfl⟩

end Sys2Proof.Machine

/-! # Reset (R11, R29, R171, R177, R179, R180) -/

namespace Sys2Proof.Machine

variable {s t : State} {cause : ResetCause}

/-! ### The state after reset (R177, R180) -/

/-- Of the byte registers only IFG1, with OFIFG, is not 0 after reset. -/
theorem ByteRegister.get_reset {r : ByteRegister} (h : r ≠ .ifg1) : r.get State.reset = 0 := by
  cases r with
  | ifg1 => exact absurd rfl h
  | port p f => cases p <;> cases f <;> rfl
  | ie1 | ie2 | ifg2 | me1 | me2 | p1sel | p2sel => rfl

/-- Settles O59: OFIFG, the one bit that is set, is defined, no memory is listed and the pin is high. -/
theorem resetMeetsTheInvariant : Obligations.ResetMeetsTheInvariant where
  memWf := rfl
  memBacked := nofun
  srReserved := by decide
  ofieClear := BitVec.getLsbD_zero
  reservedClear r := by
    by_cases hr : r = .ifg1
    · subst hr
      decide
    · rw [ByteRegister.get_reset hr]
      exact BitVec.zero_and
  cntclClear := BitVec.getLsbD_zero
  heldIffPinLow := rfl
  holdIsPor := nofun
  freshMeansGie := nofun

/-! ### What the reset transition leaves (R177) -/

/-- The causes that are a POR set OFIFG alone, the others WDTIFG with it (R29). -/
theorem resetIfg1_eq (cause : ResetCause) :
    resetIfg1 cause = if cause = .powerUp ∨ cause = .rstPin then 0x02 else 0x03 := by
  cases cause <;> rfl

theorem nmiifg_resetIfg1 (cause : ResetCause) : (resetIfg1 cause).getLsbD 4 = false := by
  cases cause <;> decide

theorem adifg_resetIfg2 (cause : ResetCause) (n : Nat) (old : Byte) :
    (resetIfg2 cause n old).getLsbD 2 = false := by
  simp [resetIfg2, -BitVec.getLsbD_eq_getElem]

/-- BTIFG is a draw at power-up only (R30). -/
theorem btifg_resetIfg2 (h : cause ≠ .powerUp) (n : Nat) (old : Byte) :
    (resetIfg2 cause n old).getLsbD 7 = old.getLsbD 7 := by
  simp [resetIfg2, h, -BitVec.getLsbD_eq_getElem]

/-- After a reset SR, IE1 and NMIIFG are clear, so no source requests (R115 to R117). -/
theorem resetTransition_acceptedSource (h : resetTransition cause s = .next t) (deferred : Bool) :
    acceptedSource deferred t = none := by
  obtain ⟨v, -, rfl⟩ := resetTransition_eq_next.1 h
  exact acceptedSource_eq_none deferred BitVec.getLsbD_zero (nmiifg_resetIfg1 cause) BitVec.getLsbD_zero

/-- ROM reads as before a reset, and no other address holds a value (R177, D8). -/
theorem resetTransition_mem_read (h : resetTransition cause s = .next t) (a : Nat) :
    t.mem.read a = if kindOf s.platform a = .rom then s.mem.read a else none := by
  obtain ⟨v, -, rfl⟩ := resetTransition_eq_next.1 h
  exact Memory.read_keepRom s.platform s.mem a

/-- Settles O23: the reset ends in the state it prepares, with PC from the vector. -/
theorem resetTransitionLeavesTheResetValues : Obligations.ResetTransitionLeavesTheResetValues := by
  intro cause s hr
  obtain ⟨v, hv⟩ := (readWord_completes _ s).2 hr
  have ht : resetTransition cause s = .next ((resetState cause s).setPc v) := resetTransition_eq_next.2 ⟨v, hv, rfl⟩
  refine ⟨_, ht, hv, rfl, rfl, rfl, rfl, resetIfg1_eq cause, adifg_resetIfg2 _ _ _, (btifg_resetIfg2 · _ _), ?_, ?_,
    resetTransition_acceptedSource ht false, fun a ha => ?_, fun a ha => ?_⟩
  · rintro rfl
    exact ⟨rfl, rfl, rfl, rfl, rfl, rfl⟩
  · rw [resetTransition_hold ht, beq_iff_eq]
  · rw [resetTransition_mem_read ht, if_pos ha]
  · rw [resetTransition_mem_read ht, if_neg ha]

/-! ### The source of a reset (R171, R179) -/

/-- A reset by the watchdog or its key is a PUC without POR: it leaves WDTIFG set, and SR and WDTCTL 0. -/
theorem resetTransition_of_not_isPor (hc : cause.isPor = false) (h : resetTransition cause s = .next t) :
    t.ifg1.getLsbD 0 = true ∧ t.sr = 0 ∧ t.wdtctl = 0 :=
  ⟨by rw [resetTransition_wdtifg h, hc]; rfl, (everyResetClearsSr _ _ _ h).1, resetTransition_wdtctl h⟩

/-- Settles O25: each event or instruction is a reset of its own cause, and WDTIFG tells whether the cause is a POR. -/
theorem wdtifgTellsTheResetSource : Obligations.WdtifgTellsTheResetSource := by
  refine fun s t rest => ⟨fun hs h => ?_, fun hs hn h => ?_, fun hs hm ht h => ?_, fun v hk h => ?_⟩
  · have hr : resetTransition .powerUp (s.setSchedule rest) = .next t := (step_of_env hs).symm.trans h
    exact resetTransition_wdtifg hr
  · have hp : pinChange .low (s.setSchedule rest) = .next t := (step_of_env hs).symm.trans h
    exact resetTransition_wdtifg ((pinChange_low (s := s.setSchedule rest) hn).symm.trans hp)
  · have hw : watchdogOverflow (s.setSchedule rest) = .next t := (step_of_env hs).symm.trans h
    have hr := watchdogOverflow_of_reset ((watchdogMayExpire_setSchedule rest).trans hm) ht
    exact resetTransition_of_not_isPor rfl (hr.symm.trans hw)
  · rw [exec_mov_imm_wdtctl, writeWdtctl_of_wrongKey (s := s.setPc (s.pc + 6)) hk] at h
    exact resetTransition_of_not_isPor rfl h

end Sys2Proof.Machine
